-- ==== Sys2Proof/Word.lean ====
section
/-! DEFINITION. The word types of the block: 32-bit words (00_scope.md R11, 10_state.md R29)
and one-bit pin levels. Plain names only; every bit-field helper stands in `Decode.lean` or
`Machine/Operands.lean`. -/

namespace Sys2Proof

/-- A 32-bit unsigned word: host operands, accumulators, host-port data (R11, R29). -/
abbrev Word := BitVec 32

/-- The level of a pin or the value of a one-bit flag: `true` is 1, `false` is 0 (R11, R13). -/
abbrev Level := Bool

end Sys2Proof
end

