-- ==== Sys2Proof/Config.lean ====
section
/-! DEFINITION. What is fixed while the block runs: the parameters the source fixes (00_scope.md
R6), the parameters it leaves open (R7), and the free values the environment supplies. A free
value is an opaque constant with no body: no proof can see what it is. -/

namespace Sys2Proof.Config

/-- `ADDR_MASK`: the 6-bit mask of a framed address (R6). -/
def addrMask : Word := 0x3F#32

/-- `WRITE_BIT`: ORed into the masked address of a write frame (R6). -/
def writeBit : Word := 0x40#32

/-- `ADDR_SHIFT`: left shift of the address field (R6). -/
def addrShift : Nat := 9

/-- `VALUE_MASK`: the 9-bit mask of a register value (R6). -/
def valueMask : Word := 0x1FF#32

/-- `SEQ_MAX`: the longest channel-pair sequence a client may program (R6). -/
def seqMax : Nat := 32

/-- The parameters of R7 that a rule of the block reads. They are arguments of the model: they
stand in `State` as a field that no step writes (10_state.md R21), so a statement about every
state is a statement about every choice of them. -/
structure Params where
  /-- `BUSY_IDLE`: the level `PinRead(BUSY)` returns when the chip is idle (R153). -/
  busyIdle : Level
  /-- `COUNT_MAX`: the largest count RDCONV accepts (R164). -/
  countMax : Nat
  /-- `LIST_MAX`: the longest address list RDREGS accepts (R193). -/
  listMax : Nat
  /-- `RDREGS_PRECHECK`: whether RDREGS checks every address before any pin event (R160). -/
  rdregsPrecheck : Bool
  deriving DecidableEq, Repr

/-- The defaults of R7 (DESIGN CHOICE of the spec: D6, D11, D12; log entry 4). -/
def Params.default : Params where
  busyIdle := false
  countMax := 64
  listMax := 64
  rdregsPrecheck := true

/-- `COUNT_MAX` and `LIST_MAX` are naturals of at least 1 (92_eei_decisions.md, OPEN table), and
`2 × LIST_MAX` words can be counted in the 32 bits of `WORDIDX` (R34, R167; log entry 8). -/
def Params.wf (p : Params) : Bool :=
  decide (1 ≤ p.countMax) && decide (1 ≤ p.listMax) && decide (p.listMax ≤ 2 ^ 31)

/-- Which question to the environment an answer belongs to (00_scope.md R8, R13). -/
inductive Source where
  /-- The answer of `PinInit()`: `true` is ready, `false` is fail (93 U2). -/
  | init
  /-- The answer of `PinRead(DINA)` (93 U1). -/
  | dina
  /-- The answer of `PinRead(DINB)` (93 U1). -/
  | dinb
  /-- The answer of `PinRead(BUSY)` (93 U1). -/
  | busy
  deriving DecidableEq, Repr

/-- FREE VALUE (93 U1, U2; log entry 2): the `n`-th answer of the environment to a question,
once the answers listed in the state are used up. No rule constrains it. -/
opaque freeAnswer : Source → Nat → Bool

/-- The five pin ids a handle selects (10_state.md R22, R24). -/
structure PinIds where
  cs : Nat
  clk : Nat
  dout : Nat
  dina : Nat
  dinb : Nat
  deriving DecidableEq, Repr, Inhabited

/-- OPEN parameter `PINMAP(bus, dev)` (R7, D4; log entry 5): no source gives it. -/
opaque pinMap : BitVec 1 → BitVec 2 → PinIds

/-- OPEN parameter `PIN_TRIG` (R7, D4; log entry 5): no source gives it. -/
opaque pinTrig : Nat

/-- OPEN parameter `PIN_BUSY` (R7, D4; log entry 5): no source gives it. -/
opaque pinBusy : Nat

end Sys2Proof.Config
end

