-- ==== Sys2Proof/Syntax.lean ====
section
/-! DEFINITION. The instructions of the block: one constructor per row of
`spec/opcode_table.json` (30_encoding.md R109). Nine are host commands (R100); their operands
travel in the operand registers, so a command carries none (R103). Six are the words of the wire
(R90 to R93): what the transport shifts out on `DOUT`, or captures from `DINA`. -/

namespace Sys2Proof

/-- One constructor per row of the opcode table, in the table's order. -/
inductive Instr where
  /-- OPEN, `CMD = 0x01` (40_handle.md R120). -/
  | openHandle
  /-- CLOSE, `CMD = 0x02` (40_handle.md R122). -/
  | closeHandle
  /-- SETDIAG, `CMD = 0x03` (40_handle.md R124). -/
  | setDiag
  /-- SHIFT16, `CMD = 0x10` (41_transport.md R139). -/
  | shift16
  /-- SHIFT32, `CMD = 0x11` (41_transport.md R140). -/
  | shift32
  /-- WRREG, `CMD = 0x20` (42_register_protocol.md R155). -/
  | wrReg
  /-- RDREG, `CMD = 0x21` (42_register_protocol.md R157). -/
  | rdReg
  /-- RDREGS, `CMD = 0x22` (42_register_protocol.md R160). -/
  | rdRegs
  /-- RDCONV, `CMD = 0x23` (42_register_protocol.md R162). -/
  | rdConv
  /-- FRAME16.WRITE: the write frame `1aaaaaavvvvvvvvv` on `DOUT` (30_encoding.md R90). -/
  | frame16Write (addr : BitVec 6) (data : BitVec 9)
  /-- FRAME16.READ: the read frame `0aaaaaa000000000` on `DOUT` (30_encoding.md R91). -/
  | frame16Read (addr : BitVec 6)
  /-- WORD32.OUT: the all-zero conversion word on `DOUT` (30_encoding.md R92). -/
  | word32Out
  /-- WORD32.IN: a conversion capture, sideB in the high half (30_encoding.md R92, R69). -/
  | word32In (sideB sideA : BitVec 16)
  /-- RAW16: sixteen raw bits on `DOUT` (30_encoding.md R93). -/
  | raw16 (t : BitVec 16)
  /-- RAW32: thirty-two raw bits on `DOUT` (30_encoding.md R93). -/
  | raw32 (t : BitVec 32)
  deriving DecidableEq, Repr

/-- Where a word is read from: the spaces of the opcode table's rows (30_encoding.md R109). The
same bits mean different rows in different spaces, and the machine always knows the space. -/
inductive Space where
  /-- A word the host writes to `CMD` at offset `0x00` (R103). -/
  | hostCmd
  /-- A 16-bit register frame on `DOUT`, sent by WRREG, RDREG, RDREGS (R90, R91). -/
  | frameOut
  /-- A 32-bit conversion word on `DOUT`, sent by RDCONV (R92). -/
  | convOut
  /-- A 32-bit capture from `DINA`, received by RDCONV (R92). -/
  | convIn
  /-- A raw 16-bit word on `DOUT`, sent by SHIFT16 (R93). -/
  | raw16Out
  /-- A raw 32-bit word on `DOUT`, sent by SHIFT32 (R93). -/
  | raw32Out
  deriving DecidableEq, Repr

end Sys2Proof
end

