-- ==== Sys2Proof/Machine/State.lean ====
section
/-! DEFINITION. The state of the block (10_state.md R20), as plain data: the seven groups of R20,
the host port's index registers (R42), and the model's own fields: the parameters, the answers of
the environment, the host's pending port activity, and the two observation records (00_scope.md
R8, R9). -/

namespace Sys2Proof.Machine

open Sys2Proof.Config

/-- The four output pins (R24). -/
inductive OutPin where
  | cs
  | clk
  | dout
  | trig
  deriving DecidableEq, Repr

/-- The three input pins (R24). -/
inductive InPin where
  | dina
  | dinb
  | busy
  deriving DecidableEq, Repr

/-- The seven pins (R24). The block writes only output pins and reads only input pins (20_memory.md
R66), which the types of the pin primitives carry. -/
inductive Pin where
  | output (p : OutPin)
  | input (p : InPin)
  deriving DecidableEq, Repr

/-- A direction given to `PinDir` (00_scope.md R13). -/
inductive Direction where
  | inward
  | outward
  deriving DecidableEq, Repr

/-- `DIR.p`: the direction last set, or `unset` (R26). -/
inductive DirState where
  | unset
  | set (d : Direction)
  deriving DecidableEq, Repr

/-- One pin event: a pin primitive with its arguments and, for a question, the answer (R13). -/
inductive PinEvent where
  /-- `PinInit()`, answered ready (`true`) or fail (`false`). -/
  | init (ready : Bool)
  /-- `PinTerm()`. -/
  | term
  /-- `PinDir(p, d)`. -/
  | dir (p : Pin) (d : Direction)
  /-- `PinWrite(p, b)`. -/
  | write (p : OutPin) (b : Level)
  /-- `PinRead(p)`, answered `b`. -/
  | read (p : InPin) (b : Level)
  deriving DecidableEq, Repr

/-- `CFG`, the Device Handle (R22). -/
structure Cfg where
  isOpen : Bool
  bus : BitVec 1
  dev : BitVec 2
  dual : Bool
  diag : Bool
  deriving DecidableEq, Repr

/-- `OUT.p`: the level last written to each output pin (R26). -/
structure OutLatches where
  cs : Level
  clk : Level
  dout : Level
  trig : Level
  deriving DecidableEq, Repr

/-- `DIR.p` of the seven pins (R26). -/
structure Directions where
  cs : DirState
  clk : DirState
  dout : DirState
  trig : DirState
  dina : DirState
  dinb : DirState
  busy : DirState
  deriving DecidableEq, Repr

/-- The host operand registers but for `LIST` (R29). -/
structure Args where
  /-- `ARG_ADDR`. -/
  addr : Word
  /-- `ARG_VALUE`. -/
  value : Word
  /-- `ARG_COUNT`. -/
  count : Word
  /-- `ARG_TX`. -/
  tx : Word
  /-- `ARG_OPEN`. -/
  opn : BitVec 5
  deriving DecidableEq, Repr

/-- The command latches (R30). `cmdHi` holds `CMD[31:8]`, which the check of R195 reads and the
spec gives no name (log entry 7). -/
structure Latches where
  /-- `OPC`. -/
  opc : BitVec 8
  /-- `CMD[31:8]` of the issued command (the model's own). -/
  cmdHi : BitVec 24
  /-- `A`. -/
  a : Word
  /-- `V`. -/
  v : Word
  /-- `CNT`. -/
  cnt : Word
  /-- `TXW`. -/
  txw : Word
  /-- `OPN`. -/
  opn : BitVec 5
  deriving DecidableEq, Repr

/-- The shift engine's scratch registers (R31, R32, R33). -/
structure Shifter where
  /-- `TXSR`. -/
  txsr : Word
  /-- `ACC_A`. -/
  accA : Word
  /-- `ACC_B`. -/
  accB : Word
  /-- `WIDTH`: 1 (`true`) for N = 32. -/
  wide : Bool
  /-- `BITIDX`. -/
  bitIdx : BitVec 5
  deriving DecidableEq, Repr

/-- `PHASE`: the next micro-step, an enumeration of 18 values (R36). -/
inductive Phase where
  | idle
  | check
  | oInit
  | oSetup
  | cTerm
  | hTrigHi
  | hTrigLo
  | hPoll
  | sLoad
  | sCsLo
  | sDout
  | sClkLo
  | sSampleA
  | sSampleB
  | sClkHi
  | sCsHi
  | wDone
  | finish
  deriving DecidableEq, Repr

/-- A record of `RES` (R37). -/
structure ResRec where
  a : Word
  b : Word
  deriving DecidableEq, Repr

/-- The environment's answers to one question: those already decided, oldest first, and how many
free answers have been drawn after them (the model's own; log entry 2). -/
structure Answers where
  script : List Bool
  drawn : Nat
  deriving DecidableEq, Repr

/-- The environment's answers, one stream for each question (00_scope.md R8; the model's own). -/
structure Env where
  init : Answers
  dina : Answers
  dinb : Answers
  busy : Answers
  deriving DecidableEq, Repr

/-- What reaches the block from outside between two micro-steps, and the engine's own turns among
them (00_scope.md R8, 20_memory.md R80, 70_reset_and_hazards.md R221; the model's own schedule,
log entry 1). -/
inductive Input where
  /-- The engine takes one micro-step before the next input. -/
  | turn
  /-- The host writes a host register. -/
  | write (offset value : Word)
  /-- The host reads a host register. -/
  | read (offset : Word)
  /-- `RESET` is asserted and released. -/
  | reset
  /-- A second host, or another user of the pins (60_exceptions.md R206). -/
  | secondAgent
  deriving DecidableEq, Repr

/-- The state of the machine. -/
structure State where
  /-- `CFG` (R22). -/
  cfg : Cfg
  /-- `OUT` (R26). -/
  out : OutLatches
  /-- `DIR` (R26). -/
  dir : Directions
  /-- The host operand registers (R29). -/
  args : Args
  /-- `LIST`, `LIST_MAX` entries (R29). -/
  list : List Word
  /-- `RESIDX` (R42). -/
  resIdx : Word
  /-- `LISTIDX` (R42). -/
  listIdx : Word
  /-- The command latches (R30). -/
  lat : Latches
  /-- The shift engine's scratch (R31 to R33). -/
  sh : Shifter
  /-- `PHASE` (R36). -/
  phase : Phase
  /-- `WORDIDX`, 32 bits (R34). -/
  wordIdx : Word
  /-- `OSTEP`, 0..10 (R34). -/
  ostep : Fin 11
  /-- `RES` (R37). -/
  res : List ResRec
  /-- `ERR` (R38). -/
  err : BitVec 3
  /-- `RUN` (R35). -/
  run : Bool
  /-- The parameters of R7; no step writes them (the model's own; log entry 4). -/
  params : Params
  /-- The environment's answers (the model's own; log entry 2). -/
  env : Env
  /-- The pending port activity and the engine's turns, oldest first (the model's own; log
  entry 1). When it is empty the engine runs on undisturbed. -/
  inputs : List Input
  /-- The pin event trace, oldest first (00_scope.md R9; the model's own record). -/
  trace : List PinEvent
  /-- What the host has read, oldest first: offset and value (R43; the model's own record). -/
  reads : List (Word × Word)
  deriving DecidableEq, Repr

/-- Why the machine stops with a fault: no reason exists. The spec's errors are values of `ERR`
(60_exceptions.md R190, R191) and a hang is a run without end (R198), so no step faults. The one
stall the spec names without representing it, a pin call that never returns (93 U9), is left out
as 90_conflicts.md C6 says. -/
inductive Fault : Type
  deriving DecidableEq, Repr

/-- Why a step has no meaning. -/
inductive Refusal where
  /-- Raised by an arm of `exec` for an instruction with no meaning yet: safe. No arm raises it. -/
  | notModelled (mnemonic : String)
  /-- Raised by `step` when a second host or another user of the pins acts (60_exceptions.md R206,
  93 U10 `refuse`): safe, the spec gives such a configuration no meaning. -/
  | secondAgent
  deriving DecidableEq, Repr

/-- The state `RESET` leaves, for given parameters (R44): scratch registers, which R44 leaves
unspecified, at zero (DESIGN CHOICE, log entry 3). -/
def State.resetWith (p : Params) : State where
  cfg := { isOpen := false, bus := 0#1, dev := 0#2, dual := false, diag := false }
  out := { cs := true, clk := true, dout := false, trig := false }
  dir := { cs := .unset, clk := .unset, dout := .unset, trig := .unset,
           dina := .unset, dinb := .unset, busy := .unset }
  args := { addr := 0#32, value := 0#32, count := 0#32, tx := 0#32, opn := 0#5 }
  list := List.replicate p.listMax 0#32
  resIdx := 0#32
  listIdx := 0#32
  lat := { opc := 0#8, cmdHi := 0#24, a := 0#32, v := 0#32, cnt := 0#32, txw := 0#32, opn := 0#5 }
  sh := { txsr := 0#32, accA := 0#32, accB := 0#32, wide := false, bitIdx := 0#5 }
  phase := .idle
  wordIdx := 0#32
  ostep := 0
  res := []
  err := 0#3
  run := false
  params := p
  env := { init := ⟨[], 0⟩, dina := ⟨[], 0⟩, dinb := ⟨[], 0⟩, busy := ⟨[], 0⟩ }
  inputs := []
  trace := []
  reads := []

/-- The machine right after reset, with the default parameters (R44, R220). -/
def State.reset : State := State.resetWith Params.default

end Sys2Proof.Machine
end

