-- ==== Sys2Proof/Machine/Flags.lean ====
section
/-! DEFINITION. The flags of the block and the words the host sees them in (10_state.md R38, R39,
R42): no flag is a side effect of arithmetic. Error codes are 60_exceptions.md R191's. -/

namespace Sys2Proof.Machine

/-- The errors that end a command as rejected (60 R191). -/
inductive ErrorKind where
  | config
  | init
  | state
  | illegalCommand
  deriving DecidableEq, Repr

/-- The code of an error in `ERR` (60 R191). -/
def errorCode : ErrorKind → BitVec 3
  | .config => 1#3
  | .init => 2#3
  | .state => 3#3
  | .illegalCommand => 4#3

/-- `STATUS`: `[0]` RUN, `[1]` OPEN, `[3:2]` 0, `[6:4]` ERR, `[31:7]` 0 (10 R42). -/
def statusWord (s : State) : Word :=
  (s.err ++ 0#2 ++ BitVec.ofBool s.cfg.isOpen ++ BitVec.ofBool s.run).setWidth 32

/-- `CFG`: `[0]` BUS, `[2:1]` DEV, `[3]` DUAL, `[4]` DIAG, `[5]` OPEN, `[31:6]` 0 (10 R42). -/
def cfgWord (s : State) : Word :=
  (BitVec.ofBool s.cfg.isOpen ++ BitVec.ofBool s.cfg.diag ++ BitVec.ofBool s.cfg.dual ++
    s.cfg.dev ++ s.cfg.bus).setWidth 32

/-- `PINS`: `[0]` CS, `[1]` CLK, `[2]` DOUT, `[3]` TRIG, `[31:4]` 0 (10 R42). -/
def pinsWord (s : State) : Word :=
  (BitVec.ofBool s.out.trig ++ BitVec.ofBool s.out.dout ++ BitVec.ofBool s.out.clk ++
    BitVec.ofBool s.out.cs).setWidth 32

/-- The idle pin state: CS = 1, CLK = 1, DOUT = 0, TRIG = 0 (10 R27). -/
def idlePins : OutLatches := { cs := true, clk := true, dout := false, trig := false }

end Sys2Proof.Machine
end

