-- ==== Sys2Proof/WellFormed.lean ====
section
/-! DEFINITION. Which instructions are well formed: the commands, the raw words and the conversion
words always are; a register frame is one the block itself can form (30_encoding.md R105). -/

namespace Sys2Proof

/-- The address fields a valid address masks to: 2..7, 32..63, and 0 for address 64 alone
(30_encoding.md R94, R105). Fields 1 and 8..31 are never produced. -/
def producedField (a : BitVec 6) : Bool :=
  decide (a.toNat = 0) || (decide (2 ≤ a.toNat) && decide (a.toNat ≤ 7)) || decide (32 ≤ a.toNat)

/-- Widths are carried by the types; the one further check is R105's on the address field of a
frame. A frame outside it reaches the wire only as a raw word (R93). -/
def Instr.wellFormed : Instr → Bool
  | .openHandle => true
  | .closeHandle => true
  | .setDiag => true
  | .shift16 => true
  | .shift32 => true
  | .wrReg => true
  | .rdReg => true
  | .rdRegs => true
  | .rdConv => true
  | .frame16Write a _ => producedField a
  | .frame16Read a => producedField a
  | .word32Out => true
  | .word32In _ _ => true
  | .raw16 _ => true
  | .raw32 _ => true

end Sys2Proof
end

