-- ==== Sys2Proof/Decode.lean ====
section
/-! DEFINITION. The decoder, one per space of the opcode table, total on every word and rejecting
by name; then the encoder, written from the same tables (30_encoding.md R90 to R93, R100, R103,
R104). The decoder reads masks and matches, the encoder assembles fields. -/

namespace Sys2Proof

/-- Why a word is no instruction of its space. -/
inductive DecodeError where
  /-- A `CMD` value that is none of the nine codes, bits 31:8 included (R104). -/
  | illegalCommand
  /-- A frame with `W = 0` and a non-zero `DATA` field, which no command forms (R105). -/
  | readFrameWithData
  /-- A conversion word on `DOUT` that is not all zero (R92). -/
  | conversionWordNotZero
  deriving DecidableEq, Repr

/-- One command row of the opcode table: the 32-bit match under the full mask `0xFFFFFFFF`. -/
structure CmdRow where
  pattern : Word
  instr : Instr
  deriving DecidableEq, Repr

/-- The nine command rows of the opcode table (R100). -/
def cmdRows : List CmdRow :=
  [⟨0x00000001#32, .openHandle⟩, ⟨0x00000002#32, .closeHandle⟩, ⟨0x00000003#32, .setDiag⟩,
   ⟨0x00000010#32, .shift16⟩, ⟨0x00000011#32, .shift32⟩,
   ⟨0x00000020#32, .wrReg⟩, ⟨0x00000021#32, .rdReg⟩, ⟨0x00000022#32, .rdRegs⟩,
   ⟨0x00000023#32, .rdConv⟩]

/-- The command a `CMD` value names: the row whose pattern is the whole 32-bit value (R103). -/
def decodeCmd (w : Word) : Except DecodeError Instr :=
  match cmdRows.find? (fun r => decide (w = r.pattern)) with
  | some r => .ok r.instr
  | none => .error .illegalCommand

/-- The address field of a frame, bits 14:9 (R90, R91). -/
def frameAddr (f : BitVec 16) : BitVec 6 := f.extractLsb' 9 6

/-- The data field of a frame, bits 8:0 (R90). -/
def frameData (f : BitVec 16) : BitVec 9 := f.extractLsb' 0 9

/-- The register frame a 16-bit word is: bit 15 tells write from read, and a read frame has a
zero `DATA` field (R90, R91, R105). -/
def decodeFrame (f : BitVec 16) : Except DecodeError Instr :=
  if f &&& 0x8000#16 = 0x8000#16 then .ok (.frame16Write (frameAddr f) (frameData f))
  else if f &&& 0x81FF#16 = 0x0000#16 then .ok (.frame16Read (frameAddr f))
  else .error .readFrameWithData

/-- The conversion word sent on `DOUT` is all zero (R92). -/
def decodeConvOut (w : Word) : Except DecodeError Instr :=
  if w = 0#32 then .ok .word32Out else .error .conversionWordNotZero

/-- The decoder of every space; a 16-bit space reads the low 16 bits of the word it is given. -/
def decodeIn : Space → Word → Except DecodeError Instr
  | .hostCmd, w => decodeCmd w
  | .frameOut, w => decodeFrame (w.setWidth 16)
  | .convOut, w => decodeConvOut w
  | .convIn, w => .ok (.word32In (w.extractLsb' 16 16) (w.extractLsb' 0 16))
  | .raw16Out, w => .ok (.raw16 (w.setWidth 16))
  | .raw32Out, w => .ok (.raw32 w)

/-- The instruction read from a table row's bits when only the bits are given, with no space
(log entry 6): 16 bits are a frame, else a raw word; 32 bits are a command, else the all-zero
conversion word, else a conversion capture. -/
def decodeTableWord (nbits w : Nat) : Option Instr :=
  if nbits = 16 then
    match decodeIn .frameOut (BitVec.ofNat 32 w) with
    | .ok i => some i
    | .error _ => (decodeIn .raw16Out (BitVec.ofNat 32 w)).toOption
  else if nbits = 32 then
    match decodeIn .hostCmd (BitVec.ofNat 32 w) with
    | .ok i => some i
    | .error _ =>
      match decodeIn .convOut (BitVec.ofNat 32 w) with
      | .ok i => some i
      | .error _ => (decodeIn .convIn (BitVec.ofNat 32 w)).toOption
  else none

/-! The encoder. -/

/-- The space an instruction's word stands in (the rows' `space`, R109). -/
def Instr.space : Instr → Space
  | .openHandle => .hostCmd
  | .closeHandle => .hostCmd
  | .setDiag => .hostCmd
  | .shift16 => .hostCmd
  | .shift32 => .hostCmd
  | .wrReg => .hostCmd
  | .rdReg => .hostCmd
  | .rdRegs => .hostCmd
  | .rdConv => .hostCmd
  | .frame16Write _ _ => .frameOut
  | .frame16Read _ => .frameOut
  | .word32Out => .convOut
  | .word32In _ _ => .convIn
  | .raw16 _ => .raw16Out
  | .raw32 _ => .raw32Out

/-- A frame's 16 bits from its fields: `{W, ADDR, DATA}` (R90, R91). -/
def frameBits (w : Bool) (addr : BitVec 6) (data : BitVec 9) : BitVec 16 :=
  ((BitVec.ofBool w).setWidth 16 <<< 15) ||| (addr.setWidth 16 <<< 9) ||| data.setWidth 16

/-- The word of an instruction, widened to 32 bits with zeros (R100, R90 to R93). -/
def Instr.encode : Instr → Word
  | .openHandle => 0x01#32
  | .closeHandle => 0x02#32
  | .setDiag => 0x03#32
  | .shift16 => 0x10#32
  | .shift32 => 0x11#32
  | .wrReg => 0x20#32
  | .rdReg => 0x21#32
  | .rdRegs => 0x22#32
  | .rdConv => 0x23#32
  | .frame16Write a d => (frameBits true a d).setWidth 32
  | .frame16Read a => (frameBits false a 0#9).setWidth 32
  | .word32Out => 0#32
  | .word32In b a => b ++ a
  | .raw16 t => t.setWidth 32
  | .raw32 t => t

/-- How many bits an instruction's word has: one length per space (R106). -/
def Space.nbits : Space → Nat
  | .hostCmd => 32
  | .frameOut => 16
  | .convOut => 32
  | .convIn => 32
  | .raw16Out => 16
  | .raw32Out => 32

end Sys2Proof
end

