-- ==== Sys2Proof/Machine/Operands.lean ====
section
/-! DEFINITION. Operand forms and the arithmetic of the framer, which is all there is (42 R167):
the accumulator's shift, the address test, the field selections, the frames, and the packing of a
conversion word. -/

namespace Sys2Proof.Machine

open Sys2Proof.Config

/-- `ACC <- {ACC[30:0], b}` (10_state.md R32). -/
def shiftIn (acc : Word) (b : Level) : Word := acc.extractLsb' 0 31 ++ BitVec.ofBool b

/-- `N`, the number of bits of a word, from `WIDTH` (10_state.md R33). -/
def bitCount (wide : Bool) : Nat := if wide then 32 else 16

/-- The first bit position of a word, `N - 1` (41_transport.md R131). -/
def topBit (wide : Bool) : BitVec 5 := if wide then 31#5 else 15#5

/-- `valid(A)`: `(2 ≤ A ≤ 7) or (32 ≤ A ≤ 64)`, unsigned, on the full 32 bits (20_memory.md R62,
42 R154). -/
def validAddr (a : Word) : Bool :=
  (decide (2 ≤ a.toNat) && decide (a.toNat ≤ 7)) || (decide (32 ≤ a.toNat) && decide (a.toNat ≤ 64))

/-- The write frame by the source's formula `((A & 0x3F) | 0x40) << 9 | (V & 0x1FF)` (30 R90,
R96). -/
def writeFrame (a v : Word) : BitVec 16 :=
  ((((a &&& addrMask) ||| writeBit) <<< addrShift) ||| (v &&& valueMask)).setWidth 16

/-- The read frame by the source's formula `(A & 0x3F) << 9` (30 R91, R96). -/
def readFrame (a : Word) : BitVec 16 := ((a &&& addrMask) <<< addrShift).setWidth 16

/-- A 16-bit capture, widened with zeros: `zext_32(ACC[15:0])` (30 R98, 41 R139). -/
def capture16 (acc : Word) : Word := (acc.extractLsb' 0 16).setWidth 32

/-- `OPN[0]`: the bus operand of OPEN (40 R120). -/
def opnBus (o : BitVec 5) : BitVec 1 := o.extractLsb' 0 1

/-- `OPN[2:1]`: the device operand of OPEN (40 R120). -/
def opnDev (o : BitVec 5) : BitVec 2 := o.extractLsb' 1 2

/-- `OPN[3]`: the two-wire operand of OPEN (40 R120). -/
def opnDual (o : BitVec 5) : Bool := o.getLsbD 3

/-- `OPN[4]`: the diagnostics operand of OPEN and SETDIAG (40 R120, R124). -/
def opnDiag (o : BitVec 5) : Bool := o.getLsbD 4

/-- The legal bus and device pairs: (0,0), (0,1), (1,0), (1,1), (1,2) (40 R126). -/
def legalPair (bus : BitVec 1) (dev : BitVec 2) : Bool :=
  (decide (bus = 0#1) && decide (dev.toNat ≤ 1)) || (decide (bus = 1#1) && decide (dev.toNat ≤ 2))

/-- `LIST[k]`; an index past the list reads 0, which no well-formed state asks for (10 R29). -/
def listAt (l : List Word) (k : Nat) : Word := l.getD k 0#32

/-- Every address of `LIST[0 .. n-1]` is valid (42 R160). -/
def allValid (l : List Word) (n : Nat) : Bool := (List.range n).all (fun k => validAddr (listAt l k))

/-- The sideA half of a conversion word, `c[15:0]` (20_memory.md R69). -/
def sideA (c : Word) : BitVec 16 := c.extractLsb' 0 16

/-- The sideB half of a conversion word, `c[31:16]` (20_memory.md R69). -/
def sideB (c : Word) : BitVec 16 := c.extractLsb' 16 16

end Sys2Proof.Machine
end

