-- ==== Sys2Proof/Machine/Ops.lean ====
section
/-! DEFINITION. The named operations over the state: the five pin primitives (00_scope.md R13),
the issue and the end of a command (30_encoding.md R101, R102), the rejection of a command, which
is this block's way of taking an exception (60_exceptions.md R190), and RESET
(70_reset_and_hazards.md R220, R221). Every read and write of a pin goes through here. -/

namespace Sys2Proof.Machine

open Sys2Proof.Config

/-! The schedule. -/

/-- An input is due now: the engine may not go on before it (log entry 1). -/
def State.inputDue (s : State) : Bool :=
  match s.inputs with
  | [] => false
  | .turn :: _ => false
  | _ :: _ => true

/-- The engine takes its turn: one `turn` of the schedule is used up, if one stands first. -/
def State.takeTurn (s : State) : State :=
  match s.inputs with
  | .turn :: rest => { s with inputs := rest }
  | _ => s

/-- `PHASE <- p` (00_scope.md R12). -/
def State.goto (s : State) (p : Phase) : State := { s with phase := p }

/-! The environment's answers. -/

/-- The `n`-th coming answer of a stream: a listed one, or a free value (93 U1, U2). -/
def Answers.nth (src : Source) (q : Answers) (n : Nat) : Bool :=
  if h : n < q.script.length then q.script[n] else freeAnswer src (q.drawn + (n - q.script.length))

/-- The stream after one answer has been taken. -/
def Answers.drop1 (q : Answers) : Answers :=
  match q.script with
  | _ :: rest => { q with script := rest }
  | [] => { q with drawn := q.drawn + 1 }

/-- The level an input pin will answer its `n`-th coming read with, counting from 0 (00_scope.md
R8). -/
def State.comingLevel (s : State) (p : InPin) (n : Nat) : Level :=
  match p with
  | .dina => s.env.dina.nth .dina n
  | .dinb => s.env.dinb.nth .dinb n
  | .busy => s.env.busy.nth .busy n

/-- The level an input pin will answer its next read with. -/
def State.nextLevel (s : State) (p : InPin) : Level := s.comingLevel p 0

/-- The environment after an input pin has been read once. -/
def Env.afterRead (e : Env) : InPin → Env
  | .dina => { e with dina := e.dina.drop1 }
  | .dinb => { e with dinb := e.dinb.drop1 }
  | .busy => { e with busy := e.busy.drop1 }

/-- The next answer of `PinInit`: ready or fail (93 U2). -/
def State.nextReady (s : State) : Bool := s.env.init.nth .init 0

/-! The pin primitives (00_scope.md R13). Each is one pin event, performed in order (20 R74), also
when it changes no level (R14). -/

/-- Append one pin event to the trace. -/
def State.record (s : State) (e : PinEvent) : State := { s with trace := s.trace ++ [e] }

/-- The latches after `PinWrite(p, b)`. -/
def OutLatches.put (o : OutLatches) (b : Level) : OutPin → OutLatches
  | .cs => { o with cs := b }
  | .clk => { o with clk := b }
  | .dout => { o with dout := b }
  | .trig => { o with trig := b }

/-- `OUT.p` (10 R26). -/
def OutLatches.get (o : OutLatches) : OutPin → Level
  | .cs => o.cs
  | .clk => o.clk
  | .dout => o.dout
  | .trig => o.trig

/-- The directions after `PinDir(p, d)`. -/
def Directions.put (t : Directions) (d : Direction) : Pin → Directions
  | .output .cs => { t with cs := .set d }
  | .output .clk => { t with clk := .set d }
  | .output .dout => { t with dout := .set d }
  | .output .trig => { t with trig := .set d }
  | .input .dina => { t with dina := .set d }
  | .input .dinb => { t with dinb := .set d }
  | .input .busy => { t with busy := .set d }

/-- `DIR.p` (10 R26). -/
def Directions.get (t : Directions) : Pin → DirState
  | .output .cs => t.cs
  | .output .clk => t.clk
  | .output .dout => t.dout
  | .output .trig => t.trig
  | .input .dina => t.dina
  | .input .dinb => t.dinb
  | .input .busy => t.busy

/-- All seven directions `unset`: after reset and after CLOSE (10 R26, 40 R122). -/
def Directions.allUnset : Directions :=
  { cs := .unset, clk := .unset, dout := .unset, trig := .unset,
    dina := .unset, dinb := .unset, busy := .unset }

/-- `PinInit()`, answered by the environment. -/
def State.pinInit (s : State) : State :=
  { s with env := { s.env with init := s.env.init.drop1 }, trace := s.trace ++ [.init s.nextReady] }

/-- `PinTerm()`. -/
def State.pinTerm (s : State) : State := s.record .term

/-- `PinDir(p, d)`; also `DIR.p <- d`. -/
def State.pinDir (s : State) (p : Pin) (d : Direction) : State :=
  { s with dir := s.dir.put d p, trace := s.trace ++ [.dir p d] }

/-- `PinWrite(p, b)`; also `OUT.p <- b`. -/
def State.pinWrite (s : State) (p : OutPin) (b : Level) : State :=
  { s with out := s.out.put b p, trace := s.trace ++ [.write p b] }

/-- `PinRead(p)`: the event and the answer used up; the level read is `s.nextLevel p`. -/
def State.pinRead (s : State) (p : InPin) : State :=
  { s with env := s.env.afterRead p, trace := s.trace ++ [.read p (s.nextLevel p)] }

/-- The level the block drives on an output pin, or none when it does not drive it: then the level
is the environment's (10 R26, R45; 93 U8). -/
def State.drivenLevel (s : State) (p : OutPin) : Option Level :=
  if s.dir.get (.output p) = .set .outward then some (s.out.get p) else none

/-- The bus and device whose pins the block uses: the operands of OPEN while it sets the pins up,
before they are committed (40 R120), else those of the handle (10 R22). -/
def State.selected (s : State) : BitVec 1 × BitVec 2 :=
  if s.phase = .oSetup then (opnBus s.lat.opn, opnDev s.lat.opn) else (s.cfg.bus, s.cfg.dev)

/-- The physical pin id behind a name, for a bus and a device: `PINMAP` for the five pins a handle
selects, `PIN_TRIG` and `PIN_BUSY` for the other two (20 R66; log entry 5). -/
def roleId (bus : BitVec 1) (dev : BitVec 2) : Pin → Nat
  | .output .cs => (pinMap bus dev).cs
  | .output .clk => (pinMap bus dev).clk
  | .output .dout => (pinMap bus dev).dout
  | .output .trig => pinTrig
  | .input .dina => (pinMap bus dev).dina
  | .input .dinb => (pinMap bus dev).dinb
  | .input .busy => pinBusy

/-- The physical pin id a pin event at this state goes to (20 R66, 40 R120). No rule reads it. -/
def State.pinId (s : State) (p : Pin) : Nat := roleId s.selected.1 s.selected.2 p

/-! Issue, rejection, end, reset. -/

/-- The latches a command word loads at issue (10 R30). -/
def latched (w : Word) (g : Args) : Latches :=
  { opc := w.extractLsb' 0 8, cmdHi := w.extractLsb' 8 24,
    a := g.addr, v := g.value, cnt := g.count, txw := g.tx, opn := g.opn }

/-- The command word in the latches: `CMD[31:8]` and `OPC` (30 R103). -/
def Latches.cmdWord (l : Latches) : Word := l.cmdHi ++ l.opc

/-- Issue, in one step (30 R101): `RUN <- 1`, `ERR <- 0`, `RES <- []`, latches loaded, `CHECK`. -/
def State.issue (s : State) (w : Word) : State :=
  { s with run := true, err := 0#3, res := [], lat := latched w s.args, phase := .check }

/-- TAKING AN EXCEPTION on this block: `raise E` (60 R190). `ERR <- code(E)`, `RES <- []`,
`PHASE <- FINISH`; no pin event, nothing else changed. Nothing is saved, no mode changes (60
R202). -/
def State.reject (s : State) (e : ErrorKind) : State :=
  { s with err := errorCode e, res := [], phase := .finish }

/-- THE RETURN beside it, for a rejected and for a complete command alike: phase `FINISH`,
`RUN <- 0`, `PHASE <- IDLE` (30 R102). -/
def State.finish (s : State) : State := { s with run := false, phase := .idle }

/-- Append a result record (10 R37). -/
def State.deliver (s : State) (a b : Word) : State := { s with res := s.res ++ [⟨a, b⟩] }

/-- `RESET`: every piece of the block's state at R44's value, no pin event (70 R220, R221). The
parameters, the environment, the pending inputs and the observation records are not the block's
state and stay. -/
def State.resetBlock (s : State) : State :=
  { State.resetWith s.params with
    env := s.env, inputs := s.inputs, trace := s.trace, reads := s.reads }

end Sys2Proof.Machine
end

