-- ==== Sys2Proof/Machine/Engine.lean ====
section
/-! DEFINITION. The engine: one function for the micro-step of each `PHASE` (10_state.md R36), each
performing at most one pin event, and the loop that runs micro-steps until the command has ended,
an input is due, or a poll has found the chip busy. What a command does of its own (its checks,
the word it sends, what becomes of a capture) is its `Plan`; the phases are shared. -/

namespace Sys2Proof.Machine

/-- What a command adds to the shared phases. -/
structure Plan where
  /-- Phase `CHECK` (60 R196). -/
  check : State → State
  /-- Where `H_POLL` goes once `BUSY` reads idle (42 R151). -/
  afterPoll : State → State
  /-- What `S_LOAD` loads: the width (`true` is 32) and the word (41 R131). -/
  word : State → Bool × Word
  /-- Phase `W_DONE` (42 R165, 41 R141). -/
  done : State → State

/-- The plan with no command in it: it goes straight to the end. The commands' plans change the
parts they have. -/
def Plan.none : Plan where
  check := fun s => s.goto .finish
  afterPoll := fun s => s.goto .sLoad
  word := fun _ => (false, 0#32)
  done := fun s => s.goto .finish

/-! The phases of OPEN and CLOSE. -/

/-- The pin set-up sequence of OPEN, step `k` (40 R120): direction and level of the outputs, then
the inputs; step 9 only in two-wire mode. -/
def setupEvent (k : Nat) (dual : Bool) (s : State) : State :=
  match k with
  | 0 => s.pinDir (.output .cs) .outward
  | 1 => s.pinWrite .cs true
  | 2 => s.pinDir (.output .clk) .outward
  | 3 => s.pinWrite .clk true
  | 4 => s.pinDir (.output .dout) .outward
  | 5 => s.pinWrite .dout false
  | 6 => s.pinDir (.output .trig) .outward
  | 7 => s.pinWrite .trig false
  | 8 => s.pinDir (.input .dina) .inward
  | 9 => if dual then s.pinDir (.input .dinb) .inward else s
  | _ => s.pinDir (.input .busy) .inward

/-- The handle OPEN commits, all five fields together (40 R120). -/
def openedCfg (o : BitVec 5) : Cfg :=
  { isOpen := true, bus := opnBus o, dev := opnDev o, dual := opnDual o, diag := opnDiag o }

/-- Phase `O_INIT`: `PinInit()`, then `InitError` or the set-up (40 R120, R121). -/
def phaseInit (s : State) : State :=
  if s.nextReady then { s.pinInit with ostep := 0, phase := .oSetup } else s.pinInit.reject .init

/-- Phase `O_SETUP`: set-up event number `OSTEP`; after the last, commit `CFG` (40 R120). -/
def phaseSetup (s : State) : State :=
  if s.ostep.val = 10 then
    { setupEvent 10 (opnDual s.lat.opn) s with cfg := openedCfg s.lat.opn, phase := .finish }
  else
    { setupEvent s.ostep.val (opnDual s.lat.opn) s with ostep := s.ostep + 1 }

/-- Phase `C_TERM`: `PinTerm()`, `CFG.OPEN <- 0`, every `DIR.p <- unset` (40 R122). -/
def phaseTerm (s : State) : State :=
  { s.pinTerm with cfg := { s.cfg with isOpen := false }, dir := Directions.allUnset,
                   phase := .finish }

/-! The phases of the handshake and of `ShiftWord`. -/

/-- Phase `H_POLL`: one `PinRead(BUSY)`; on the idle level the handshake is over, else the phase
stays (42 R151). -/
def phasePoll (after : State → State) (s : State) : State :=
  if s.nextLevel .busy = s.params.busyIdle then after (s.pinRead .busy) else s.pinRead .busy

/-- Phase `S_LOAD`: `WIDTH`, `TXSR`, `ACC_A`, `ACC_B`, `BITIDX` (41 R131, 10 R36). -/
def phaseLoad (wide : Bool) (w : Word) (s : State) : State :=
  { s with sh := { txsr := w, accA := 0#32, accB := 0#32, wide := wide, bitIdx := topBit wide },
           phase := .sCsLo }

/-- Phase `S_SAMPLE_A`: `PinRead(DINA)` into `ACC_A`; then `S_SAMPLE_B` only in two-wire mode (41
R131, R132). -/
def phaseSampleA (s : State) : State :=
  { s.pinRead .dina with
    sh := { s.sh with accA := shiftIn s.sh.accA (s.nextLevel .dina) },
    phase := if s.cfg.dual then .sSampleB else .sClkHi }

/-- Phase `S_SAMPLE_B`: `PinRead(DINB)` into `ACC_B` (41 R131). -/
def phaseSampleB (s : State) : State :=
  { s.pinRead .dinb with
    sh := { s.sh with accB := shiftIn s.sh.accB (s.nextLevel .dinb) },
    phase := .sClkHi }

/-- Phase `S_CLK_HI`: clock high; the next bit, or the end of the word (41 R132). -/
def phaseClkHi (s : State) : State :=
  if s.sh.bitIdx = 0#5 then (s.pinWrite .clk true).goto .sCsHi
  else { s.pinWrite .clk true with sh := { s.sh with bitIdx := s.sh.bitIdx - 1#5 },
                                   phase := .sDout }

/-- The micro-step of a phase, the engine's turn already taken (10 R36). -/
def phaseStep (p : Plan) (s : State) : State :=
  match s.phase with
  | .idle => s
  | .check => p.check s
  | .oInit => phaseInit s
  | .oSetup => phaseSetup s
  | .cTerm => phaseTerm s
  | .hTrigHi => (s.pinWrite .trig true).goto .hTrigLo
  | .hTrigLo => (s.pinWrite .trig false).goto .hPoll
  | .hPoll => phasePoll p.afterPoll s
  | .sLoad => phaseLoad (p.word s).1 (p.word s).2 s
  | .sCsLo => (s.pinWrite .cs false).goto .sDout
  | .sDout => (s.pinWrite .dout (s.sh.txsr.getLsbD s.sh.bitIdx.toNat)).goto .sClkLo
  | .sClkLo => (s.pinWrite .clk false).goto .sSampleA
  | .sSampleA => phaseSampleA s
  | .sSampleB => phaseSampleB s
  | .sClkHi => phaseClkHi s
  | .sCsHi => (s.pinWrite .cs true).goto .wDone
  | .wDone => p.done s
  | .finish => s.finish

/-- One micro-step: the engine takes its turn and performs its phase. -/
def microStep (p : Plan) (s : State) : State := phaseStep p s.takeTurn

/-- At most `n` micro-steps, ending before an input that is due, where `stop` holds, or after a
poll that found the chip busy: the short yield between polls (42 R150, R152). Ending early loses
nothing: the next step goes on from the phase reached (log entry 1). -/
def runEngine (stop : State → Bool) (p : Plan) : Nat → State → State
  | 0, s => s
  | n + 1, s =>
    if s.inputDue || stop s then s
    else if decide (s.phase = .hPoll) && decide ((microStep p s).phase = .hPoll) then microStep p s
    else runEngine stop p n (microStep p s)

/-- A command runs until the block is idle again. -/
def atIdle (s : State) : Bool := decide (s.phase = .idle)

/-- A word runs until its capture is to be disposed of. -/
def atWordDone (s : State) : Bool := decide (s.phase = .wDone)

/-- More micro-steps than a command can take without a busy poll: a word takes at most
`5 * 32 + 4`, and no command shifts more than `2 * CNT + 2` of them (41 R132, 42 R165). -/
def commandFuel (s : State) : Nat := 400 * (s.lat.cnt.toNat + 1)

/-- More micro-steps than a word takes (41 R132). -/
def wordFuel : Nat := 200

/-- The state a command goes on from: issued if none runs (30 R101), else as it stands. -/
def State.begin (s : State) (w : Word) : State := if s.run then s else s.issue w

/-- A command by its plan and its command word, from issue, or from the phase it has reached. -/
def runCommand (p : Plan) (w : Word) (s : State) : Host.Outcome State Fault Refusal :=
  .next (runEngine atIdle p (commandFuel (s.begin w)) (s.begin w))

/-- `ShiftWord` of one word on the wire, up to its `W_DONE` (41 R131, R132). -/
def transmit (wide : Bool) (w : Word) (s : State) : Host.Outcome State Fault Refusal :=
  .next (runEngine atWordDone { Plan.none with word := fun _ => (wide, w) } wordFuel
    (s.goto .sLoad))

/-- The disposal of one captured word: the single micro-step `W_DONE` (41 R132, 42 R165). -/
def takeIn (done : State → State) (s : State) : Host.Outcome State Fault Refusal :=
  .next (runEngine (fun _ => false) { Plan.none with done := done } 1 (s.goto .wDone))

end Sys2Proof.Machine
end

