-- ==== Sys2Proof/Machine/Framer.lean ====
section
/-! DEFINITION. The Register Protocol Engine: WRREG, RDREG, RDREGS, RDCONV, and the words they put
on the wire or take from it (42_register_protocol.md, 30_encoding.md R90 to R92). -/

namespace Sys2Proof.Machine

/-- The checks WRREG and RDREG share: the handle, then the address on its full 32 bits (42 R154,
60 R192, R196); then go on at `first`. -/
def checkAddr (first : Phase) (s : State) : State :=
  if s.cfg.isOpen then
    if validAddr s.lat.a then { s with wordIdx := 0#32, phase := first } else s.reject .config
  else s.reject .state

/-- WRREG: handshake, one write frame, capture discarded (42 R155, R165). -/
def wrRegPlan : Plan :=
  { Plan.none with
    check := checkAddr .hTrigHi
    word := fun s => (false, (writeFrame s.lat.a s.lat.v).setWidth 32)
    done := fun s => s.goto .finish }

/-- WRREG (42 R155). -/
def execWrReg (s : State) : Host.Outcome State Fault Refusal :=
  runCommand wrRegPlan Instr.wrReg.encode s

/-- `W_DONE` of RDREG: the first capture is discarded, the second delivered from `DINA` with
`b = 0` (42 R157, R163, R165). -/
def doneRdReg (s : State) : State :=
  if s.wordIdx = 0#32 then { s with wordIdx := 1#32, phase := .sLoad }
  else (s.deliver (capture16 s.sh.accA) 0#32).goto .finish

/-- RDREG: the same read frame twice, no handshake (42 R157, R158). -/
def rdRegPlan : Plan :=
  { Plan.none with
    check := checkAddr .sLoad
    word := fun s => (false, (readFrame s.lat.a).setWidth 32)
    done := doneRdReg }

/-- RDREG (42 R157). -/
def execRdReg (s : State) : Host.Outcome State Fault Refusal :=
  runCommand rdRegPlan Instr.rdReg.encode s

/-- The list element RDREGS is at: `LIST[WORDIDX >> 1]` (42 R165). -/
def currentAddr (s : State) : Word := listAt s.list (s.wordIdx >>> 1).toNat

/-- RDREGS goes on to the word of the current element; with `RDREGS_PRECHECK` false the element's
address is checked here (42 R160). -/
def startElement (s : State) : State :=
  if !s.params.rdregsPrecheck && !validAddr (currentAddr s) then s.reject .config
  else s.goto .sLoad

/-- CHECK of RDREGS: handle, `CNT ≤ LIST_MAX`, then with `RDREGS_PRECHECK` every address (42 R160,
60 R196); an empty list ends at once. -/
def checkRdRegs (s : State) : State :=
  if s.cfg.isOpen then
    if s.params.listMax < s.lat.cnt.toNat then s.reject .config
    else if s.params.rdregsPrecheck && !allValid s.list s.lat.cnt.toNat then s.reject .config
    else if s.lat.cnt = 0#32 then { s with wordIdx := 0#32, phase := .finish }
    else startElement { s with wordIdx := 0#32 }
  else s.reject .state

/-- `W_DONE` of RDREGS: first shift of an element discarded, second delivered; then the next word,
the next element or the end, `WORDIDX` and `2 × CNT` taken on 32 bits (42 R165, 10 R34; log entry 8). -/
def doneRdRegs (s : State) : State :=
  if s.wordIdx.getLsbD 0 = false then { s with wordIdx := s.wordIdx + 1#32, phase := .sLoad }
  else if s.wordIdx + 1#32 = 2#32 * s.lat.cnt then
    { s.deliver (capture16 s.sh.accA) 0#32 with wordIdx := s.wordIdx + 1#32, phase := .finish }
  else
    startElement { s.deliver (capture16 s.sh.accA) 0#32 with wordIdx := s.wordIdx + 1#32 }

/-- RDREGS: the read frame of each list element twice, in order (42 R160). -/
def rdRegsPlan : Plan :=
  { Plan.none with
    check := checkRdRegs
    word := fun s => (false, (readFrame (currentAddr s)).setWidth 32)
    done := doneRdRegs }

/-- RDREGS (42 R160). -/
def execRdRegs (s : State) : Host.Outcome State Fault Refusal :=
  runCommand rdRegsPlan Instr.rdRegs.encode s

/-- CHECK of RDCONV: the handle, then `CNT ≤ COUNT_MAX`; no address (42 R162, 60 R193). -/
def checkRdConv (s : State) : State :=
  if s.cfg.isOpen then
    if s.params.countMax < s.lat.cnt.toNat then s.reject .config
    else { s with wordIdx := 0#32, phase := .hTrigHi }
  else s.reject .state

/-- `W_DONE` of RDCONV for the DINA capture `c`: deliver it whole with the DINB capture, then the
next word or the end (42 R162, R163, R165). -/
def deliverConversion (c : Word) (s : State) : State :=
  if s.wordIdx + 1#32 = s.lat.cnt then
    { s.deliver c s.sh.accB with wordIdx := s.wordIdx + 1#32, phase := .finish }
  else { s.deliver c s.sh.accB with wordIdx := s.wordIdx + 1#32, phase := .sLoad }

/-- RDCONV: one handshake, then `CNT` words of 32 zero bits (42 R162); `CNT = 0` ends after the
handshake. -/
def rdConvPlan : Plan where
  check := checkRdConv
  afterPoll := fun s => if s.lat.cnt = 0#32 then s.goto .finish else s.goto .sLoad
  word := fun _ => (true, 0#32)
  done := fun s => deliverConversion s.sh.accA s

/-- RDCONV (42 R162). -/
def execRdConv (s : State) : Host.Outcome State Fault Refusal :=
  runCommand rdConvPlan Instr.rdConv.encode s

/-- FRAME16.WRITE: the write frame through the transport, bit 15 first (30 R90, 41 R131). -/
def execFrame16Write (addr : BitVec 6) (data : BitVec 9) (s : State) :
    Host.Outcome State Fault Refusal :=
  transmit false (Instr.frame16Write addr data).encode s

/-- FRAME16.READ: the read frame through the transport, bit 15 first (30 R91, 41 R131). -/
def execFrame16Read (addr : BitVec 6) (s : State) : Host.Outcome State Fault Refusal :=
  transmit false (Instr.frame16Read addr).encode s

/-- WORD32.OUT: the all-zero conversion word through the transport (30 R92, 41 R131). -/
def execWord32Out (s : State) : Host.Outcome State Fault Refusal :=
  transmit true Instr.word32Out.encode s

/-- WORD32.IN: a conversion capture taken in by RDCONV, delivered whole (30 R92, 42 R165). -/
def execWord32In (sideB sideA : BitVec 16) (s : State) : Host.Outcome State Fault Refusal :=
  takeIn (deliverConversion (Instr.word32In sideB sideA).encode) s

end Sys2Proof.Machine
end

