-- ==== Sys2Proof/Machine/Handle.lean ====
section
/-! DEFINITION. The handle commands OPEN, CLOSE, SETDIAG (40_handle.md), and the rejection of a
command word that is none of the nine (60_exceptions.md R195). -/

namespace Sys2Proof.Machine

/-- CHECK of OPEN: `StateError` when a handle is open, then `ConfigError` for an illegal pair (40
R120, R126; order 60 R196). -/
def checkOpen (s : State) : State :=
  if s.cfg.isOpen then s.reject .state
  else if legalPair (opnBus s.lat.opn) (opnDev s.lat.opn) then s.goto .oInit
  else s.reject .config

/-- OPEN: check, `PinInit`, the set-up sequence, commit (40 R120, R121). -/
def openPlan : Plan := { Plan.none with check := checkOpen }

/-- OPEN (40 R120). -/
def execOpenHandle (s : State) : Host.Outcome State Fault Refusal :=
  runCommand openPlan Instr.openHandle.encode s

/-- CHECK of CLOSE: `StateError` when no handle is open (40 R122). -/
def checkClose (s : State) : State :=
  if s.cfg.isOpen then s.goto .cTerm else s.reject .state

/-- CLOSE: check, then `PinTerm` and the release of the handle (40 R122). -/
def closePlan : Plan := { Plan.none with check := checkClose }

/-- CLOSE (40 R122). -/
def execCloseHandle (s : State) : Host.Outcome State Fault Refusal :=
  runCommand closePlan Instr.closeHandle.encode s

/-- CHECK of SETDIAG: `StateError` when no handle is open, else `CFG.DIAG <- OPN[4]`; there is no
pin event and nothing else to do (40 R124). -/
def checkSetDiag (s : State) : State :=
  if s.cfg.isOpen then
    { s with cfg := { s.cfg with diag := opnDiag s.lat.opn }, phase := .finish }
  else s.reject .state

/-- SETDIAG: all of it happens in `CHECK` (40 R124). -/
def setDiagPlan : Plan := { Plan.none with check := checkSetDiag }

/-- SETDIAG (40 R124). -/
def execSetDiag (s : State) : Host.Outcome State Fault Refusal :=
  runCommand setDiagPlan Instr.setDiag.encode s

/-- CHECK of an undefined code: `IllegalCommand`, whatever `CFG.OPEN` is (60 R195). -/
def illegalPlan : Plan := { Plan.none with check := fun s => s.reject .illegalCommand }

/-- An undefined command word, issued like any command and rejected in `CHECK` (60 R195). -/
def execIllegal (w : Word) (s : State) : Host.Outcome State Fault Refusal :=
  runCommand illegalPlan w s

end Sys2Proof.Machine
end

