-- ==== Sys2Proof/Machine/Transport.lean ====
section
/-! DEFINITION. The Bit-Serial Transport: the raw words RAW16 and RAW32 on the wire, and the
commands SHIFT16 and SHIFT32 (41_transport.md). -/

namespace Sys2Proof.Machine

/-- CHECK of SHIFT16 and SHIFT32: `StateError` when no handle is open; none other (41 R139, R140).
`WORDIDX` starts at 0 (10 R44: loaded by each command before use). -/
def checkShift (s : State) : State :=
  if s.cfg.isOpen then { s with wordIdx := 0#32, phase := .sLoad } else s.reject .state

/-- SHIFT16: one 16-bit word, `TXW[15:0]`; both captures widened with zeros (41 R139, R141). -/
def shift16Plan : Plan :=
  { Plan.none with
    check := checkShift
    word := fun s => (false, (s.lat.txw.setWidth 16).setWidth 32)
    done := fun s => (s.deliver (capture16 s.sh.accA) (capture16 s.sh.accB)).goto .finish }

/-- SHIFT16 (41 R139). -/
def execShift16 (s : State) : Host.Outcome State Fault Refusal :=
  runCommand shift16Plan Instr.shift16.encode s

/-- SHIFT32: one 32-bit word, `TXW` (41 R140, R141). -/
def shift32Plan : Plan :=
  { Plan.none with
    check := checkShift
    word := fun s => (true, s.lat.txw)
    done := fun s => (s.deliver s.sh.accA s.sh.accB).goto .finish }

/-- SHIFT32 (41 R140). -/
def execShift32 (s : State) : Host.Outcome State Fault Refusal :=
  runCommand shift32Plan Instr.shift32.encode s

/-- RAW16: sixteen raw bits through the transport, bit 15 first (30 R93, 41 R131). -/
def execRaw16 (t : BitVec 16) (s : State) : Host.Outcome State Fault Refusal :=
  transmit false (Instr.raw16 t).encode s

/-- RAW32: thirty-two raw bits through the transport, bit 31 first (30 R93, 41 R131). -/
def execRaw32 (t : BitVec 32) (s : State) : Host.Outcome State Fault Refusal :=
  transmit true (Instr.raw32 t).encode s

end Sys2Proof.Machine
end

