-- ==== Sys2Proof/Machine/Dispatch.lean ====
section
/-! DEFINITION. The dispatch: one arm per constructor of `Instr`, each one direct call of that
instruction's meaning. -/

namespace Sys2Proof.Machine

def exec (i : Instr) (s : State) : Host.Outcome State Fault Refusal :=
  match i with
  | .openHandle => Sys2Proof.Machine.execOpenHandle s
  | .closeHandle => Sys2Proof.Machine.execCloseHandle s
  | .setDiag => Sys2Proof.Machine.execSetDiag s
  | .shift16 => Sys2Proof.Machine.execShift16 s
  | .shift32 => Sys2Proof.Machine.execShift32 s
  | .wrReg => Sys2Proof.Machine.execWrReg s
  | .rdReg => Sys2Proof.Machine.execRdReg s
  | .rdRegs => Sys2Proof.Machine.execRdRegs s
  | .rdConv => Sys2Proof.Machine.execRdConv s
  | .frame16Write addr data => Sys2Proof.Machine.execFrame16Write addr data s
  | .frame16Read addr => Sys2Proof.Machine.execFrame16Read addr s
  | .word32Out => Sys2Proof.Machine.execWord32Out s
  | .word32In sideB sideA => Sys2Proof.Machine.execWord32In sideB sideA s
  | .raw16 t => Sys2Proof.Machine.execRaw16 t s
  | .raw32 t => Sys2Proof.Machine.execRaw32 t s

end Sys2Proof.Machine
end

