-- ==== Sys2Proof/Machine/HostPort.lean ====
section
/-! DEFINITION. The host port: the register map of 10_state.md R42, its access rules (R43), and the
command lines of 30_encoding.md R107 as host writes. -/

namespace Sys2Proof.Machine

/-- The fifteen host registers (10 R42). -/
inductive HostReg where
  | cmd
  | status
  | argAddr
  | argValue
  | argCount
  | argTx
  | argOpen
  | cfg
  | pins
  | resLen
  | resIdx
  | resA
  | resB
  | listIdx
  | listData
  deriving DecidableEq, Repr

/-- The register at an offset, if the table has one there (10 R42, R43). -/
def hostReg (offset : Word) : Option HostReg :=
  if offset = 0x00#32 then some .cmd
  else if offset = 0x04#32 then some .status
  else if offset = 0x08#32 then some .argAddr
  else if offset = 0x0C#32 then some .argValue
  else if offset = 0x10#32 then some .argCount
  else if offset = 0x14#32 then some .argTx
  else if offset = 0x18#32 then some .argOpen
  else if offset = 0x1C#32 then some .cfg
  else if offset = 0x20#32 then some .pins
  else if offset = 0x24#32 then some .resLen
  else if offset = 0x28#32 then some .resIdx
  else if offset = 0x2C#32 then some .resA
  else if offset = 0x30#32 then some .resB
  else if offset = 0x34#32 then some .listIdx
  else if offset = 0x38#32 then some .listData
  else none

/-- The record `RES[RESIDX]`, or zeros when the index is past the end (10 R42). -/
def indexedRes (s : State) : ResRec := s.res.getD s.resIdx.toNat ⟨0#32, 0#32⟩

/-- The value of a host register (10 R42); a write-only register reads 0 (R43). -/
def regValue (s : State) : HostReg → Word
  | .cmd => 0#32
  | .status => statusWord s
  | .argAddr => s.args.addr
  | .argValue => s.args.value
  | .argCount => s.args.count
  | .argTx => s.args.tx
  | .argOpen => s.args.opn.setWidth 32
  | .cfg => cfgWord s
  | .pins => pinsWord s
  | .resLen => BitVec.ofNat 32 s.res.length
  | .resIdx => s.resIdx
  | .resA => (indexedRes s).a
  | .resB => (indexedRes s).b
  | .listIdx => s.listIdx
  | .listData => if s.listIdx.toNat < s.params.listMax then listAt s.list s.listIdx.toNat else 0#32

/-- A host read; an offset not in the table reads 0 (10 R43). -/
def hostRead (s : State) (offset : Word) : Word :=
  match hostReg offset with
  | some r => regValue s r
  | none => 0#32

/-- What a write does to a host register other than `CMD`; a read-only register ignores it (10
R42, R43). -/
def writeReg (s : State) (v : Word) : HostReg → State
  | .cmd => s
  | .status => s
  | .argAddr => { s with args := { s.args with addr := v } }
  | .argValue => { s with args := { s.args with value := v } }
  | .argCount => { s with args := { s.args with count := v } }
  | .argTx => { s with args := { s.args with tx := v } }
  | .argOpen => { s with args := { s.args with opn := v.setWidth 5 } }
  | .cfg => s
  | .pins => s
  | .resLen => s
  | .resIdx => { s with resIdx := v }
  | .resA => s
  | .resB => s
  | .listIdx => { s with listIdx := v }
  | .listData =>
    if s.listIdx.toNat < s.params.listMax then { s with list := s.list.set s.listIdx.toNat v }
    else s

/-- A host write that is not the issue of a command, accepted only while `RUN = 0`; an offset not
in the table ignores it (10 R43, 20 R80). -/
def hostWrite (s : State) (offset v : Word) : State :=
  if s.run then s
  else match hostReg offset with
    | some r => writeReg s v r
    | none => s

/-- A host read is recorded with its value; it has no other effect (10 R43). -/
def State.answerRead (s : State) (offset : Word) : State :=
  { s with reads := s.reads ++ [(offset, hostRead s offset)] }

/-- Whether an input is the issue of a command: a write to `CMD` while `RUN = 0` (30 R101). -/
def issues (s : State) (offset : Word) : Bool := !s.run && decide (hostReg offset = some .cmd)

/-! The listing lines of 30 R107. -/

/-- One listing line: a command with its operands in the order of the source call. -/
inductive Line where
  | openHandle (bus : BitVec 1) (dev : BitVec 2) (dual diag : Bool)
  | closeHandle
  | setDiag (opn : BitVec 5)
  | shift16 (word : Word)
  | shift32 (word : Word)
  | wrReg (addr value : Word)
  | rdReg (addr : Word)
  | rdRegs (addrs : List Word)
  | rdConv (count : Word)
  deriving DecidableEq, Repr

/-- The writes that put a list into `LIST`, from index `k` on (30 R107). -/
def listWrites : Nat → List Word → List Input
  | _, [] => []
  | k, a :: rest => .write 0x34#32 (BitVec.ofNat 32 k) :: .write 0x38#32 a :: listWrites (k + 1) rest

/-- The host writes a line stands for: the operand registers, then `CMD` (30 R107). The wait for
`RUN = 0` is the engine's run after the last write. -/
def Line.writes : Line → List Input
  | .openHandle bus dev dual diag =>
    [.write 0x18#32 ((BitVec.ofBool diag ++ BitVec.ofBool dual ++ dev ++ bus).setWidth 32),
     .write 0#32 0x01#32]
  | .closeHandle => [.write 0#32 0x02#32]
  | .setDiag opn => [.write 0x18#32 (opn.setWidth 32), .write 0#32 0x03#32]
  | .shift16 w => [.write 0x14#32 w, .write 0#32 0x10#32]
  | .shift32 w => [.write 0x14#32 w, .write 0#32 0x11#32]
  | .wrReg a v => [.write 0x08#32 a, .write 0x0C#32 v, .write 0#32 0x20#32]
  | .rdReg a => [.write 0x08#32 a, .write 0#32 0x21#32]
  | .rdRegs addrs =>
    listWrites 0 addrs ++ [.write 0x10#32 (BitVec.ofNat 32 addrs.length), .write 0#32 0x22#32]
  | .rdConv n => [.write 0x10#32 n, .write 0#32 0x23#32]

end Sys2Proof.Machine
end

