-- ==== Sys2Proof/Machine/Fetch.lean ====
section
/-! DEFINITION. Which word the engine executes next. The block fetches nothing from a memory
(10_state.md R36): while a command runs, the latched command word stands for it; at `S_LOAD` of a
shifting command the word about to go on the wire, and at `W_DONE` of RDCONV the word captured,
are instructions of their own spaces (30_encoding.md R109). -/

namespace Sys2Proof.Machine

/-- The word a running command sends at `S_LOAD`, with its space (30 R100); a command that shifts
nothing is at no `S_LOAD`, and its own word stands. -/
def wireWord (s : State) : Space × Word :=
  match decodeCmd s.lat.cmdWord with
  | .ok .shift16 => (.raw16Out, (shift16Plan.word s).2)
  | .ok .shift32 => (.raw32Out, (shift32Plan.word s).2)
  | .ok .wrReg => (.frameOut, (wrRegPlan.word s).2)
  | .ok .rdReg => (.frameOut, (rdRegPlan.word s).2)
  | .ok .rdRegs => (.frameOut, (rdRegsPlan.word s).2)
  | .ok .rdConv => (.convOut, (rdConvPlan.word s).2)
  | _ => (.hostCmd, s.lat.cmdWord)

/-- The word the engine executes next while a command runs. -/
def fetch (s : State) : Space × Word :=
  if s.phase = .sLoad then wireWord s
  else if s.phase = .wDone ∧ decodeCmd s.lat.cmdWord = .ok .rdConv then (.convIn, s.sh.accA)
  else (.hostCmd, s.lat.cmdWord)

/-- The state with the word of a wire instruction placed where the engine takes it next: the
command that sends or receives it runs, at the phase that does so, with no input pending. -/
def State.placeWire (s : State) (cmd : Word) (p : Phase) (a v txw accA : Word) : State :=
  { s with run := true, phase := p, inputs := [],
           lat := { s.lat with opc := cmd.extractLsb' 0 8, cmdHi := cmd.extractLsb' 8 24,
                               a := a, v := v, txw := txw },
           sh := { s.sh with accA := accA } }

/-- The state with a command word at the head of the host's pending writes, the block idle. -/
def State.placeCmd (s : State) (w : Word) : State :=
  { s with run := false, phase := .idle, inputs := [.write 0#32 w] }

/-- The state with an instruction placed so that the very next step executes it (log entry 1). -/
def State.place (s : State) (i : Instr) : State :=
  match i with
  | .openHandle => s.placeCmd i.encode
  | .closeHandle => s.placeCmd i.encode
  | .setDiag => s.placeCmd i.encode
  | .shift16 => s.placeCmd i.encode
  | .shift32 => s.placeCmd i.encode
  | .wrReg => s.placeCmd i.encode
  | .rdReg => s.placeCmd i.encode
  | .rdRegs => s.placeCmd i.encode
  | .rdConv => s.placeCmd i.encode
  | .frame16Write a d =>
    s.placeWire 0x20#32 .sLoad (a.setWidth 32) (d.setWidth 32) s.lat.txw s.sh.accA
  | .frame16Read a => s.placeWire 0x21#32 .sLoad (a.setWidth 32) s.lat.v s.lat.txw s.sh.accA
  | .word32Out => s.placeWire 0x23#32 .sLoad s.lat.a s.lat.v s.lat.txw s.sh.accA
  | .word32In _ _ => s.placeWire 0x23#32 .wDone s.lat.a s.lat.v s.lat.txw i.encode
  | .raw16 t => s.placeWire 0x10#32 .sLoad s.lat.a s.lat.v (t.setWidth 32) s.sh.accA
  | .raw32 t => s.placeWire 0x11#32 .sLoad s.lat.a s.lat.v t s.sh.accA

end Sys2Proof.Machine
end

