-- ==== Sys2Proof/Machine/Step.lean ====
section
/-! DEFINITION. One step of the machine: the next input of the schedule, or the engine's turn
(00_scope.md R8). It only calls what the files before it define. -/

namespace Sys2Proof.Machine

/-- The command a word written to `CMD` issues, run as far as it goes; an undefined word is
rejected (30 R101, R104). -/
def runIssued (w : Word) (s : State) : Host.Outcome State Fault Refusal :=
  match decodeCmd w with
  | .ok i => exec i s
  | .error _ => execIllegal w s

/-- The engine's turn: idle, it waits (60 R209); running, it executes the word it is at. -/
def engineTurn (s : State) : Host.Outcome State Fault Refusal :=
  if s.run then
    match decodeIn (fetch s).1 (fetch s).2 with
    | .ok i => exec i s
    | .error _ => execIllegal s.lat.cmdWord s
  else .next s.takeTurn

/-- One step: the first pending input, or the engine's turn where a turn or nothing stands first.
RESET wins over a running command (70 R221), a host write is ignored while one runs (20 R80), a
write to `CMD` issues a command (30 R101), a second agent is refused (60 R206). -/
def step (s : State) : Host.Outcome State Fault Refusal :=
  match s.inputs with
  | [] => engineTurn s
  | .turn :: _ => engineTurn s
  | .reset :: rest => .next { s with inputs := rest }.resetBlock
  | .read offset :: rest => .next ({ s with inputs := rest }.answerRead offset)
  | .write offset v :: rest =>
    if issues s offset then runIssued v { s with inputs := rest }
    else .next (hostWrite { s with inputs := rest } offset v)
  | .secondAgent :: _ => .refused .secondAgent

/-- The state in which the very next step executes the instruction of a table row's bits; bits
that are no row's are presented as a word written to `CMD` (log entries 1 and 6). -/
def State.withFetchWord (s : State) (nbits w : Nat) : State :=
  match decodeTableWord nbits w with
  | some i => s.place i
  | none => s.placeCmd (BitVec.ofNat 32 w)

end Sys2Proof.Machine
end

