-- ==== Sys2Proof/Machine/Client.lean ====
section
/-! DEFINITION. The client sequences of 43_client_sequences.md: the lines a client sends, and the
calls, which send them one after another and use what the block returns. Clients are outside the
block (00_scope.md R4): nothing here adds state or behaviour to it. The constants of R170, which no
source gives, are arguments (log entry 16). -/

namespace Sys2Proof.Machine

/-- The client-side parameters of 43 R170. -/
structure ClientParams where
  /-- `STACK_BASE`. -/
  stackBase : Word
  /-- `chsel(chA, chB)`. -/
  chsel : BitVec 4 → BitVec 4 → Word
  /-- `SSREN`. -/
  ssren : Word
  /-- `CONFIG_REG`. -/
  configReg : Word
  /-- `BURST_EN`. -/
  burstEn : Word
  /-- `SEQ_EN`. -/
  seqEn : Word
  /-- `CHANNEL_REG`. -/
  channelReg : Word

/-- A pair of channels, each a 4-bit nibble (43 R171). -/
structure ChannelPair where
  chA : BitVec 4
  chB : BitVec 4
  deriving DecidableEq, Repr

/-- The WRREG lines that program the sequencer stack from entry `i` on; the last pair also sets
`SSREN` (43 R171). -/
def stackLines (c : ClientParams) : Nat → List ChannelPair → List Line
  | _, [] => []
  | i, [q] => [.wrReg (c.stackBase + BitVec.ofNat 32 i) (c.chsel q.chA q.chB ||| c.ssren)]
  | i, q :: rest =>
    .wrReg (c.stackBase + BitVec.ofNat 32 i) (c.chsel q.chA q.chB) :: stackLines c (i + 1) rest

/-- The write that ends the configuration update, `conf` the configuration register as read (43
R172). -/
def configUpdateLine (c : ClientParams) (conf : Word) : Line :=
  .wrReg c.configReg (conf ||| c.burstEn ||| c.seqEn)

/-- All the lines of `defineSequence`, `conf` the configuration register as its RDREG returns it:
one WRREG for each pair, one RDREG, one WRREG (43 R171, R172). -/
def defineSequenceLines (c : ClientParams) (pairs : List ChannelPair) (conf : Word) : List Line :=
  stackLines c 0 pairs ++ [.rdReg c.configReg, configUpdateLine c conf]

/-- The lines of `convertPair` (43 R174). -/
def convertPairLines (c : ClientParams) (q : ChannelPair) : List Line :=
  [.wrReg c.channelReg (c.chsel q.chA q.chB), .rdConv 1#32]

/-- One scheduler period for a sequence of `n` pairs: nothing when it is empty (43 R176). -/
def periodLines (n : Nat) : List Line :=
  if n = 0 then [] else [.rdConv (BitVec.ofNat 32 (2 * n))]

/-- De-interleaving of the one-wire results: all sideA codes, then all sideB codes (43 R177). In
two-wire mode no combining rule exists (93 U6 `refuse`). -/
def deinterleave (dual : Bool) (res : List ResRec) : Option (List (BitVec 16) × List (BitVec 16)) :=
  if dual then none else some (res.map fun r => sideA r.a, res.map fun r => sideB r.a)

/-! The calls. -/

/-- Why a client's call does not return. -/
inductive CallStop where
  /-- More than `SEQ_MAX` pairs: the client rejects the call and sends nothing (43 R171). -/
  | tooLong
  /-- No pair: whether the client still updates the configuration is not said (93 U18 `refuse`; log
  entry 16). Nothing is sent. -/
  | noPairs
  /-- A command has not ended after the steps waited for; the block as it stands (42 R152). -/
  | waiting (s : State)
  /-- A command was rejected, or left no result to use; the block as it stands. What the client
  does then is not said (log entry 16). -/
  | noResult (s : State)
  deriving DecidableEq, Repr

/-- One line of a client: its host writes, then the wait for `RUN = 0`, at most `patience` steps
long, then the check of `ERR` (30 R107). -/
def callLine (patience : Nat) (l : Line) (s : State) : Except CallStop State :=
  match Sys2Proof.core.run (l.writes.length + patience) { s with inputs := l.writes } with
  | .next t =>
    if State.run t then .error (.waiting t)
    else if State.err t = 0#3 then .ok t
    else .error (.noResult t)
  | .fault _ => .error (.noResult s)
  | .refused _ => .error (.noResult s)

/-- Lines sent one after another, each when the one before has ended. -/
def callLines (patience : Nat) : List Line → State → Except CallStop State
  | [], s => .ok s
  | l :: rest, s => (callLine patience l s).bind (callLines patience rest)

/-- `RES[0].a`, the value a call returns (43 R172, R174). -/
def firstResult (s : State) : Except CallStop Word :=
  match s.res with
  | r :: _ => .ok r.a
  | [] => .error (.noResult s)

/-- The configuration update: RDREG of the configuration register, then the WRREG of what it
returned with the two enable bits set (43 R172). -/
def configUpdate (patience : Nat) (c : ClientParams) (s : State) : Except CallStop State :=
  (callLine patience (.rdReg c.configReg) s).bind fun t =>
    (firstResult t).bind fun conf => callLine patience (configUpdateLine c conf) t

/-- `defineSequence(handle, pairs)` (43 R171): the stack writes in order, then the configuration
update; 33 pairs or more send nothing. -/
def defineSequence (patience : Nat) (c : ClientParams) (pairs : List ChannelPair) (s : State) :
    Except CallStop State :=
  if pairs.length = 0 then .error .noPairs
  else if Config.seqMax < pairs.length then .error .tooLong
  else (callLines patience (stackLines c 0 pairs) s).bind (configUpdate patience c)

/-- `convertPair(handle, chA, chB) -> sample`: its two commands, and the sample `RES[0].a` (43
R174). -/
def convertPair (patience : Nat) (c : ClientParams) (q : ChannelPair) (s : State) :
    Except CallStop (State × Word) :=
  (callLines patience (convertPairLines c q) s).bind fun t =>
    (firstResult t).map fun sample => (t, sample)

end Sys2Proof.Machine
end

