-- ==== Sys2Proof/Machine/Procedures.lean ====
section
/-! DEFINITION. The spec's pseudocode as functions: `ShiftWord` (41_transport.md R131), the
handshake (42_register_protocol.md R150) and the bodies of RDREGS and RDCONV (42 R160, R162), and
the pin events and captures they amount to. The engine does not call these: it runs phases. The
statements compare the two. -/

namespace Sys2Proof.Machine

/-! The bits of a word. -/

/-- The value the first `n` answers of `f` assemble to, the first the most significant (30 R97). -/
def captured (f : Nat → Level) : Nat → Word
  | 0 => 0#32
  | n + 1 => shiftIn (captured f n) (f n)

/-- The sampling of one bit: `DINA` always, `DINB` only in two-wire mode (41 R131, R135). -/
def sampleBit (s : State) : State :=
  let t := { s.pinRead .dina with sh := { s.sh with accA := shiftIn s.sh.accA (s.nextLevel .dina) } }
  if t.cfg.dual then
    { t.pinRead .dinb with sh := { t.sh with accB := shiftIn t.sh.accB (t.nextLevel .dinb) } }
  else t

/-- One bit position `i`: data, clock low, sample, clock high (41 R131). -/
def shiftBit (i : Nat) (s : State) : State :=
  (sampleBit ((s.pinWrite .dout (s.sh.txsr.getLsbD i)).pinWrite .clk false)).pinWrite .clk true

/-- The positions `n-1` down to 0 (41 R131). -/
def shiftBits : Nat → State → State
  | 0, s => s
  | n + 1, s => shiftBits n (shiftBit n s)

/-- The engine's scratch as `S_LOAD` leaves it, at bit position `i`. -/
def State.loadWord (s : State) (wide : Bool) (w : Word) : State :=
  { s with sh := { txsr := w, accA := 0#32, accB := 0#32, wide := wide, bitIdx := 0#5 } }

/-- `ShiftWord(N, w)` (41 R131), `PHASE` aside; `BITIDX` ends at 0. -/
def shiftWord (wide : Bool) (w : Word) (s : State) : State :=
  (shiftBits (bitCount wide) ((s.loadWord wide w).pinWrite .cs false)).pinWrite .cs true

/-- `Handshake()` with the busy pin idle at the first poll (42 R150). -/
def handshakeOnce (s : State) : State :=
  ((s.pinWrite .trig true).pinWrite .trig false).pinRead .busy

/-- One element of RDREGS, and the body of RDREG: the read frame twice, the second capture
delivered, two words counted (42 R157, R160). -/
def readElement (a : Word) (s : State) : State :=
  let t := shiftWord false ((readFrame a).setWidth 32)
    (shiftWord false ((readFrame a).setWidth 32) s)
  { t.deliver (capture16 t.sh.accA) 0#32 with wordIdx := s.wordIdx + 2#32 }

/-- The elements `k, …, k+n-1` of `LIST`, in order (42 R160). -/
def readElements : Nat → Nat → State → State
  | _, 0, s => s
  | k, n + 1, s => readElements (k + 1) n (readElement (listAt s.list k) s)

/-- One conversion word: 32 zero bits out, both captures delivered (42 R162). -/
def convWord (s : State) : State :=
  let t := shiftWord true 0#32 s
  { t.deliver t.sh.accA t.sh.accB with wordIdx := s.wordIdx + 1#32 }

/-- `n` conversion words (42 R162). -/
def convWords : Nat → State → State
  | 0, s => s
  | n + 1, s => convWords n (convWord s)

/-! What a word leaves, written out. -/

/-- A stream after `n` answers have been taken. -/
def Answers.dropMany (q : Answers) : Nat → Answers
  | 0 => q
  | n + 1 => q.drop1.dropMany n

/-- The environment after the reads of one word: `DINA` always, `DINB` only in two-wire mode (41
R135). -/
def Env.afterWord (e : Env) (wide dual : Bool) : Env :=
  { e with dina := e.dina.dropMany (bitCount wide),
           dinb := if dual then e.dinb.dropMany (bitCount wide) else e.dinb }

/-- The `ACC_A` of a word shifted from `s` (10 R32). -/
def State.wordA (s : State) (wide : Bool) : Word := captured (s.comingLevel .dina) (bitCount wide)

/-- The `ACC_B` of a word shifted from `s`: 0 in one-wire mode (10 R32, 41 R135). -/
def State.wordB (s : State) (wide : Bool) : Word :=
  if s.cfg.dual then captured (s.comingLevel .dinb) (bitCount wide) else 0#32

/-! The pin events. -/

/-- The pin events of one bit: data `d`, and the answers `a`, `b` (41 R131). -/
def bitEvents (dual d a b : Bool) : List PinEvent :=
  [.write .dout d, .write .clk false, .read .dina a] ++ (if dual then [.read .dinb b] else []) ++
    [.write .clk true]

/-- The pin events of one word, `fa` and `fb` the coming answers (41 R131). -/
def wordEvents (wide dual : Bool) (w : Word) (fa fb : Nat → Level) : List PinEvent :=
  .write .cs false ::
    ((List.range (bitCount wide)).flatMap fun k =>
      bitEvents dual (w.getLsbD (bitCount wide - 1 - k)) (fa k) (fb k)) ++ [.write .cs true]

/-- What one word leaves behind, written out: chip select framed, the clock high, the data pin at
bit 0 of the word, both captures, the answers used up and exactly the word's events (41 R131). -/
def afterWord (wide : Bool) (w : Word) (s : State) : State :=
  { s with
    out := { s.out with cs := true, clk := true, dout := w.getLsbD 0 }
    sh := { txsr := w, accA := s.wordA wide, accB := s.wordB wide, wide := wide, bitIdx := 0#5 }
    env := s.env.afterWord wide s.cfg.dual
    trace := s.trace ++
      wordEvents wide s.cfg.dual w (s.comingLevel .dina) (s.comingLevel .dinb) }

/-- The pin events of OPEN once `PinInit` has answered ready: 10 in one-wire mode, 11 in two-wire
mode (40 R120). -/
def setupEvents (dual : Bool) : List PinEvent :=
  [.dir (.output .cs) .outward, .write .cs true, .dir (.output .clk) .outward, .write .clk true,
   .dir (.output .dout) .outward, .write .dout false, .dir (.output .trig) .outward,
   .write .trig false, .dir (.input .dina) .inward] ++
    (if dual then [.dir (.input .dinb) .inward] else []) ++ [.dir (.input .busy) .inward]

/-- The directions OPEN leaves, `DINB` set only in two-wire mode (40 R120). -/
def openedDirections (dual : Bool) (dinb : DirState) : Directions :=
  { cs := .set .outward, clk := .set .outward, dout := .set .outward, trig := .set .outward,
    dina := .set .inward, dinb := if dual then .set .inward else dinb, busy := .set .inward }

/-- The plan of a command; a wire word has none of its own. -/
def planOf : Instr → Plan
  | .openHandle => openPlan
  | .closeHandle => closePlan
  | .setDiag => setDiagPlan
  | .shift16 => shift16Plan
  | .shift32 => shift32Plan
  | .wrReg => wrRegPlan
  | .rdReg => rdRegPlan
  | .rdRegs => rdRegsPlan
  | .rdConv => rdConvPlan
  | .frame16Write _ _ => Plan.none
  | .frame16Read _ => Plan.none
  | .word32Out => Plan.none
  | .word32In _ _ => Plan.none
  | .raw16 _ => Plan.none
  | .raw32 _ => Plan.none

/-- What a command word `w`, issued in `s` and rejected with `e` before any pin event, leaves: `ERR`,
`RES` and the latches, nothing else (60 R190, R195; 30 R101, R102). -/
def rejectedFrom (s : State) (w : Word) (e : ErrorKind) : State :=
  { s with run := false, phase := .idle, lat := latched w s.args, err := errorCode e, res := [] }

/-- RDREG issued once for each address, the host writing `ARG_ADDR` before each, with the results
in order (42 R160, 30 R108). -/
def readOneByOne (rdReg : State → Host.Outcome State Fault Refusal) :
    List Word → State → State × List ResRec
  | [], s => (s, [])
  | a :: rest, s =>
    match rdReg { s with args := { s.args with addr := a } } with
    | .next t =>
      ((readOneByOne rdReg rest t).1, t.res ++ (readOneByOne rdReg rest t).2)
    | .fault _ => (s, [])
    | .refused _ => (s, [])

end Sys2Proof.Machine
end

