-- ==== Sys2Proof/Safety.lean ====
section
/-! DEFINITION. What counts as a good state and a safe step, in the terms the statements use. -/

namespace Sys2Proof.Machine

/-- `OUT.CS = 1`, `OUT.CLK = 1`, `OUT.TRIG = 0` (10_state.md R28). -/
def OutLatches.resting (o : OutLatches) : Bool := o.cs && o.clk && !o.trig

/-- What holds of the output latches and the handle at each phase, so that R28 holds whenever the
block is open and idle (10_state.md R28; 41_transport.md R131; 42 R150). -/
def pinsOk (s : State) : Bool :=
  match s.phase with
  | .idle => !s.cfg.isOpen || s.out.resting
  | .check => !s.cfg.isOpen || s.out.resting
  | .finish => !s.cfg.isOpen || s.out.resting
  | .oInit => !s.cfg.isOpen
  | .oSetup =>
    !s.cfg.isOpen && (decide (s.ostep.val ≤ 1) || s.out.cs) &&
      (decide (s.ostep.val ≤ 3) || s.out.clk) && (decide (s.ostep.val ≤ 7) || !s.out.trig)
  | .cTerm => s.cfg.isOpen && s.out.resting
  | .hTrigHi => s.cfg.isOpen && s.out.resting
  | .hTrigLo => s.cfg.isOpen && s.out.cs && s.out.clk
  | .hPoll => s.cfg.isOpen && s.out.resting
  | .sLoad => s.cfg.isOpen && s.out.resting
  | .sCsLo => s.cfg.isOpen && s.out.resting
  | .sDout => s.cfg.isOpen && !s.out.cs && s.out.clk && !s.out.trig
  | .sClkLo => s.cfg.isOpen && !s.out.cs && s.out.clk && !s.out.trig
  | .sSampleA => s.cfg.isOpen && !s.out.cs && !s.out.clk && !s.out.trig
  | .sSampleB => s.cfg.isOpen && !s.out.cs && !s.out.clk && !s.out.trig
  | .sClkHi => s.cfg.isOpen && !s.out.cs && !s.out.clk && !s.out.trig
  | .sCsHi => s.cfg.isOpen && !s.out.cs && s.out.clk && !s.out.trig
  | .wDone => s.cfg.isOpen && s.out.resting

/-- `ERR` holds one of the codes 0 to 4, results stand only beside code 0, and a command on its
way has no error yet (60_exceptions.md R190, R191). -/
def errOk (s : State) : Bool :=
  if s.phase = .idle ∨ s.phase = .finish then
    decide (s.err.toNat ≤ 4) && (decide (s.err = 0#3) || s.res.isEmpty)
  else decide (s.err = 0#3)

/-- The most records a command can leave (10_state.md R37). -/
def maxRecords (s : State) : Nat := max (max s.params.countMax s.params.listMax) 1

/-- A phase of the handshake (42 R151). -/
def Phase.inHandshake (p : Phase) : Bool :=
  decide (p = .hTrigHi) || decide (p = .hTrigLo) || decide (p = .hPoll)

/-- How many records (`n`) a command has delivered and how many words (`k`) it has counted, between
its check and its end, `handshake` telling the phases before its first word (42 R165, 41 R141, 10
R34). A command that is not one of the three multi-word ones has delivered nothing yet. -/
def progressFor (d : Except DecodeError Instr) (handshake : Bool) (cnt : Nat)
    (q : Config.Params) (n k : Nat) : Bool :=
  match d with
  | .ok .rdConv =>
    decide (cnt ≤ q.countMax) && decide (n = k) &&
      (if handshake then decide (k = 0) else decide (k < cnt))
  | .ok .rdRegs => decide (cnt ≤ q.listMax) && decide (n = k / 2) && decide (k < 2 * cnt)
  | .ok .rdReg => decide (n = 0) && decide (k ≤ 1)
  | _ => decide (n = 0)

/-- The progress of the latched command. -/
def progressOk (s : State) : Bool :=
  progressFor (decodeCmd s.lat.cmdWord) s.phase.inHandshake s.lat.cnt.toNat s.params
    s.res.length s.wordIdx.toNat

/-- Which phases the latched command can be in (10_state.md R36, and the command rules it names):
OPEN and CLOSE have their own, the handshake belongs to WRREG and RDCONV, words to the six commands
that shift. -/
def phaseFits (d : Except DecodeError Instr) (p : Phase) : Bool :=
  match p with
  | .idle => true
  | .check => true
  | .finish => true
  | .oInit => decide (d = .ok .openHandle)
  | .oSetup => decide (d = .ok .openHandle)
  | .cTerm => decide (d = .ok .closeHandle)
  | .hTrigHi => decide (d = .ok .wrReg) || decide (d = .ok .rdConv)
  | .hTrigLo => decide (d = .ok .wrReg) || decide (d = .ok .rdConv)
  | .hPoll => decide (d = .ok .wrReg) || decide (d = .ok .rdConv)
  | .sLoad => shifts d
  | .sCsLo => shifts d
  | .sDout => shifts d
  | .sClkLo => shifts d
  | .sSampleA => shifts d
  | .sSampleB => shifts d
  | .sClkHi => shifts d
  | .sCsHi => shifts d
  | .wDone => shifts d
where
  /-- The commands that shift words (41 R139, R140; 42 R155, R157, R160, R162). -/
  shifts (d : Except DecodeError Instr) : Bool :=
    decide (d = .ok .shift16) || decide (d = .ok .shift32) || decide (d = .ok .wrReg) ||
      decide (d = .ok .rdReg) || decide (d = .ok .rdRegs) || decide (d = .ok .rdConv)

/-- `RES` stays within R37's bound at every phase. -/
def resultsOk (s : State) : Bool :=
  if s.phase = .idle ∨ s.phase = .finish then decide (s.res.length ≤ maxRecords s)
  else if s.phase = .check then s.res.isEmpty
  else progressOk s

/-- The invariant of the block: the pins fit the phase (R28), `RUN` is 0 exactly in `IDLE` (R35,
R36), `ERR` is a code that is produced (R191), `RES` keeps within its bound (R37), the phase is one
of the latched command's (R36), `LIST` has `LIST_MAX` entries (R29), and the parameters are ones that
the 32-bit `WORDIDX` can serve (R34, R167). -/
structure State.Inv (s : State) : Prop where
  pins : pinsOk s = true
  running : s.run = !decide (s.phase = .idle)
  errors : errOk s = true
  results : resultsOk s = true
  phases : phaseFits (decodeCmd s.lat.cmdWord) s.phase = true
  listLength : s.list.length = s.params.listMax
  paramsFit : s.params.wf = true

/-- The command `i` is the one to be executed at `s`: the block is idle, so that `i` is issued, or
`i` is latched and at a phase of its own. -/
def State.Executes (s : State) (i : Instr) : Prop :=
  s.run = true →
    decodeCmd s.lat.cmdWord = .ok i ∧ phaseFits (decodeCmd s.lat.cmdWord) s.phase = true

/-- The state with the diagnostics flag at `b` (40_handle.md R125). -/
def State.withDiag (s : State) (b : Bool) : State := { s with cfg := { s.cfg with diag := b } }

/-- The state with other values in the latches, the shift scratch and the sequencing registers,
which carry nothing from one command to the next (00_scope.md R9, 10_state.md R41). -/
def State.withScratch (s : State) (l : Latches) (g : Shifter) (w : Word) (o : Fin 11) : State :=
  { s with lat := l, sh := g, wordIdx := w, ostep := o }

end Sys2Proof.Machine
end

