-- ==== Sys2Proof/Certificates/Slice0/Obligations.lean ====
section
/-! DEFINITION. The statements for the provers. A rule is cited by its number in `spec/`. In every
statement about a whole command, `s.run = false` says that the block is idle and `s.inputs = []`
that no port activity lands while the command runs. The schedule `inputs`, and how much one step
runs, are the model's own choice (log entry 1); so are the streams of answers (log entry 2). -/

open Sys2Proof Sys2Proof.Machine

/-! ### Encoding -/

/-- Decoding the word of any instruction in its space gives the instruction back, every operand at
every value (R90 to R93, R100). -/
def Obligations.EncodeThenDecodeGivesTheInstruction : Prop :=
  ∀ i : Instr, decodeIn i.space i.encode = .ok i

/-- A decoded word is the word of the instruction it decodes to: no bit of it is dropped. A 16-bit
space reads 16 bits. -/
def Obligations.DecodedWordIsTheEncodedOne : Prop :=
  ∀ (sp : Space) (w : Word) (i : Instr), decodeIn sp w = .ok i →
    i.space = sp ∧ i.encode = if sp.nbits = 16 then (w.setWidth 16).setWidth 32 else w

/-- A few words written out from the spec's tables decode to what they stand for: the codes of
R100, the frames of WRREG 3, 0x155 and RDREG 2 (95 V-WR, V-RD), a conversion capture (95 S1). -/
def Obligations.WordsOfTheTablesDecode : Prop :=
  decodeIn .hostCmd 0x00000001#32 = .ok .openHandle ∧
  decodeIn .hostCmd 0x00000011#32 = .ok .shift32 ∧
  decodeIn .hostCmd 0x00000023#32 = .ok .rdConv ∧
  decodeIn .frameOut 0x8755#32 = .ok (.frame16Write 3#6 0x155#9) ∧
  decodeIn .frameOut 0x0400#32 = .ok (.frame16Read 2#6) ∧
  decodeIn .convIn 0xBEEF1234#32 = .ok (.word32In 0xBEEF#16 0x1234#16)

/-- The frames of the source's formulas are the fields put together: `{1, A[5:0], V[8:0]}` and
`{0, A[5:0], 0}`; a read frame is at most `0x7E00` (R90, R91, R96). -/
def Obligations.FramesAreTheirFields : Prop :=
  ∀ a v : Word,
    writeFrame a v = frameBits true (a.extractLsb' 0 6) (v.extractLsb' 0 9) ∧
    readFrame a = frameBits false (a.extractLsb' 0 6) 0#9 ∧
    (readFrame a).toNat ≤ 0x7E00

/-- The address field on the wire: `A[5:0]`, the address itself for 2..7 and 32..63, and 0 for
address 64; the bits above never reach the wire (R94, R63). -/
def Obligations.FramedAddressIsTheLowSixBits : Prop :=
  ∀ a b v : Word,
    frameAddr (writeFrame a v) = a.extractLsb' 0 6 ∧
    frameAddr (readFrame a) = a.extractLsb' 0 6 ∧
    (a.extractLsb' 0 6 = b.extractLsb' 0 6 →
      writeFrame a v = writeFrame b v ∧ readFrame a = readFrame b) ∧
    (validAddr a = true →
      if a = 64#32 then frameAddr (writeFrame a v) = 0#6 ∧ frameAddr (readFrame a) = 0#6
      else (frameAddr (writeFrame a v)).toNat = a.toNat ∧
        (frameAddr (readFrame a)).toNat = a.toNat)

/-- The valid addresses are exactly 2..7 and 32..64, 39 of them, on the full 32 bits, and each of
them is framed as a field that the well-formedness check admits (R62, R105). -/
def Obligations.ValidAddressesAreTheTwoRanges : Prop :=
  (∀ a : Word, validAddr a = true ↔
    (2 ≤ a.toNat ∧ a.toNat ≤ 7) ∨ (32 ≤ a.toNat ∧ a.toNat ≤ 64)) ∧
  ((List.range 100).filter (fun k => validAddr (BitVec.ofNat 32 k))).length = 39 ∧
  (∀ a v : Word, validAddr a = true →
    (Instr.frame16Write (frameAddr (writeFrame a v)) (frameData (writeFrame a v))).wellFormed
      = true ∧
    (Instr.frame16Read (frameAddr (readFrame a))).wellFormed = true)

/-- The bits of a capture: after `n` answers `f 0, f 1, …` the `k`-th is at bit `n-1-k`, and the
bits above are 0 (R97, R32). -/
def Obligations.CapturedBitsStandInOrder : Prop :=
  ∀ (f : Nat → Level) (n i : Nat), n ≤ 32 → i < 32 →
    (captured f n).getLsbD i = (decide (i < n) && f (n - 1 - i))

/-! ### The step -/

/-- A write to `CMD` while `RUN = 0` issues the command its whole word decodes to, and the step is
that command executed (R101, R103). That one step issues the command and runs it on is the model's
choice (log entry 1). -/
def Obligations.StepRunsTheIssuedCommand : Prop :=
  ∀ (s : State) (w : Word) (i : Instr) (rest : List Input),
    s.run = false → s.inputs = .write 0#32 w :: rest → decodeIn .hostCmd w = .ok i →
    step s = exec i { s with inputs := rest }

/-- While a command runs and it is the engine's turn, the step executes the instruction that the
word fetched decodes to: the latched command, or the word going on the wire or taken in. What a step
is, and that a wire word is fetched at `S_LOAD`, is the model's choice (log entry 1). -/
def Obligations.StepRunsTheFetchedWord : Prop :=
  ∀ (s : State) (i : Instr),
    s.run = true → (s.inputs = [] ∨ ∃ rest, s.inputs = .turn :: rest) →
    decodeIn (fetch s).1 (fetch s).2 = .ok i → step s = exec i s

/-- The word fetched while the latches hold a command always decodes: at `S_LOAD` to the wire word
that the command sends there, its fields taken from the latches, at `W_DONE` of RDCONV to the word
captured, anywhere else to the command itself. What is fetched, and that a wire word stands at
`S_LOAD` and at `W_DONE`, is the model's choice (log entry 1): the block fetches nothing (R36). -/
def Obligations.FetchedWordDecodes : Prop :=
  ∀ (s : State) (c : Instr), decodeCmd s.lat.cmdWord = .ok c →
    decodeIn (fetch s).1 (fetch s).2 = .ok
      (if s.phase = .sLoad then
        if c = .wrReg then .frame16Write (s.lat.a.extractLsb' 0 6) (s.lat.v.extractLsb' 0 9)
        else if c = .rdReg then .frame16Read (s.lat.a.extractLsb' 0 6)
        else if c = .rdRegs then .frame16Read ((currentAddr s).extractLsb' 0 6)
        else if c = .rdConv then .word32Out
        else if c = .shift16 then .raw16 (s.lat.txw.extractLsb' 0 16)
        else if c = .shift32 then .raw32 s.lat.txw
        else c
      else if s.phase = .wDone ∧ c = .rdConv then
        .word32In (s.sh.accA.extractLsb' 16 16) (s.sh.accA.extractLsb' 0 16)
      else c)

/-- No step stops, but for one that a second agent is about to take: the block has no fault, and no
instruction is refused (R10, R206, R166). That a second agent is an input of the
schedule is the model's choice (log entries 1 and 10). -/
def Obligations.EveryStepAnswersANextState : Prop :=
  ∀ s : State,
    (∃ t, step s = .next t) ∨
      (∃ rest, s.inputs = .secondAgent :: rest) ∧ step s = .refused .secondAgent

/-- A block in `IDLE` waits: the engine's turn changes nothing but the schedule (R209, R36). The
schedule is the model's choice (log entry 1). -/
def Obligations.IdleBlockWaits : Prop :=
  ∀ s : State, s.run = false →
    (s.inputs = [] → step s = .next s) ∧
    (∀ rest, s.inputs = .turn :: rest → step s = .next { s with inputs := rest })

/-- One turn of the engine performs at most one pin event, and events are only ever appended (R36,
R74). The turns of the schedule are the
model's choice (log entry 1). -/
def Obligations.OneTurnIsAtMostOnePinEvent : Prop :=
  ∀ (s t : State) (x : Input) (rest : List Input),
    s.Inv → s.inputs = .turn :: x :: rest → x ≠ .turn → step s = .next t →
    t.inputs = x :: rest ∧ (t.trace = s.trace ∨ ∃ e, t.trace = s.trace ++ [e])

/-- No step takes back, changes or reorders a pin event (R74). -/
def Obligations.StepOnlyAppendsPinEvents : Prop :=
  ∀ s t : State, step s = .next t → s.trace <+: t.trace

/-! ### Handle commands -/

/-- OPEN with no handle open, a legal pair and `PinInit` ready: the eleven or twelve pin events, the
idle pin state, the directions, all five fields of `CFG` at once, `ERR = 0`, `RES = []`. During the
set-up the pins resolve through `PINMAP(bus, dev)` of the operands, and after it through that of the
handle, the same one (R120). The pin numbers themselves are left open (log entry 5). -/
def Obligations.OpenCompletes : Prop :=
  (∀ s : State, s.run = false → s.inputs = [] → s.cfg.isOpen = false →
    legalPair (opnBus s.args.opn) (opnDev s.args.opn) = true → s.nextReady = true →
    exec .openHandle s = .next
      { s with
        run := false, phase := .idle, err := 0#3, res := [], ostep := 10
        lat := latched 0x01#32 s.args
        cfg := openedCfg s.args.opn
        out := idlePins
        dir := openedDirections (opnDual s.args.opn) s.dir.dinb
        env := { s.env with init := s.env.init.drop1 }
        trace := s.trace ++ [.init true] ++ setupEvents (opnDual s.args.opn) } ∧
    ∀ t, exec .openHandle s = .next t →
      ∀ p, t.pinId p = roleId (opnBus s.args.opn) (opnDev s.args.opn) p) ∧
  (∀ s : State, s.phase = .oSetup →
    ∀ p, s.pinId p = roleId (opnBus s.lat.opn) (opnDev s.lat.opn) p)

/-- OPEN when `PinInit` fails: `InitError`, the one `PinInit` event, and nothing else changed but
`RES` and the latches (R121). -/
def Obligations.OpenFailsAtPinInit : Prop :=
  ∀ s : State, s.run = false → s.inputs = [] → s.cfg.isOpen = false →
    legalPair (opnBus s.args.opn) (opnDev s.args.opn) = true → s.nextReady = false →
    exec .openHandle s = .next
      { rejectedFrom s 0x01#32 .init with
        env := { s.env with init := s.env.init.drop1 }, trace := s.trace ++ [.init false] }

/-- OPEN with no handle open is rejected with `ConfigError` for exactly the pairs (0,2), (0,3),
(1,3), before any pin event; with a legal pair it ends with another value of `ERR` (R126, R120). -/
def Obligations.OpenRejectsIllegalPairs : Prop :=
  (∀ (b : BitVec 1) (d : BitVec 2), legalPair b d = false ↔
    (b = 0#1 ∧ d = 2#2) ∨ (b = 0#1 ∧ d = 3#2) ∨ (b = 1#1 ∧ d = 3#2)) ∧
  (∀ s : State, s.run = false → s.inputs = [] → s.cfg.isOpen = false →
    (legalPair (opnBus s.args.opn) (opnDev s.args.opn) = false →
      exec .openHandle s = .next (rejectedFrom s 0x01#32 .config)) ∧
    (legalPair (opnBus s.args.opn) (opnDev s.args.opn) = true →
      ∃ t, exec .openHandle s = .next t ∧ t.run = false ∧ t.err ≠ 1#3))

/-- `StateError`: OPEN with a handle open, and every other command with none, is rejected before
any pin event, whatever its operands (R194). -/
def Obligations.WrongHandleStateIsRejected : Prop :=
  ∀ (s : State) (i : Instr), i.space = .hostCmd → s.run = false → s.inputs = [] →
    s.cfg.isOpen = decide (i = .openHandle) →
    exec i s = .next (rejectedFrom s i.encode .state)

/-- CLOSE with a handle open: the single event `PinTerm()`, `CFG.OPEN` cleared, every direction
unset, everything else of `CFG` and the output latches kept (R122). -/
def Obligations.CloseCompletes : Prop :=
  ∀ s : State, s.run = false → s.inputs = [] → s.cfg.isOpen = true →
    exec .closeHandle s = .next
      { s with
        run := false, phase := .idle, err := 0#3, res := []
        lat := latched 0x02#32 s.args
        cfg := { s.cfg with isOpen := false }
        dir := Directions.allUnset
        trace := s.trace ++ [.term] }

/-- SETDIAG with a handle open: `CFG.DIAG <- OPN[4]`, no pin event, nothing else of `CFG` (R124). -/
def Obligations.SetDiagCompletes : Prop :=
  ∀ s : State, s.run = false → s.inputs = [] → s.cfg.isOpen = true →
    exec .setDiag s = .next
      { s with
        run := false, phase := .idle, err := 0#3, res := []
        lat := latched 0x03#32 s.args
        cfg := { s.cfg with diag := opnDiag s.args.opn } }

/-! ### Transport -/

/-- The words of the wire, put through the transport: one chip-select frame, the word's own bits
most significant first, both captures taken, and the capture left to be disposed of (R131, R132,
R90 to R93). -/
def Obligations.WireWordsAreShiftedOut : Prop :=
  ∀ s : State, s.inputs = [] →
    (∀ a d, exec (.frame16Write a d) s = .next
      ((afterWord false ((frameBits true a d).setWidth 32) s).goto .wDone)) ∧
    (∀ a, exec (.frame16Read a) s = .next
      ((afterWord false ((frameBits false a 0#9).setWidth 32) s).goto .wDone)) ∧
    exec .word32Out s = .next ((afterWord true 0#32 s).goto .wDone) ∧
    (∀ t : BitVec 16, exec (.raw16 t) s = .next
      ((afterWord false (t.setWidth 32) s).goto .wDone)) ∧
    (∀ t : BitVec 32, exec (.raw32 t) s = .next ((afterWord true t s).goto .wDone))

/-- Every word the block sends is exactly `4N + 2` pin events in one-wire mode and `5N + 2` in
two-wire mode: the two frames and the raw word with `N = 16`, the conversion word and the raw word
with `N = 32` (R132). -/
def Obligations.WordCostsItsPinEvents : Prop :=
  ∀ (s t : State) (i : Instr), s.inputs = [] → exec i s = .next t →
    (i.space = .frameOut ∨ i.space = .raw16Out →
      t.trace.length = s.trace.length + if s.cfg.dual then 82 else 66) ∧
    (i.space = .convOut ∨ i.space = .raw32Out →
      t.trace.length = s.trace.length + if s.cfg.dual then 162 else 130)

/-- SHIFT16 with a handle open: `TXW[15:0]` shifted as one word, `TXW[31:16]` ignored, the captures
widened with zeros into one record, `b = 0` in one-wire mode (R139). -/
def Obligations.Shift16Completes : Prop :=
  ∀ s : State, s.run = false → s.inputs = [] → s.cfg.isOpen = true →
    exec .shift16 s = .next
      { afterWord false ((s.args.tx.setWidth 16).setWidth 32) s with
        run := false, phase := .idle, err := 0#3, wordIdx := 0#32
        lat := latched 0x10#32 s.args
        res := [⟨captured (s.comingLevel .dina) 16,
                 if s.cfg.dual then captured (s.comingLevel .dinb) 16 else 0#32⟩] }

/-- SHIFT32 with a handle open: `TXW` shifted as one word, the captures in one record, `b = 0` in
one-wire mode (R140). -/
def Obligations.Shift32Completes : Prop :=
  ∀ s : State, s.run = false → s.inputs = [] → s.cfg.isOpen = true →
    exec .shift32 s = .next
      { afterWord true s.args.tx s with
        run := false, phase := .idle, err := 0#3, wordIdx := 0#32
        lat := latched 0x11#32 s.args
        res := [⟨captured (s.comingLevel .dina) 32,
                 if s.cfg.dual then captured (s.comingLevel .dinb) 32 else 0#32⟩] }

/-! ### Register protocol -/

/-- WRREG with a handle open, a valid address and `BUSY` idle at the first poll: the handshake, then
the write frame; the capture is discarded and `RES` stays empty (R155). -/
def Obligations.WrRegCompletes : Prop :=
  ∀ s : State, s.run = false → s.inputs = [] → s.cfg.isOpen = true →
    validAddr s.args.addr = true → s.comingLevel .busy 0 = s.params.busyIdle →
    exec .wrReg s = .next
      { afterWord false ((writeFrame s.args.addr s.args.value).setWidth 32) (handshakeOnce s) with
        run := false, phase := .idle, err := 0#3, res := [], wordIdx := 0#32
        lat := latched 0x20#32 s.args }

/-- WRREG whose chip is busy for `p` polls: from its issue it completes in `p + 1` steps, with the
trigger pulse, `p` busy polls, one idle poll and the frame as its pin events, and no error (R150,
R152, R155). That a busy poll ends a step is the model's choice (log entry 1). -/
def Obligations.WrRegCompletesAfterBusyPolls : Prop :=
  ∀ (s : State) (p : Nat), s.run = false → s.inputs = [.write 0#32 0x20#32] →
    s.cfg.isOpen = true → validAddr s.args.addr = true →
    (∀ k, k < p → s.comingLevel .busy k ≠ s.params.busyIdle) →
    s.comingLevel .busy p = s.params.busyIdle →
    ∃ t, Sys2Proof.core.run (p + 1) s = .next t ∧ t.run = false ∧ t.err = 0#3 ∧ t.res = [] ∧
      t.trace = s.trace ++ [.write .trig true, .write .trig false] ++
        List.replicate p (.read .busy (!s.params.busyIdle)) ++ [.read .busy s.params.busyIdle] ++
        wordEvents false s.cfg.dual ((writeFrame s.args.addr s.args.value).setWidth 32)
          (s.comingLevel .dina) (s.comingLevel .dinb)

/-- RDREG with a handle open and a valid address: the same read frame twice with no handshake, one
record of the second `DINA` capture, 16 bits unmasked, `b = 0` in both modes (R157, R158, R163). -/
def Obligations.RdRegCompletes : Prop :=
  ∀ s : State, s.run = false → s.inputs = [] → s.cfg.isOpen = true →
    validAddr s.args.addr = true →
    exec .rdReg s = .next
      { afterWord false ((readFrame s.args.addr).setWidth 32)
          (afterWord false ((readFrame s.args.addr).setWidth 32) s) with
        run := false, phase := .idle, err := 0#3, wordIdx := 1#32
        lat := latched 0x21#32 s.args
        res := [⟨captured (fun k => s.comingLevel .dina (16 + k)) 16, 0#32⟩] }

/-- After RDREG the pins are in the idle pin state, when the trigger was low before it (R159, R27).
-/
def Obligations.RdRegReturnsToIdlePins : Prop :=
  ∀ s : State, s.run = false → s.inputs = [] → s.cfg.isOpen = true →
    validAddr s.args.addr = true → s.out.trig = false →
    ∃ t, exec .rdReg s = .next t ∧ t.out = idlePins

/-- The masking round trip: WRREG's frame carries `v & 0x1FF`, and RDREG against a chip that answers
its second word with those nine bits and seven zeros above returns `v & 0x1FF` (95 S5, R95, R98). -/
def Obligations.MaskingRoundTrip : Prop :=
  ∀ (s : State) (v : Word), s.run = false → s.inputs = [] → s.cfg.isOpen = true →
    validAddr s.args.addr = true →
    (∀ k, k < 16 → s.comingLevel .dina (16 + k) =
      ((frameData (writeFrame s.args.addr v)).setWidth 16).getLsbD (15 - k)) →
    ∃ t, exec .rdReg s = .next t ∧ t.res = [⟨v &&& 0x1FF#32, 0#32⟩]

/-- RDREGS with a handle open, a list within `LIST_MAX` and every address valid: each address read
twice in list order, one record for each; an empty list makes no pin event (R160). The list has no
more than the `2 ^ 31` addresses whose words a 32-bit `WORDIDX` can count (R34; log entry 8). -/
def Obligations.RdRegsCompletes : Prop :=
  ∀ s : State, s.run = false → s.inputs = [] → s.cfg.isOpen = true →
    s.args.count.toNat ≤ s.params.listMax → s.args.count.toNat ≤ 2 ^ 31 →
    allValid s.list s.args.count.toNat = true →
    exec .rdRegs s = .next
      { readElements 0 s.args.count.toNat
          { s with res := [], wordIdx := 0#32 } with
        run := false, phase := .idle, err := 0#3
        lat := latched 0x22#32 s.args }

/-- A completing RDREGS has the pin events, the answers used, the output levels and the results of
as many separate RDREG commands in list order (R160), for a list of no more than the `2 ^ 31`
addresses whose words a 32-bit `WORDIDX` can count (R34; log entry 8). -/
def Obligations.RdRegsEqualsSeparateReads : Prop :=
  ∀ s t : State, s.run = false → s.inputs = [] → s.cfg.isOpen = true →
    s.args.count.toNat ≤ s.params.listMax → s.args.count.toNat ≤ 2 ^ 31 →
    allValid s.list s.args.count.toNat = true →
    exec .rdRegs s = .next t →
    let addrs := (List.range s.args.count.toNat).map (listAt s.list)
    t.trace = (readOneByOne (exec .rdReg) addrs s).1.trace ∧
    t.env = (readOneByOne (exec .rdReg) addrs s).1.env ∧
    t.out = (readOneByOne (exec .rdReg) addrs s).1.out ∧
    t.res = (readOneByOne (exec .rdReg) addrs s).2

/-- RDREGS rejected before any pin event: a list longer than `LIST_MAX`, and, with the pre-check, an
invalid address anywhere in it (R160, R192, R193). -/
def Obligations.RdRegsRejects : Prop :=
  ∀ s : State, s.run = false → s.inputs = [] → s.cfg.isOpen = true →
    (s.params.listMax < s.args.count.toNat ∨
      s.params.rdregsPrecheck = true ∧ allValid s.list s.args.count.toNat = false) →
    exec .rdRegs s = .next (rejectedFrom s 0x22#32 .config)

/-- RDREGS without the pre-check, its first invalid address at index `j`: the `j` elements before it
are read on the wire, then the command is rejected with `RES = []` (R160, R190). The list has no
more than the `2 ^ 31` addresses whose words a 32-bit `WORDIDX` can count (R34; log entry 8). -/
def Obligations.RdRegsWithoutPrecheckStopsAtTheFirstInvalid : Prop :=
  ∀ (s : State) (j : Nat), s.run = false → s.inputs = [] → s.cfg.isOpen = true →
    s.params.rdregsPrecheck = false → s.args.count.toNat ≤ s.params.listMax →
    s.args.count.toNat ≤ 2 ^ 31 → j < s.args.count.toNat → allValid s.list j = true → validAddr (listAt s.list j) = false →
    exec .rdRegs s = .next
      { readElements 0 j { s with res := [], wordIdx := 0#32 } with
        run := false, phase := .idle, err := 1#3, res := []
        lat := latched 0x22#32 s.args }

/-- WRREG and RDREG with an address outside the two ranges: `ConfigError`, no pin event, nothing
changed but `ERR`, `RES` and the latches (R192, R154). -/
def Obligations.InvalidAddressIsRejected : Prop :=
  ∀ s : State, s.run = false → s.inputs = [] → s.cfg.isOpen = true →
    validAddr s.args.addr = false →
    exec .wrReg s = .next (rejectedFrom s 0x20#32 .config) ∧
    exec .rdReg s = .next (rejectedFrom s 0x21#32 .config)

/-- RDCONV with a handle open, a count within `COUNT_MAX` and `BUSY` idle at the first poll: one
handshake, then as many all-zero words as the count, one record for each; a count of 0 makes the
handshake only (R162). -/
def Obligations.RdConvCompletes : Prop :=
  ∀ s : State, s.run = false → s.inputs = [] → s.cfg.isOpen = true →
    s.args.count.toNat ≤ s.params.countMax → s.comingLevel .busy 0 = s.params.busyIdle →
    exec .rdConv s = .next
      { convWords s.args.count.toNat { handshakeOnce s with res := [], wordIdx := 0#32 } with
        run := false, phase := .idle, err := 0#3
        lat := latched 0x23#32 s.args }

/-- RDCONV whose chip is busy for `p` polls: from its issue it completes in `p + 1` steps, without
error, with the trigger pulse, `p` busy polls, one idle poll and as many all-zero words as the count
for its pin events. Its `k`-th record is the `DINA` capture of the `k`-th 32 answers and, in two-wire
mode, the `DINB` capture of its own `k`-th 32 (R150, R152, R162, R163, R70). That a busy poll ends a
step is the model's choice (log entry 1). -/
def Obligations.RdConvCompletesAfterBusyPolls : Prop :=
  ∀ (s : State) (p : Nat), s.run = false → s.inputs = [.write 0#32 0x23#32] →
    s.cfg.isOpen = true → s.args.count.toNat ≤ s.params.countMax →
    (∀ k, k < p → s.comingLevel .busy k ≠ s.params.busyIdle) →
    s.comingLevel .busy p = s.params.busyIdle →
    ∃ t, Sys2Proof.core.run (p + 1) s = .next t ∧ t.run = false ∧ t.err = 0#3 ∧
      t.res = ((List.range s.args.count.toNat).map fun k =>
        ⟨captured (fun j => s.comingLevel .dina (32 * k + j)) 32,
         if s.cfg.dual then captured (fun j => s.comingLevel .dinb (32 * k + j)) 32 else 0#32⟩) ∧
      t.trace = s.trace ++ [.write .trig true, .write .trig false] ++
        List.replicate p (.read .busy (!s.params.busyIdle)) ++ [.read .busy s.params.busyIdle] ++
        (List.range s.args.count.toNat).flatMap fun k =>
          wordEvents true s.cfg.dual 0#32 (fun j => s.comingLevel .dina (32 * k + j))
            (fun j => s.comingLevel .dinb (32 * k + j))

/-- RDCONV with a count above `COUNT_MAX` is rejected before any pin event (R193). -/
def Obligations.RdConvRejectsLargeCounts : Prop :=
  ∀ s : State, s.run = false → s.inputs = [] → s.cfg.isOpen = true →
    s.params.countMax < s.args.count.toNat →
    exec .rdConv s = .next (rejectedFrom s 0x23#32 .config)

/-- A conversion capture taken in by RDCONV: delivered whole, sideB high and sideA low, with the
`DINB` capture beside it, the word counted, and the command at its next word or its end (R92, R69,
R165). -/
def Obligations.ConversionCaptureIsDelivered : Prop :=
  ∀ (s : State) (b a : BitVec 16), s.inputs = [] →
    exec (.word32In b a) s = .next
      { s with
        res := s.res ++ [⟨b ++ a, s.sh.accB⟩]
        wordIdx := s.wordIdx + 1#32
        phase := if s.wordIdx + 1#32 = s.lat.cnt then .finish else .sLoad } ∧
    sideA (b ++ a) = a ∧ sideB (b ++ a) = b

/-! ### Handshake and hang -/

/-- In the poll, one `PinRead(BUSY)` a step: on any level but the idle one WRREG and RDCONV stay
where they are, with nothing changed but the answer used up and the event (R151, R152). That a busy
poll ends a step is the model's choice (log entry 1). -/
def Obligations.BusyPollStays : Prop :=
  ∀ (s : State) (i : Instr), i = .wrReg ∨ i = .rdConv → s.run = true → s.inputs = [] →
    s.phase = .hPoll → s.comingLevel .busy 0 ≠ s.params.busyIdle →
    exec i s = .next
      { s with
        env := { s.env with busy := s.env.busy.drop1 }
        trace := s.trace ++ [.read .busy (!s.params.busyIdle)] }

/-- The hang: as long as no poll reads the idle level, a WRREG or RDCONV in the poll is still there
after any number of steps, `RUN = 1`, no error set, the output latches and `RES` as they were, and
every step has read `BUSY` once (R198, R152). That each step is one poll is the
model's choice (log entry 1). -/
def Obligations.BusyChipHangsTheCommand : Prop :=
  ∀ (s : State) (n : Nat),
    decodeCmd s.lat.cmdWord = .ok .wrReg ∨ decodeCmd s.lat.cmdWord = .ok .rdConv →
    s.run = true → s.inputs = [] → s.phase = .hPoll →
    (∀ k, k < n → s.comingLevel .busy k ≠ s.params.busyIdle) →
    ∃ t, Sys2Proof.core.run n s = .next t ∧ t.run = true ∧ t.phase = .hPoll ∧ t.err = s.err ∧
      t.res = s.res ∧ t.out = s.out ∧ t.cfg = s.cfg ∧
      t.trace = s.trace ++ List.replicate n (.read .busy (!s.params.busyIdle))

/-! ### Rejection -/

/-- Every word written to `CMD` that is none of the nine codes, bits 31:8 included, is issued and
rejected with `IllegalCommand`, whatever `CFG.OPEN` is: no pin event, nothing changed but `ERR`,
`RES` and the latches (R195, R104). -/
def Obligations.UndefinedCodesAreRejected : Prop :=
  ∀ (s : State) (w : Word), s.run = false → s.inputs = [.write 0#32 w] →
    w ∉ [0x01#32, 0x02#32, 0x03#32, 0x10#32, 0x11#32, 0x20#32, 0x21#32, 0x22#32, 0x23#32] →
    step s = .next (rejectedFrom { s with inputs := [] } w .illegalCommand)

/-- A command that ends in an error has performed no pin event and changed neither the handle, the
pins nor the answers, except OPEN failing at its one `PinInit` call; without the pre-check RDREGS
is excepted as its rule says (R10, R190). -/
def Obligations.RejectionTouchesNothing : Prop :=
  ∀ (s t : State) (i : Instr), i.space = .hostCmd → s.run = false → s.inputs = [] →
    (i = .rdRegs → s.params.rdregsPrecheck = true) →
    exec i s = .next t → t.err ≠ 0#3 →
    t.run = false ∧ t.res = [] ∧ t.cfg = s.cfg ∧ t.out = s.out ∧ t.dir = s.dir ∧
      (t.trace = s.trace ∧ t.env = s.env ∨
        i = .openHandle ∧ t.err = 2#3 ∧ t.trace = s.trace ++ [.init false])

/-- Once past `CHECK`, a command that shifts words never ends in an error, whatever the environment
answers, when RDREGS checks its list beforehand (R166). -/
def Obligations.NoErrorOncePastTheCheck : Prop :=
  ∀ (s t : State) (i : Instr), s.run = true → s.Executes i →
    s.phase ≠ .check → s.phase ≠ .oInit → s.params.rdregsPrecheck = true →
    exec i s = .next t → t.err = s.err

/-! ### Frames -/

/-- No instruction writes a host register, the parameters or the record of host reads, from any
state, however far it gets (R29, R21). That the parameters stand in the state is the
model's choice (log entry 4). -/
def Obligations.NoInstructionWritesHostRegisters : Prop :=
  ∀ (s t : State) (i : Instr), exec i s = .next t →
    t.args = s.args ∧ t.list = s.list ∧ t.resIdx = s.resIdx ∧ t.listIdx = s.listIdx ∧
      t.params = s.params ∧ t.reads = s.reads

/-- Only OPEN, CLOSE and SETDIAG write `CFG`, and only OPEN and CLOSE write a direction (R23, R26,
R122). -/
def Obligations.OnlyHandleCommandsWriteTheHandle : Prop :=
  ∀ (s t : State) (i : Instr), i.space = .hostCmd → s.Executes i → exec i s = .next t →
    (i ≠ .openHandle → i ≠ .closeHandle → t.dir = s.dir) ∧
    (i ≠ .openHandle → i ≠ .closeHandle → i ≠ .setDiag → t.cfg = s.cfg) ∧
    (i ≠ .openHandle → t.cfg.bus = s.cfg.bus ∧ t.cfg.dev = s.cfg.dev ∧ t.cfg.dual = s.cfg.dual)

/-- Only OPEN, WRREG and RDCONV write the trigger pin, and CLOSE and SETDIAG write no pin at all
(R156, R159, R122, R124). -/
def Obligations.OnlyHandshakesPulseTheTrigger : Prop :=
  ∀ (s t : State) (i : Instr), i.space = .hostCmd → s.Executes i → exec i s = .next t →
    (i ≠ .openHandle → i ≠ .wrReg → i ≠ .rdConv → t.out.trig = s.out.trig) ∧
    (i = .closeHandle ∨ i = .setDiag → t.out = s.out)

/-! ### Invariants -/

/-- The state right after reset meets the invariant. The scratch values in it are the
model's choice (log entry 3). -/
def Obligations.ResetMeetsTheInvariant : Prop := State.reset.Inv

/-- Every step keeps the invariant, from every state that meets it (R28, R29, R34, R35, R36, R37,
R191). That the parameters stand in the state, and what size of them `WORDIDX` can serve, is the
model's choice (log entries 4 and 8). -/
def Obligations.EveryStepKeepsTheInvariant : Prop :=
  ∀ s t : State, s.Inv → step s = .next t → t.Inv

/-- Whenever a handle is open and no command runs, `CS = 1`, `CLK = 1` and `TRIG = 0`; and `ERR` is
at most 4 and `RES` at most as long as its bound in every state of the invariant (R28, R191, R37).
-/
def Obligations.InvariantGivesTheRules : Prop :=
  ∀ s : State, s.Inv →
    (s.cfg.isOpen = true → s.run = false →
      s.out.cs = true ∧ s.out.clk = true ∧ s.out.trig = false) ∧
    s.err.toNat ≤ 4 ∧ s.res.length ≤ maxRecords s ∧ (s.run = false ↔ s.phase = .idle)

/-! ### Host port -/

/-- A host read returns the current value, also while a command runs, and changes nothing (R43,
R80). That a read of `STATUS`, `RESLEN`, `RES_A` or `RES_B` while `RUN = 1` shows the current `ERR`
and `RES` is the model's choice (log entry 21): R80 defines them only when `RUN = 0`. -/
def Obligations.HostReadsChangeNothing : Prop :=
  ∀ (s : State) (offset : Word) (rest : List Input), s.inputs = .read offset :: rest →
    step s = .next { s with inputs := rest, reads := s.reads ++ [(offset, hostRead s offset)] }

/-- While `RUN = 1` every host write is ignored, a write to `CMD` among them (R80, R101). -/
def Obligations.HostWritesWhileRunningAreIgnored : Prop :=
  ∀ (s : State) (offset v : Word) (rest : List Input), s.run = true →
    s.inputs = .write offset v :: rest → step s = .next { s with inputs := rest }

/-- A host write while `RUN = 0` to anything but `CMD`: the operand and index registers take the
value, `ARG_OPEN` its low five bits, `LIST[LISTIDX]` only below `LIST_MAX`; read-only registers and
offsets not in the table ignore it (R42, R43). -/
def Obligations.HostWritesReachTheirRegister : Prop :=
  ∀ (s : State) (offset v : Word), s.run = false → s.inputs = [.write offset v] →
    offset ≠ 0#32 →
    step s = .next
      (let u : State := { s with inputs := [] }
       if offset = 0x08#32 then { u with args := { u.args with addr := v } }
       else if offset = 0x0C#32 then { u with args := { u.args with value := v } }
       else if offset = 0x10#32 then { u with args := { u.args with count := v } }
       else if offset = 0x14#32 then { u with args := { u.args with tx := v } }
       else if offset = 0x18#32 then { u with args := { u.args with opn := v.setWidth 5 } }
       else if offset = 0x28#32 then { u with resIdx := v }
       else if offset = 0x34#32 then { u with listIdx := v }
       else if offset = 0x38#32 ∧ s.listIdx.toNat < s.params.listMax then
         { u with list := u.list.set u.listIdx.toNat v }
       else u)

/-- What the host reads in every register: the operand and index registers as they are written,
`ARG_OPEN` with 0 in bits 31:5; `STATUS`, `CFG` and `PINS` bit by bit; `RESLEN`; the indexed record
and the indexed list entry, 0 past the end of either; and 0 for `CMD` and for every offset not in the
table (R42, R43). What `STATUS`, `RESLEN`, `RES_A` and `RES_B` show while `RUN = 1` is the model's
choice (log entry 21), and so is `RESLEN` modulo `2 ^ 32` (log entry 8). -/
def Obligations.HostReadsShowTheirFields : Prop :=
  ∀ s : State,
    hostRead s 0x08#32 = s.args.addr ∧ hostRead s 0x0C#32 = s.args.value ∧
    hostRead s 0x10#32 = s.args.count ∧ hostRead s 0x14#32 = s.args.tx ∧
    (hostRead s 0x18#32).extractLsb' 0 5 = s.args.opn ∧
    (hostRead s 0x18#32).extractLsb' 5 27 = 0#27 ∧
    hostRead s 0x28#32 = s.resIdx ∧ hostRead s 0x34#32 = s.listIdx ∧
    (s.listIdx.toNat < s.params.listMax →
      ∀ v, s.list[s.listIdx.toNat]? = some v → hostRead s 0x38#32 = v) ∧
    (hostRead s 0x04#32 = BitVec.ofNat 32
      ((if s.run then 1 else 0) + (if s.cfg.isOpen then 2 else 0) + 16 * s.err.toNat)) ∧
    (hostRead s 0x1C#32 = BitVec.ofNat 32
      (s.cfg.bus.toNat + 2 * s.cfg.dev.toNat + (if s.cfg.dual then 8 else 0) +
        (if s.cfg.diag then 16 else 0) + (if s.cfg.isOpen then 32 else 0))) ∧
    (hostRead s 0x20#32 = BitVec.ofNat 32
      ((if s.out.cs then 1 else 0) + (if s.out.clk then 2 else 0) + (if s.out.dout then 4 else 0) +
        (if s.out.trig then 8 else 0))) ∧
    hostRead s 0x24#32 = BitVec.ofNat 32 s.res.length ∧
    (∀ r, s.res[s.resIdx.toNat]? = some r → hostRead s 0x2C#32 = r.a ∧ hostRead s 0x30#32 = r.b) ∧
    (s.res.length ≤ s.resIdx.toNat → hostRead s 0x2C#32 = 0#32 ∧ hostRead s 0x30#32 = 0#32) ∧
    (s.params.listMax ≤ s.listIdx.toNat → hostRead s 0x38#32 = 0#32) ∧
    hostRead s 0x00#32 = 0#32 ∧
    (∀ offset : Word, (0x38 < offset.toNat ∨ offset.toNat % 4 ≠ 0) → hostRead s offset = 0#32)

/-- The host writes of a command line lead to its command, executed on exactly its operands: OPEN
with `ARG_OPEN` put together as `{diag, dual, dev, bus}`, CLOSE, SETDIAG, SHIFT16, SHIFT32, WRREG,
RDREG and RDCONV (R107). That SETDIAG's line carries all five bits of `ARG_OPEN` is the model's choice
(log entry 20), as is one step for each host write (log entry 1). -/
def Obligations.CommandLinesIssueTheirCommands : Prop :=
  ∀ s : State, s.run = false →
    (∀ (bus : BitVec 1) (dev : BitVec 2) (dual diag : Bool),
      s.inputs = (Line.openHandle bus dev dual diag).writes →
      ∃ o : BitVec 5, opnBus o = bus ∧ opnDev o = dev ∧ opnDual o = dual ∧ opnDiag o = diag ∧
        Sys2Proof.core.run 2 s =
          exec .openHandle { s with inputs := [], args := { s.args with opn := o } }) ∧
    (s.inputs = Line.closeHandle.writes →
      Sys2Proof.core.run 1 s = exec .closeHandle { s with inputs := [] }) ∧
    (∀ o : BitVec 5, s.inputs = (Line.setDiag o).writes →
      Sys2Proof.core.run 2 s =
        exec .setDiag { s with inputs := [], args := { s.args with opn := o } }) ∧
    (∀ w : Word, s.inputs = (Line.shift16 w).writes →
      Sys2Proof.core.run 2 s =
        exec .shift16 { s with inputs := [], args := { s.args with tx := w } }) ∧
    (∀ w : Word, s.inputs = (Line.shift32 w).writes →
      Sys2Proof.core.run 2 s =
        exec .shift32 { s with inputs := [], args := { s.args with tx := w } }) ∧
    (∀ a v : Word, s.inputs = (Line.wrReg a v).writes →
      Sys2Proof.core.run 3 s =
        exec .wrReg { s with inputs := [], args := { s.args with addr := a, value := v } }) ∧
    (∀ a : Word, s.inputs = (Line.rdReg a).writes →
      Sys2Proof.core.run 2 s =
        exec .rdReg { s with inputs := [], args := { s.args with addr := a } }) ∧
    (∀ n : Word, s.inputs = (Line.rdConv n).writes →
      Sys2Proof.core.run 2 s =
        exec .rdConv { s with inputs := [], args := { s.args with count := n } })

/-- The host writes of an RDREGS line put the addresses into `LIST` in order, the length into
`ARG_COUNT`, and lead to RDREGS executed on them (R107). -/
def Obligations.RdRegsLineIssuesItsCommand : Prop :=
  ∀ (s : State) (addrs : List Word), s.run = false → s.inputs = (Line.rdRegs addrs).writes →
    addrs.length ≤ s.params.listMax → s.list.length = s.params.listMax →
    s.params.listMax < 2 ^ 32 →
    ∃ u : State, Sys2Proof.core.run (2 * addrs.length + 2) s = exec .rdRegs u ∧
      u.list = addrs ++ s.list.drop addrs.length ∧ u.args.count.toNat = addrs.length ∧
      u.run = false ∧ u.inputs = [] ∧ u.cfg = s.cfg ∧ u.params = s.params ∧ u.trace = s.trace

/-! ### Reset -/

/-- RESET wins over everything: from every state, whatever runs, the block is closed, idle, without
error or result, every direction unset, the operand and index registers 0, and no pin event is
performed (R220, R221, R44). That RESET is one input, and what it keeps, is the model's
choice (log entries 1 and 9). -/
def Obligations.ResetWinsOverEverything : Prop :=
  ∀ (s : State) (rest : List Input), s.inputs = .reset :: rest →
    ∃ t, step s = .next t ∧ t.inputs = rest ∧ t.trace = s.trace ∧
      t.cfg = ⟨false, 0#1, 0#2, false, false⟩ ∧ t.out = ⟨true, true, false, false⟩ ∧
      t.dir = Directions.allUnset ∧ t.args = ⟨0#32, 0#32, 0#32, 0#32, 0#5⟩ ∧
      t.list = List.replicate s.params.listMax 0#32 ∧ t.resIdx = 0#32 ∧ t.listIdx = 0#32 ∧
      t.res = [] ∧ t.err = 0#3 ∧ t.run = false ∧ t.phase = .idle

/-- What the host reads right after reset: `STATUS`, `CFG`, `RESLEN`, `RES_A` all 0 and `PINS` 3;
and no output pin is driven (95 V-HOST, R44, R45). -/
def Obligations.HostViewAfterReset : Prop :=
  hostRead State.reset 0x04#32 = 0#32 ∧ hostRead State.reset 0x1C#32 = 0#32 ∧
  hostRead State.reset 0x20#32 = 3#32 ∧ hostRead State.reset 0x24#32 = 0#32 ∧
  hostRead State.reset 0x2C#32 = 0#32 ∧ (∀ p, State.reset.drivenLevel p = none)

/-! ### What carries nothing -/

/-- The diagnostics flag affects nothing: with it flipped, an instruction gives the same next state
but for the flag itself (R125). -/
def Obligations.DiagnosticsFlagAffectsNothing : Prop :=
  ∀ (s t u : State) (i : Instr) (b : Bool), exec i s = .next t → exec i (s.withDiag b) = .next u →
    u.withDiag false = t.withDiag false

/-- The latches and the scratch carry nothing from one command to the next: a command issued with
other values in them has the same pin events, results, error, handle, pins and answers used (R41,
R9, R138). -/
def Obligations.ScratchCarriesNothingOver : Prop :=
  ∀ (s t u : State) (i : Instr) (l : Latches) (g : Shifter) (w : Word) (o : Fin 11),
    i.space = .hostCmd → s.run = false → exec i s = .next t →
    exec i (s.withScratch l g w o) = .next u →
    u.trace = t.trace ∧ u.res = t.res ∧ u.err = t.err ∧ u.cfg = t.cfg ∧ u.out = t.out ∧
      u.dir = t.dir ∧ u.env = t.env ∧ u.run = t.run ∧ u.phase = t.phase

/-! ### Client side -/

/-- `defineSequence` of 1 to 32 pairs sends one WRREG for each pair, entry `k` at `STACK_BASE + k`,
the last with `SSREN`, then one RDREG of the configuration register and one WRREG of what it returned
with `BURST_EN` and `SEQ_EN` set; with valid addresses, an open block and a chip that is idle at each
poll it completes, the trigger pulsed once for each pair and once more. 33 pairs or more, and no pair
at all, are refused with no command sent (R171, R172, 95 S6). `convertPair` sends its WRREG and
RDCONV 1 and returns the capture (R174). A period sends RDCONV of twice the length, or nothing for
length 0 (R176); the one-wire results come apart into both sides, two-wire results do not (R177). The
refusal of no pair at all, of two-wire results, and how long a client waits are the model's choice
(log entry 16). -/
def Obligations.ClientSequencesSendTheirLines : Prop :=
  ∀ (patience : Nat) (c : ClientParams) (pairs : List ChannelPair) (s : State),
    (32 < pairs.length → defineSequence patience c pairs s = .error .tooLong) ∧
    (pairs = [] → defineSequence patience c pairs s = .error .noPairs) ∧
    (1 ≤ pairs.length → pairs.length ≤ 32 →
      ∃ ws : List (Word × Word), ws.length = pairs.length ∧
        (∀ k : Nat, ws[k]? = (pairs[k]?).map fun q =>
          (c.stackBase + BitVec.ofNat 32 k,
            if k + 1 = pairs.length then c.chsel q.chA q.chB ||| c.ssren
            else c.chsel q.chA q.chB)) ∧
        (∀ conf, defineSequenceLines c pairs conf = ws.map (fun w => Line.wrReg w.1 w.2) ++
          [.rdReg c.configReg, .wrReg c.configReg (conf ||| c.burstEn ||| c.seqEn)]) ∧
        (∀ t, defineSequence patience c pairs s = .ok t → ∃ (u : State) (r : ResRec),
          callLines patience
            (ws.map (fun w => Line.wrReg w.1 w.2) ++ [.rdReg c.configReg]) s = .ok u ∧
          u.res.head? = some r ∧
          callLines patience (defineSequenceLines c pairs r.a) s = .ok t) ∧
        (s.run = false → s.cfg.isOpen = true → validAddr c.configReg = true →
          (∀ w ∈ ws, validAddr w.1 = true) →
          (∀ k, k ≤ pairs.length → s.comingLevel .busy k = s.params.busyIdle) →
          ∃ t, defineSequence patience c pairs s = .ok t ∧ t.run = false ∧ t.err = 0#3 ∧
            t.args.addr = c.configReg ∧
            t.args.value =
              captured (fun k => s.comingLevel .dina (16 * pairs.length + 16 + k)) 16 |||
                c.burstEn ||| c.seqEn ∧
            t.trace.count (.write .trig true) =
              s.trace.count (.write .trig true) + pairs.length + 1)) ∧
    (∀ q : ChannelPair, convertPairLines c q =
      [.wrReg c.channelReg (c.chsel q.chA q.chB), .rdConv 1#32] ∧
      (s.run = false → s.cfg.isOpen = true → validAddr c.channelReg = true →
        1 ≤ s.params.countMax → s.comingLevel .busy 0 = s.params.busyIdle →
        s.comingLevel .busy 1 = s.params.busyIdle →
        ∃ t, convertPair patience c q s =
            .ok (t, captured (fun k => s.comingLevel .dina (16 + k)) 32) ∧
          t.run = false ∧ t.err = 0#3)) ∧
    periodLines 0 = [] ∧
    (∀ n : Nat, 0 < n → periodLines n = [.rdConv (BitVec.ofNat 32 (2 * n))]) ∧
    (∀ res : List ResRec, deinterleave true res = none ∧
      deinterleave false res = some (res.map fun r => r.a.extractLsb' 0 16,
        res.map fun r => r.a.extractLsb' 16 16))
end

