-- ==== Sys2Proof/Laws/State.lean ====
section
/-! SUPPORT. The fields of a state after each named update: one lemma for each field and update,
true by `rfl`, so that no proof unfolds a record update. -/

namespace Sys2Proof.Machine

/-! `State.goto`. -/

@[simp] theorem State.goto_cfg (s : State) (p : Phase) : (s.goto p).cfg = s.cfg := rfl
@[simp] theorem State.goto_out (s : State) (p : Phase) : (s.goto p).out = s.out := rfl
@[simp] theorem State.goto_dir (s : State) (p : Phase) : (s.goto p).dir = s.dir := rfl
@[simp] theorem State.goto_args (s : State) (p : Phase) : (s.goto p).args = s.args := rfl
@[simp] theorem State.goto_list (s : State) (p : Phase) : (s.goto p).list = s.list := rfl
@[simp] theorem State.goto_resIdx (s : State) (p : Phase) : (s.goto p).resIdx = s.resIdx := rfl
@[simp] theorem State.goto_listIdx (s : State) (p : Phase) : (s.goto p).listIdx = s.listIdx := rfl
@[simp] theorem State.goto_lat (s : State) (p : Phase) : (s.goto p).lat = s.lat := rfl
@[simp] theorem State.goto_sh (s : State) (p : Phase) : (s.goto p).sh = s.sh := rfl
@[simp] theorem State.goto_phase (s : State) (p : Phase) : (s.goto p).phase = p := rfl
@[simp] theorem State.goto_wordIdx (s : State) (p : Phase) : (s.goto p).wordIdx = s.wordIdx := rfl
@[simp] theorem State.goto_ostep (s : State) (p : Phase) : (s.goto p).ostep = s.ostep := rfl
@[simp] theorem State.goto_res (s : State) (p : Phase) : (s.goto p).res = s.res := rfl
@[simp] theorem State.goto_err (s : State) (p : Phase) : (s.goto p).err = s.err := rfl
@[simp] theorem State.goto_run (s : State) (p : Phase) : (s.goto p).run = s.run := rfl
@[simp] theorem State.goto_params (s : State) (p : Phase) : (s.goto p).params = s.params := rfl
@[simp] theorem State.goto_env (s : State) (p : Phase) : (s.goto p).env = s.env := rfl
@[simp] theorem State.goto_inputs (s : State) (p : Phase) : (s.goto p).inputs = s.inputs := rfl
@[simp] theorem State.goto_trace (s : State) (p : Phase) : (s.goto p).trace = s.trace := rfl
@[simp] theorem State.goto_reads (s : State) (p : Phase) : (s.goto p).reads = s.reads := rfl

/-! `State.pinWrite`. -/

@[simp] theorem State.pinWrite_cfg (s : State) (p : OutPin) (b : Level) :
    (s.pinWrite p b).cfg = s.cfg := rfl
@[simp] theorem State.pinWrite_out (s : State) (p : OutPin) (b : Level) :
    (s.pinWrite p b).out = s.out.put b p := rfl
@[simp] theorem State.pinWrite_dir (s : State) (p : OutPin) (b : Level) :
    (s.pinWrite p b).dir = s.dir := rfl
@[simp] theorem State.pinWrite_args (s : State) (p : OutPin) (b : Level) :
    (s.pinWrite p b).args = s.args := rfl
@[simp] theorem State.pinWrite_list (s : State) (p : OutPin) (b : Level) :
    (s.pinWrite p b).list = s.list := rfl
@[simp] theorem State.pinWrite_resIdx (s : State) (p : OutPin) (b : Level) :
    (s.pinWrite p b).resIdx = s.resIdx := rfl
@[simp] theorem State.pinWrite_listIdx (s : State) (p : OutPin) (b : Level) :
    (s.pinWrite p b).listIdx = s.listIdx := rfl
@[simp] theorem State.pinWrite_lat (s : State) (p : OutPin) (b : Level) :
    (s.pinWrite p b).lat = s.lat := rfl
@[simp] theorem State.pinWrite_sh (s : State) (p : OutPin) (b : Level) :
    (s.pinWrite p b).sh = s.sh := rfl
@[simp] theorem State.pinWrite_phase (s : State) (p : OutPin) (b : Level) :
    (s.pinWrite p b).phase = s.phase := rfl
@[simp] theorem State.pinWrite_wordIdx (s : State) (p : OutPin) (b : Level) :
    (s.pinWrite p b).wordIdx = s.wordIdx := rfl
@[simp] theorem State.pinWrite_ostep (s : State) (p : OutPin) (b : Level) :
    (s.pinWrite p b).ostep = s.ostep := rfl
@[simp] theorem State.pinWrite_res (s : State) (p : OutPin) (b : Level) :
    (s.pinWrite p b).res = s.res := rfl
@[simp] theorem State.pinWrite_err (s : State) (p : OutPin) (b : Level) :
    (s.pinWrite p b).err = s.err := rfl
@[simp] theorem State.pinWrite_run (s : State) (p : OutPin) (b : Level) :
    (s.pinWrite p b).run = s.run := rfl
@[simp] theorem State.pinWrite_params (s : State) (p : OutPin) (b : Level) :
    (s.pinWrite p b).params = s.params := rfl
@[simp] theorem State.pinWrite_env (s : State) (p : OutPin) (b : Level) :
    (s.pinWrite p b).env = s.env := rfl
@[simp] theorem State.pinWrite_inputs (s : State) (p : OutPin) (b : Level) :
    (s.pinWrite p b).inputs = s.inputs := rfl
@[simp] theorem State.pinWrite_trace (s : State) (p : OutPin) (b : Level) :
    (s.pinWrite p b).trace = s.trace ++ [.write p b] := rfl
@[simp] theorem State.pinWrite_reads (s : State) (p : OutPin) (b : Level) :
    (s.pinWrite p b).reads = s.reads := rfl

/-! `State.pinRead`. -/

@[simp] theorem State.pinRead_cfg (s : State) (p : InPin) : (s.pinRead p).cfg = s.cfg := rfl
@[simp] theorem State.pinRead_out (s : State) (p : InPin) : (s.pinRead p).out = s.out := rfl
@[simp] theorem State.pinRead_dir (s : State) (p : InPin) : (s.pinRead p).dir = s.dir := rfl
@[simp] theorem State.pinRead_args (s : State) (p : InPin) : (s.pinRead p).args = s.args := rfl
@[simp] theorem State.pinRead_list (s : State) (p : InPin) : (s.pinRead p).list = s.list := rfl
@[simp] theorem State.pinRead_resIdx (s : State) (p : InPin) :
    (s.pinRead p).resIdx = s.resIdx := rfl
@[simp] theorem State.pinRead_listIdx (s : State) (p : InPin) :
    (s.pinRead p).listIdx = s.listIdx := rfl
@[simp] theorem State.pinRead_lat (s : State) (p : InPin) : (s.pinRead p).lat = s.lat := rfl
@[simp] theorem State.pinRead_sh (s : State) (p : InPin) : (s.pinRead p).sh = s.sh := rfl
@[simp] theorem State.pinRead_phase (s : State) (p : InPin) : (s.pinRead p).phase = s.phase := rfl
@[simp] theorem State.pinRead_wordIdx (s : State) (p : InPin) :
    (s.pinRead p).wordIdx = s.wordIdx := rfl
@[simp] theorem State.pinRead_ostep (s : State) (p : InPin) : (s.pinRead p).ostep = s.ostep := rfl
@[simp] theorem State.pinRead_res (s : State) (p : InPin) : (s.pinRead p).res = s.res := rfl
@[simp] theorem State.pinRead_err (s : State) (p : InPin) : (s.pinRead p).err = s.err := rfl
@[simp] theorem State.pinRead_run (s : State) (p : InPin) : (s.pinRead p).run = s.run := rfl
@[simp] theorem State.pinRead_params (s : State) (p : InPin) :
    (s.pinRead p).params = s.params := rfl
@[simp] theorem State.pinRead_env (s : State) (p : InPin) :
    (s.pinRead p).env = s.env.afterRead p := rfl
@[simp] theorem State.pinRead_inputs (s : State) (p : InPin) :
    (s.pinRead p).inputs = s.inputs := rfl
@[simp] theorem State.pinRead_trace (s : State) (p : InPin) :
    (s.pinRead p).trace = s.trace ++ [.read p (s.nextLevel p)] := rfl
@[simp] theorem State.pinRead_reads (s : State) (p : InPin) : (s.pinRead p).reads = s.reads := rfl

/-! `State.pinDir`. -/

@[simp] theorem State.pinDir_cfg (s : State) (p : Pin) (d : Direction) :
    (s.pinDir p d).cfg = s.cfg := rfl
@[simp] theorem State.pinDir_out (s : State) (p : Pin) (d : Direction) :
    (s.pinDir p d).out = s.out := rfl
@[simp] theorem State.pinDir_dir (s : State) (p : Pin) (d : Direction) :
    (s.pinDir p d).dir = s.dir.put d p := rfl
@[simp] theorem State.pinDir_args (s : State) (p : Pin) (d : Direction) :
    (s.pinDir p d).args = s.args := rfl
@[simp] theorem State.pinDir_list (s : State) (p : Pin) (d : Direction) :
    (s.pinDir p d).list = s.list := rfl
@[simp] theorem State.pinDir_resIdx (s : State) (p : Pin) (d : Direction) :
    (s.pinDir p d).resIdx = s.resIdx := rfl
@[simp] theorem State.pinDir_listIdx (s : State) (p : Pin) (d : Direction) :
    (s.pinDir p d).listIdx = s.listIdx := rfl
@[simp] theorem State.pinDir_lat (s : State) (p : Pin) (d : Direction) :
    (s.pinDir p d).lat = s.lat := rfl
@[simp] theorem State.pinDir_sh (s : State) (p : Pin) (d : Direction) :
    (s.pinDir p d).sh = s.sh := rfl
@[simp] theorem State.pinDir_phase (s : State) (p : Pin) (d : Direction) :
    (s.pinDir p d).phase = s.phase := rfl
@[simp] theorem State.pinDir_wordIdx (s : State) (p : Pin) (d : Direction) :
    (s.pinDir p d).wordIdx = s.wordIdx := rfl
@[simp] theorem State.pinDir_ostep (s : State) (p : Pin) (d : Direction) :
    (s.pinDir p d).ostep = s.ostep := rfl
@[simp] theorem State.pinDir_res (s : State) (p : Pin) (d : Direction) :
    (s.pinDir p d).res = s.res := rfl
@[simp] theorem State.pinDir_err (s : State) (p : Pin) (d : Direction) :
    (s.pinDir p d).err = s.err := rfl
@[simp] theorem State.pinDir_run (s : State) (p : Pin) (d : Direction) :
    (s.pinDir p d).run = s.run := rfl
@[simp] theorem State.pinDir_params (s : State) (p : Pin) (d : Direction) :
    (s.pinDir p d).params = s.params := rfl
@[simp] theorem State.pinDir_env (s : State) (p : Pin) (d : Direction) :
    (s.pinDir p d).env = s.env := rfl
@[simp] theorem State.pinDir_inputs (s : State) (p : Pin) (d : Direction) :
    (s.pinDir p d).inputs = s.inputs := rfl
@[simp] theorem State.pinDir_trace (s : State) (p : Pin) (d : Direction) :
    (s.pinDir p d).trace = s.trace ++ [.dir p d] := rfl
@[simp] theorem State.pinDir_reads (s : State) (p : Pin) (d : Direction) :
    (s.pinDir p d).reads = s.reads := rfl

/-! `State.pinInit`. -/

@[simp] theorem State.pinInit_cfg (s : State) : (s.pinInit).cfg = s.cfg := rfl
@[simp] theorem State.pinInit_out (s : State) : (s.pinInit).out = s.out := rfl
@[simp] theorem State.pinInit_dir (s : State) : (s.pinInit).dir = s.dir := rfl
@[simp] theorem State.pinInit_args (s : State) : (s.pinInit).args = s.args := rfl
@[simp] theorem State.pinInit_list (s : State) : (s.pinInit).list = s.list := rfl
@[simp] theorem State.pinInit_resIdx (s : State) : (s.pinInit).resIdx = s.resIdx := rfl
@[simp] theorem State.pinInit_listIdx (s : State) : (s.pinInit).listIdx = s.listIdx := rfl
@[simp] theorem State.pinInit_lat (s : State) : (s.pinInit).lat = s.lat := rfl
@[simp] theorem State.pinInit_sh (s : State) : (s.pinInit).sh = s.sh := rfl
@[simp] theorem State.pinInit_phase (s : State) : (s.pinInit).phase = s.phase := rfl
@[simp] theorem State.pinInit_wordIdx (s : State) : (s.pinInit).wordIdx = s.wordIdx := rfl
@[simp] theorem State.pinInit_ostep (s : State) : (s.pinInit).ostep = s.ostep := rfl
@[simp] theorem State.pinInit_res (s : State) : (s.pinInit).res = s.res := rfl
@[simp] theorem State.pinInit_err (s : State) : (s.pinInit).err = s.err := rfl
@[simp] theorem State.pinInit_run (s : State) : (s.pinInit).run = s.run := rfl
@[simp] theorem State.pinInit_params (s : State) : (s.pinInit).params = s.params := rfl
@[simp] theorem State.pinInit_env (s : State) :
    (s.pinInit).env = { s.env with init := s.env.init.drop1 } := rfl
@[simp] theorem State.pinInit_inputs (s : State) : (s.pinInit).inputs = s.inputs := rfl
@[simp] theorem State.pinInit_trace (s : State) :
    (s.pinInit).trace = s.trace ++ [.init s.nextReady] := rfl
@[simp] theorem State.pinInit_reads (s : State) : (s.pinInit).reads = s.reads := rfl

/-! `State.pinTerm`. -/

@[simp] theorem State.pinTerm_cfg (s : State) : (s.pinTerm).cfg = s.cfg := rfl
@[simp] theorem State.pinTerm_out (s : State) : (s.pinTerm).out = s.out := rfl
@[simp] theorem State.pinTerm_dir (s : State) : (s.pinTerm).dir = s.dir := rfl
@[simp] theorem State.pinTerm_args (s : State) : (s.pinTerm).args = s.args := rfl
@[simp] theorem State.pinTerm_list (s : State) : (s.pinTerm).list = s.list := rfl
@[simp] theorem State.pinTerm_resIdx (s : State) : (s.pinTerm).resIdx = s.resIdx := rfl
@[simp] theorem State.pinTerm_listIdx (s : State) : (s.pinTerm).listIdx = s.listIdx := rfl
@[simp] theorem State.pinTerm_lat (s : State) : (s.pinTerm).lat = s.lat := rfl
@[simp] theorem State.pinTerm_sh (s : State) : (s.pinTerm).sh = s.sh := rfl
@[simp] theorem State.pinTerm_phase (s : State) : (s.pinTerm).phase = s.phase := rfl
@[simp] theorem State.pinTerm_wordIdx (s : State) : (s.pinTerm).wordIdx = s.wordIdx := rfl
@[simp] theorem State.pinTerm_ostep (s : State) : (s.pinTerm).ostep = s.ostep := rfl
@[simp] theorem State.pinTerm_res (s : State) : (s.pinTerm).res = s.res := rfl
@[simp] theorem State.pinTerm_err (s : State) : (s.pinTerm).err = s.err := rfl
@[simp] theorem State.pinTerm_run (s : State) : (s.pinTerm).run = s.run := rfl
@[simp] theorem State.pinTerm_params (s : State) : (s.pinTerm).params = s.params := rfl
@[simp] theorem State.pinTerm_env (s : State) : (s.pinTerm).env = s.env := rfl
@[simp] theorem State.pinTerm_inputs (s : State) : (s.pinTerm).inputs = s.inputs := rfl
@[simp] theorem State.pinTerm_trace (s : State) : (s.pinTerm).trace = s.trace ++ [.term] := rfl
@[simp] theorem State.pinTerm_reads (s : State) : (s.pinTerm).reads = s.reads := rfl

/-! `State.issue`. -/

@[simp] theorem State.issue_cfg (s : State) (w : Word) : (s.issue w).cfg = s.cfg := rfl
@[simp] theorem State.issue_out (s : State) (w : Word) : (s.issue w).out = s.out := rfl
@[simp] theorem State.issue_dir (s : State) (w : Word) : (s.issue w).dir = s.dir := rfl
@[simp] theorem State.issue_args (s : State) (w : Word) : (s.issue w).args = s.args := rfl
@[simp] theorem State.issue_list (s : State) (w : Word) : (s.issue w).list = s.list := rfl
@[simp] theorem State.issue_resIdx (s : State) (w : Word) : (s.issue w).resIdx = s.resIdx := rfl
@[simp] theorem State.issue_listIdx (s : State) (w : Word) : (s.issue w).listIdx = s.listIdx := rfl
@[simp] theorem State.issue_lat (s : State) (w : Word) : (s.issue w).lat = latched w s.args := rfl
@[simp] theorem State.issue_sh (s : State) (w : Word) : (s.issue w).sh = s.sh := rfl
@[simp] theorem State.issue_phase (s : State) (w : Word) : (s.issue w).phase = .check := rfl
@[simp] theorem State.issue_wordIdx (s : State) (w : Word) : (s.issue w).wordIdx = s.wordIdx := rfl
@[simp] theorem State.issue_ostep (s : State) (w : Word) : (s.issue w).ostep = s.ostep := rfl
@[simp] theorem State.issue_res (s : State) (w : Word) : (s.issue w).res = [] := rfl
@[simp] theorem State.issue_err (s : State) (w : Word) : (s.issue w).err = 0#3 := rfl
@[simp] theorem State.issue_run (s : State) (w : Word) : (s.issue w).run = true := rfl
@[simp] theorem State.issue_params (s : State) (w : Word) : (s.issue w).params = s.params := rfl
@[simp] theorem State.issue_env (s : State) (w : Word) : (s.issue w).env = s.env := rfl
@[simp] theorem State.issue_inputs (s : State) (w : Word) : (s.issue w).inputs = s.inputs := rfl
@[simp] theorem State.issue_trace (s : State) (w : Word) : (s.issue w).trace = s.trace := rfl
@[simp] theorem State.issue_reads (s : State) (w : Word) : (s.issue w).reads = s.reads := rfl

/-! `State.reject`. -/

@[simp] theorem State.reject_cfg (s : State) (e : ErrorKind) : (s.reject e).cfg = s.cfg := rfl
@[simp] theorem State.reject_out (s : State) (e : ErrorKind) : (s.reject e).out = s.out := rfl
@[simp] theorem State.reject_dir (s : State) (e : ErrorKind) : (s.reject e).dir = s.dir := rfl
@[simp] theorem State.reject_args (s : State) (e : ErrorKind) : (s.reject e).args = s.args := rfl
@[simp] theorem State.reject_list (s : State) (e : ErrorKind) : (s.reject e).list = s.list := rfl
@[simp] theorem State.reject_resIdx (s : State) (e : ErrorKind) :
    (s.reject e).resIdx = s.resIdx := rfl
@[simp] theorem State.reject_listIdx (s : State) (e : ErrorKind) :
    (s.reject e).listIdx = s.listIdx := rfl
@[simp] theorem State.reject_lat (s : State) (e : ErrorKind) : (s.reject e).lat = s.lat := rfl
@[simp] theorem State.reject_sh (s : State) (e : ErrorKind) : (s.reject e).sh = s.sh := rfl
@[simp] theorem State.reject_phase (s : State) (e : ErrorKind) : (s.reject e).phase = .finish := rfl
@[simp] theorem State.reject_wordIdx (s : State) (e : ErrorKind) :
    (s.reject e).wordIdx = s.wordIdx := rfl
@[simp] theorem State.reject_ostep (s : State) (e : ErrorKind) : (s.reject e).ostep = s.ostep := rfl
@[simp] theorem State.reject_res (s : State) (e : ErrorKind) : (s.reject e).res = [] := rfl
@[simp] theorem State.reject_err (s : State) (e : ErrorKind) : (s.reject e).err = errorCode e := rfl
@[simp] theorem State.reject_run (s : State) (e : ErrorKind) : (s.reject e).run = s.run := rfl
@[simp] theorem State.reject_params (s : State) (e : ErrorKind) :
    (s.reject e).params = s.params := rfl
@[simp] theorem State.reject_env (s : State) (e : ErrorKind) : (s.reject e).env = s.env := rfl
@[simp] theorem State.reject_inputs (s : State) (e : ErrorKind) :
    (s.reject e).inputs = s.inputs := rfl
@[simp] theorem State.reject_trace (s : State) (e : ErrorKind) : (s.reject e).trace = s.trace := rfl
@[simp] theorem State.reject_reads (s : State) (e : ErrorKind) : (s.reject e).reads = s.reads := rfl

/-! `State.finish`. -/

@[simp] theorem State.finish_cfg (s : State) : (s.finish).cfg = s.cfg := rfl
@[simp] theorem State.finish_out (s : State) : (s.finish).out = s.out := rfl
@[simp] theorem State.finish_dir (s : State) : (s.finish).dir = s.dir := rfl
@[simp] theorem State.finish_args (s : State) : (s.finish).args = s.args := rfl
@[simp] theorem State.finish_list (s : State) : (s.finish).list = s.list := rfl
@[simp] theorem State.finish_resIdx (s : State) : (s.finish).resIdx = s.resIdx := rfl
@[simp] theorem State.finish_listIdx (s : State) : (s.finish).listIdx = s.listIdx := rfl
@[simp] theorem State.finish_lat (s : State) : (s.finish).lat = s.lat := rfl
@[simp] theorem State.finish_sh (s : State) : (s.finish).sh = s.sh := rfl
@[simp] theorem State.finish_phase (s : State) : (s.finish).phase = .idle := rfl
@[simp] theorem State.finish_wordIdx (s : State) : (s.finish).wordIdx = s.wordIdx := rfl
@[simp] theorem State.finish_ostep (s : State) : (s.finish).ostep = s.ostep := rfl
@[simp] theorem State.finish_res (s : State) : (s.finish).res = s.res := rfl
@[simp] theorem State.finish_err (s : State) : (s.finish).err = s.err := rfl
@[simp] theorem State.finish_run (s : State) : (s.finish).run = false := rfl
@[simp] theorem State.finish_params (s : State) : (s.finish).params = s.params := rfl
@[simp] theorem State.finish_env (s : State) : (s.finish).env = s.env := rfl
@[simp] theorem State.finish_inputs (s : State) : (s.finish).inputs = s.inputs := rfl
@[simp] theorem State.finish_trace (s : State) : (s.finish).trace = s.trace := rfl
@[simp] theorem State.finish_reads (s : State) : (s.finish).reads = s.reads := rfl

/-! `State.deliver`. -/

@[simp] theorem State.deliver_cfg (s : State) (a b : Word) : (s.deliver a b).cfg = s.cfg := rfl
@[simp] theorem State.deliver_out (s : State) (a b : Word) : (s.deliver a b).out = s.out := rfl
@[simp] theorem State.deliver_dir (s : State) (a b : Word) : (s.deliver a b).dir = s.dir := rfl
@[simp] theorem State.deliver_args (s : State) (a b : Word) : (s.deliver a b).args = s.args := rfl
@[simp] theorem State.deliver_list (s : State) (a b : Word) : (s.deliver a b).list = s.list := rfl
@[simp] theorem State.deliver_resIdx (s : State) (a b : Word) :
    (s.deliver a b).resIdx = s.resIdx := rfl
@[simp] theorem State.deliver_listIdx (s : State) (a b : Word) :
    (s.deliver a b).listIdx = s.listIdx := rfl
@[simp] theorem State.deliver_lat (s : State) (a b : Word) : (s.deliver a b).lat = s.lat := rfl
@[simp] theorem State.deliver_sh (s : State) (a b : Word) : (s.deliver a b).sh = s.sh := rfl
@[simp] theorem State.deliver_phase (s : State) (a b : Word) :
    (s.deliver a b).phase = s.phase := rfl
@[simp] theorem State.deliver_wordIdx (s : State) (a b : Word) :
    (s.deliver a b).wordIdx = s.wordIdx := rfl
@[simp] theorem State.deliver_ostep (s : State) (a b : Word) :
    (s.deliver a b).ostep = s.ostep := rfl
@[simp] theorem State.deliver_res (s : State) (a b : Word) :
    (s.deliver a b).res = s.res ++ [⟨a, b⟩] := rfl
@[simp] theorem State.deliver_err (s : State) (a b : Word) : (s.deliver a b).err = s.err := rfl
@[simp] theorem State.deliver_run (s : State) (a b : Word) : (s.deliver a b).run = s.run := rfl
@[simp] theorem State.deliver_params (s : State) (a b : Word) :
    (s.deliver a b).params = s.params := rfl
@[simp] theorem State.deliver_env (s : State) (a b : Word) : (s.deliver a b).env = s.env := rfl
@[simp] theorem State.deliver_inputs (s : State) (a b : Word) :
    (s.deliver a b).inputs = s.inputs := rfl
@[simp] theorem State.deliver_trace (s : State) (a b : Word) :
    (s.deliver a b).trace = s.trace := rfl
@[simp] theorem State.deliver_reads (s : State) (a b : Word) :
    (s.deliver a b).reads = s.reads := rfl

/-! `State.loadWord`. -/

@[simp] theorem State.loadWord_cfg (s : State) (wide : Bool) (w : Word) :
    (s.loadWord wide w).cfg = s.cfg := rfl
@[simp] theorem State.loadWord_out (s : State) (wide : Bool) (w : Word) :
    (s.loadWord wide w).out = s.out := rfl
@[simp] theorem State.loadWord_dir (s : State) (wide : Bool) (w : Word) :
    (s.loadWord wide w).dir = s.dir := rfl
@[simp] theorem State.loadWord_args (s : State) (wide : Bool) (w : Word) :
    (s.loadWord wide w).args = s.args := rfl
@[simp] theorem State.loadWord_list (s : State) (wide : Bool) (w : Word) :
    (s.loadWord wide w).list = s.list := rfl
@[simp] theorem State.loadWord_resIdx (s : State) (wide : Bool) (w : Word) :
    (s.loadWord wide w).resIdx = s.resIdx := rfl
@[simp] theorem State.loadWord_listIdx (s : State) (wide : Bool) (w : Word) :
    (s.loadWord wide w).listIdx = s.listIdx := rfl
@[simp] theorem State.loadWord_lat (s : State) (wide : Bool) (w : Word) :
    (s.loadWord wide w).lat = s.lat := rfl
@[simp] theorem State.loadWord_sh (s : State) (wide : Bool) (w : Word) :
    (s.loadWord wide w).sh = ⟨w, 0#32, 0#32, wide, 0#5⟩ := rfl
@[simp] theorem State.loadWord_phase (s : State) (wide : Bool) (w : Word) :
    (s.loadWord wide w).phase = s.phase := rfl
@[simp] theorem State.loadWord_wordIdx (s : State) (wide : Bool) (w : Word) :
    (s.loadWord wide w).wordIdx = s.wordIdx := rfl
@[simp] theorem State.loadWord_ostep (s : State) (wide : Bool) (w : Word) :
    (s.loadWord wide w).ostep = s.ostep := rfl
@[simp] theorem State.loadWord_res (s : State) (wide : Bool) (w : Word) :
    (s.loadWord wide w).res = s.res := rfl
@[simp] theorem State.loadWord_err (s : State) (wide : Bool) (w : Word) :
    (s.loadWord wide w).err = s.err := rfl
@[simp] theorem State.loadWord_run (s : State) (wide : Bool) (w : Word) :
    (s.loadWord wide w).run = s.run := rfl
@[simp] theorem State.loadWord_params (s : State) (wide : Bool) (w : Word) :
    (s.loadWord wide w).params = s.params := rfl
@[simp] theorem State.loadWord_env (s : State) (wide : Bool) (w : Word) :
    (s.loadWord wide w).env = s.env := rfl
@[simp] theorem State.loadWord_inputs (s : State) (wide : Bool) (w : Word) :
    (s.loadWord wide w).inputs = s.inputs := rfl
@[simp] theorem State.loadWord_trace (s : State) (wide : Bool) (w : Word) :
    (s.loadWord wide w).trace = s.trace := rfl
@[simp] theorem State.loadWord_reads (s : State) (wide : Bool) (w : Word) :
    (s.loadWord wide w).reads = s.reads := rfl

/-! `State.takeTurn`. -/

@[simp] theorem State.takeTurn_cfg (s : State) : s.takeTurn.cfg = s.cfg := by
  unfold State.takeTurn; split <;> rfl
@[simp] theorem State.takeTurn_out (s : State) : s.takeTurn.out = s.out := by
  unfold State.takeTurn; split <;> rfl
@[simp] theorem State.takeTurn_dir (s : State) : s.takeTurn.dir = s.dir := by
  unfold State.takeTurn; split <;> rfl
@[simp] theorem State.takeTurn_args (s : State) : s.takeTurn.args = s.args := by
  unfold State.takeTurn; split <;> rfl
@[simp] theorem State.takeTurn_list (s : State) : s.takeTurn.list = s.list := by
  unfold State.takeTurn; split <;> rfl
@[simp] theorem State.takeTurn_resIdx (s : State) : s.takeTurn.resIdx = s.resIdx := by
  unfold State.takeTurn; split <;> rfl
@[simp] theorem State.takeTurn_listIdx (s : State) : s.takeTurn.listIdx = s.listIdx := by
  unfold State.takeTurn; split <;> rfl
@[simp] theorem State.takeTurn_lat (s : State) : s.takeTurn.lat = s.lat := by
  unfold State.takeTurn; split <;> rfl
@[simp] theorem State.takeTurn_sh (s : State) : s.takeTurn.sh = s.sh := by
  unfold State.takeTurn; split <;> rfl
@[simp] theorem State.takeTurn_phase (s : State) : s.takeTurn.phase = s.phase := by
  unfold State.takeTurn; split <;> rfl
@[simp] theorem State.takeTurn_wordIdx (s : State) : s.takeTurn.wordIdx = s.wordIdx := by
  unfold State.takeTurn; split <;> rfl
@[simp] theorem State.takeTurn_ostep (s : State) : s.takeTurn.ostep = s.ostep := by
  unfold State.takeTurn; split <;> rfl
@[simp] theorem State.takeTurn_res (s : State) : s.takeTurn.res = s.res := by
  unfold State.takeTurn; split <;> rfl
@[simp] theorem State.takeTurn_err (s : State) : s.takeTurn.err = s.err := by
  unfold State.takeTurn; split <;> rfl
@[simp] theorem State.takeTurn_run (s : State) : s.takeTurn.run = s.run := by
  unfold State.takeTurn; split <;> rfl
@[simp] theorem State.takeTurn_params (s : State) : s.takeTurn.params = s.params := by
  unfold State.takeTurn; split <;> rfl
@[simp] theorem State.takeTurn_env (s : State) : s.takeTurn.env = s.env := by
  unfold State.takeTurn; split <;> rfl
@[simp] theorem State.takeTurn_trace (s : State) : s.takeTurn.trace = s.trace := by
  unfold State.takeTurn; split <;> rfl
@[simp] theorem State.takeTurn_reads (s : State) : s.takeTurn.reads = s.reads := by
  unfold State.takeTurn; split <;> rfl

/-- With nothing pending the engine's turn changes nothing. -/
theorem State.takeTurn_of_no_input {s : State} (h : s.inputs = []) : s.takeTurn = s := by
  unfold State.takeTurn; rw [h]

/-- With nothing pending no input is due. -/
theorem State.inputDue_of_no_input {s : State} (h : s.inputs = []) : s.inputDue = false := by
  unfold State.inputDue; rw [h]

end Sys2Proof.Machine
end

