-- ==== Sys2Proof/Laws/Engine.lean ====
section
/-! SUPPORT. What the shared operations can do, said once: the pin latches, the environment's
streams, one micro-step of the engine, and a whole word of the transport. -/

namespace Sys2Proof.Machine

/-! Pins. -/

/-- The latch written reads as written; every other keeps its level (10_state.md R26). -/
theorem OutLatches.get_put (o : OutLatches) (b : Level) (p q : OutPin) :
    (o.put b p).get q = if q = p then b else o.get q := by
  cases p <;> cases q <;> rfl

@[simp] theorem OutLatches.put_put (o : OutLatches) (b c : Level) (p : OutPin) :
    (o.put b p).put c p = o.put c p := by
  cases p <;> rfl

/-- The direction set reads as set; every other stays (10_state.md R26). -/
theorem Directions.get_put (t : Directions) (d : Direction) (p q : Pin) :
    (t.put d p).get q = if q = p then .set d else t.get q := by
  rcases p with p | p <;> rcases q with q | q <;> cases p <;> cases q <;> rfl

/-- During the set-up of OPEN the pins are those of its operands (40_handle.md R120). -/
theorem State.pinId_setup {s : State} (h : s.phase = .oSetup) (p : Pin) :
    s.pinId p = roleId (opnBus s.lat.opn) (opnDev s.lat.opn) p := by
  simp [State.pinId, State.selected, h]

/-- At every other phase the pins are those of the handle (10_state.md R22). -/
theorem State.pinId_handle {s : State} (h : s.phase ≠ .oSetup) (p : Pin) :
    s.pinId p = roleId s.cfg.bus s.cfg.dev p := by
  simp [State.pinId, State.selected, h]

/-! The environment's streams. -/

/-- Taking one answer moves every coming answer one place forward. -/
@[simp] theorem Answers.nth_drop1 (src : Config.Source) (q : Answers) (n : Nat) :
    q.drop1.nth src n = q.nth src (n + 1) := by
  rcases q with ⟨script, drawn⟩
  cases script with
  | nil => simp [Answers.drop1, Answers.nth]; congr 1; omega
  | cons b rest => simp [Answers.drop1, Answers.nth]; rfl

/-- Reading a pin moves its own answers forward and no other pin's. -/
theorem State.comingLevel_pinRead (s : State) (p q : InPin) (n : Nat) :
    (s.pinRead p).comingLevel q n = s.comingLevel q (if q = p then n + 1 else n) := by
  cases p <;> cases q <;> simp [State.comingLevel, State.pinRead, Env.afterRead]

/-! One micro-step. -/

/-- The engine takes a turn exactly when no input is due. -/
theorem State.takeTurn_inputs (s : State) :
    s.takeTurn.inputs = s.inputs ∨ ∃ rest, s.inputs = .turn :: rest ∧ s.takeTurn.inputs = rest := by
  unfold State.takeTurn
  split
  · exact .inr ⟨_, by assumption, rfl⟩
  · exact .inl rfl

theorem runEngine_zero (stop : State → Bool) (p : Plan) (s : State) :
    runEngine stop p 0 s = s := rfl

/-- The engine stands still once its command has ended. -/
theorem runEngine_stopped {stop : State → Bool} {p : Plan} {s : State} (n : Nat)
    (h : stop s = true) : runEngine stop p n s = s := by
  cases n with
  | zero => rfl
  | succ n => simp [runEngine, h]

/-- With nothing pending, a phase other than the poll is performed and the engine goes on. -/
theorem runEngine_phase {stop : State → Bool} {p : Plan} {s : State} {n : Nat}
    (hi : s.inputs = []) (hs : stop s = false) (hp : s.phase ≠ .hPoll) :
    runEngine stop p (n + 1) s = runEngine stop p n (phaseStep p s) := by
  simp [runEngine, hs, hp, State.inputDue_of_no_input hi, microStep, State.takeTurn_of_no_input hi]

/-- With nothing pending, a poll that reads busy ends the step and stays (42 R151). -/
theorem runEngine_poll_busy {stop : State → Bool} {p : Plan} {s : State} {n : Nat}
    (hi : s.inputs = []) (hs : stop s = false) (hp : s.phase = .hPoll)
    (hb : s.nextLevel .busy ≠ s.params.busyIdle) :
    runEngine stop p (n + 1) s = s.pinRead .busy := by
  simp [runEngine, hs, State.inputDue_of_no_input hi, microStep, State.takeTurn_of_no_input hi,
    phaseStep, hp, phasePoll, hb]

/-- With nothing pending, a poll that reads idle lets the command go on (42 R151). -/
theorem runEngine_poll_idle {stop : State → Bool} {p : Plan} {s : State} {n : Nat}
    (hi : s.inputs = []) (hs : stop s = false) (hp : s.phase = .hPoll)
    (hb : s.nextLevel .busy = s.params.busyIdle)
    (ha : (p.afterPoll (s.pinRead .busy)).phase ≠ .hPoll) :
    runEngine stop p (n + 1) s = runEngine stop p n (p.afterPoll (s.pinRead .busy)) := by
  simp [runEngine, hs, State.inputDue_of_no_input hi, microStep, State.takeTurn_of_no_input hi,
    phaseStep, hp, phasePoll, hb, ha]

/-! The pin set-up of OPEN. -/

@[simp] theorem setupEvent_cfg (k : Nat) (d : Bool) (s : State) :
    (setupEvent k d s).cfg = s.cfg := by
  unfold setupEvent; split <;> (try split) <;> rfl
@[simp] theorem setupEvent_args (k : Nat) (d : Bool) (s : State) :
    (setupEvent k d s).args = s.args := by
  unfold setupEvent; split <;> (try split) <;> rfl
@[simp] theorem setupEvent_list (k : Nat) (d : Bool) (s : State) :
    (setupEvent k d s).list = s.list := by
  unfold setupEvent; split <;> (try split) <;> rfl
@[simp] theorem setupEvent_resIdx (k : Nat) (d : Bool) (s : State) :
    (setupEvent k d s).resIdx = s.resIdx := by
  unfold setupEvent; split <;> (try split) <;> rfl
@[simp] theorem setupEvent_listIdx (k : Nat) (d : Bool) (s : State) :
    (setupEvent k d s).listIdx = s.listIdx := by
  unfold setupEvent; split <;> (try split) <;> rfl
@[simp] theorem setupEvent_lat (k : Nat) (d : Bool) (s : State) :
    (setupEvent k d s).lat = s.lat := by
  unfold setupEvent; split <;> (try split) <;> rfl
@[simp] theorem setupEvent_sh (k : Nat) (d : Bool) (s : State) :
    (setupEvent k d s).sh = s.sh := by
  unfold setupEvent; split <;> (try split) <;> rfl
@[simp] theorem setupEvent_phase (k : Nat) (d : Bool) (s : State) :
    (setupEvent k d s).phase = s.phase := by
  unfold setupEvent; split <;> (try split) <;> rfl
@[simp] theorem setupEvent_wordIdx (k : Nat) (d : Bool) (s : State) :
    (setupEvent k d s).wordIdx = s.wordIdx := by
  unfold setupEvent; split <;> (try split) <;> rfl
@[simp] theorem setupEvent_ostep (k : Nat) (d : Bool) (s : State) :
    (setupEvent k d s).ostep = s.ostep := by
  unfold setupEvent; split <;> (try split) <;> rfl
@[simp] theorem setupEvent_res (k : Nat) (d : Bool) (s : State) :
    (setupEvent k d s).res = s.res := by
  unfold setupEvent; split <;> (try split) <;> rfl
@[simp] theorem setupEvent_err (k : Nat) (d : Bool) (s : State) :
    (setupEvent k d s).err = s.err := by
  unfold setupEvent; split <;> (try split) <;> rfl
@[simp] theorem setupEvent_run (k : Nat) (d : Bool) (s : State) :
    (setupEvent k d s).run = s.run := by
  unfold setupEvent; split <;> (try split) <;> rfl
@[simp] theorem setupEvent_params (k : Nat) (d : Bool) (s : State) :
    (setupEvent k d s).params = s.params := by
  unfold setupEvent; split <;> (try split) <;> rfl
@[simp] theorem setupEvent_env (k : Nat) (d : Bool) (s : State) :
    (setupEvent k d s).env = s.env := by
  unfold setupEvent; split <;> (try split) <;> rfl
@[simp] theorem setupEvent_inputs (k : Nat) (d : Bool) (s : State) :
    (setupEvent k d s).inputs = s.inputs := by
  unfold setupEvent; split <;> (try split) <;> rfl
@[simp] theorem setupEvent_reads (k : Nat) (d : Bool) (s : State) :
    (setupEvent k d s).reads = s.reads := by
  unfold setupEvent; split <;> (try split) <;> rfl

/-! A whole word. -/

/-- A stop condition that holds at the idle block or at the end of a word only. -/
def StopsOutsideWords (stop : State → Bool) : Prop :=
  ∀ s, stop s = true → s.phase = .idle ∨ s.phase = .wDone

theorem atIdle_stopsOutsideWords : StopsOutsideWords atIdle :=
  fun _ h => .inl (of_decide_eq_true h)

theorem atWordDone_stopsOutsideWords : StopsOutsideWords atWordDone :=
  fun _ h => .inr (of_decide_eq_true h)

theorem StopsOutsideWords.inside {stop : State → Bool} (h : StopsOutsideWords stop) {s : State}
    (hi : s.phase ≠ .idle) (hw : s.phase ≠ .wDone) : stop s = false := by
  by_contra hs
  rcases h s (by simpa using hs) with e | e <;> contradiction

/-- A phase inside a word is performed. -/
theorem runEngine_in_word {stop : State → Bool} (hstop : StopsOutsideWords stop) {p : Plan}
    {s t : State} {n : Nat} (hi : s.inputs = []) (h1 : s.phase ≠ .idle) (h2 : s.phase ≠ .wDone)
    (h3 : s.phase ≠ .hPoll) (ht : phaseStep p s = t) :
    runEngine stop p (n + 1) s = runEngine stop p n t := by
  rw [runEngine_phase hi (hstop.inside h1 h2) h3, ht]

/-- The micro-steps of one bit: five in two-wire mode, four in one-wire mode (41 R132). -/
def bitSteps (dual : Bool) : Nat := if dual then 5 else 4

/-- The micro-steps from `S_LOAD` to `W_DONE` (41 R132). -/
def wordSteps (wide dual : Bool) : Nat := bitCount wide * bitSteps dual + 3

/-- `State.sh.bitIdx` set, at a phase: where the engine stands inside a word. -/
def State.atBit (s : State) (i : BitVec 5) (p : Phase) : State :=
  { s with sh := { s.sh with bitIdx := i }, phase := p }

@[simp] theorem shiftBit_inputs (i : Nat) (s : State) : (shiftBit i s).inputs = s.inputs := by
  unfold shiftBit sampleBit; dsimp only; split <;> rfl

@[simp] theorem shiftBit_cfg (i : Nat) (s : State) : (shiftBit i s).cfg = s.cfg := by
  unfold shiftBit sampleBit; dsimp only; split <;> rfl

/-- `S_DOUT` and `S_CLK_LO` are performed in two micro-steps (41 R132). -/
theorem runEngine_bit_out {stop : State → Bool} (hstop : StopsOutsideWords stop) (p : Plan)
    (s : State) (n : Nat) (hi : s.inputs = []) (hp : s.phase = .sDout) :
    runEngine stop p (n + 2) s = runEngine stop p n
      (((s.pinWrite .dout (s.sh.txsr.getLsbD s.sh.bitIdx.toNat)).pinWrite .clk false).goto
        .sSampleA) := by
  rw [runEngine_in_word hstop hi (by simp [hp]) (by simp [hp]) (by simp [hp])
      (t := (s.pinWrite .dout (s.sh.txsr.getLsbD s.sh.bitIdx.toNat)).goto .sClkLo)
      (by simp [phaseStep, hp]),
    runEngine_in_word hstop (by simpa using hi) (by simp) (by simp) (by simp) rfl]
  rfl

/-- The sampling phases perform `sampleBit` (41 R132, R135). -/
theorem runEngine_bit_sample {stop : State → Bool} (hstop : StopsOutsideWords stop) (p : Plan)
    (s : State) (n : Nat) (hi : s.inputs = []) (hp : s.phase = .sSampleA) :
    runEngine stop p (n + (bitSteps s.cfg.dual - 3)) s =
      runEngine stop p n ((sampleBit s).goto .sClkHi) := by
  rcases hd : s.cfg.dual with _ | _
  · rw [show n + (bitSteps false - 3) = n + 1 from rfl,
      runEngine_in_word hstop hi (by simp [hp]) (by simp [hp]) (by simp [hp])
        (t := (sampleBit s).goto .sClkHi)
        (by simp [phaseStep, hp, phaseSampleA, sampleBit, hd]; rfl)]
  · rw [show n + (bitSteps true - 3) = n + 1 + 1 from rfl,
      runEngine_in_word hstop hi (by simp [hp]) (by simp [hp]) (by simp [hp])
        (t := { s.pinRead .dina with
                sh := { s.sh with accA := shiftIn s.sh.accA (s.nextLevel .dina) },
                phase := .sSampleB })
        (by simp [phaseStep, hp, phaseSampleA, hd]),
      runEngine_in_word hstop (by simpa using hi) (by simp) (by simp) (by simp)
        (t := (sampleBit s).goto .sClkHi)
        (by simp [phaseStep, phaseSampleB, sampleBit, hd]; rfl)]

@[simp] theorem sampleBit_inputs (s : State) : (sampleBit s).inputs = s.inputs := by
  unfold sampleBit; dsimp only; split <;> rfl

@[simp] theorem sampleBit_cfg (s : State) : (sampleBit s).cfg = s.cfg := by
  unfold sampleBit; dsimp only; split <;> rfl

@[simp] theorem sampleBit_bitIdx (s : State) : (sampleBit s).sh.bitIdx = s.sh.bitIdx := by
  unfold sampleBit; dsimp only; split <;> rfl

/-- Where the engine stands in a word takes no part in the sampling. -/
theorem sampleBit_atBit (s : State) (i : BitVec 5) (q : Phase) :
    sampleBit (s.atBit i q) = (sampleBit s).atBit i q := by
  unfold sampleBit; dsimp only
  rcases hd : s.cfg.dual with _ | _ <;>
    simp [State.atBit, hd, State.pinRead, State.nextLevel, State.comingLevel]

/-- The phases of one bit perform `shiftBit` and go to the next bit or to the end (41 R132). -/
theorem runEngine_bit {stop : State → Bool} (hstop : StopsOutsideWords stop) (p : Plan)
    (s : State) (i : BitVec 5) (n : Nat) (hi : s.inputs = []) :
    runEngine stop p (n + bitSteps s.cfg.dual) (s.atBit i .sDout) =
      runEngine stop p n
        (if i = 0#5 then (shiftBit i.toNat s).atBit 0#5 .sCsHi
         else (shiftBit i.toNat s).atBit (i - 1#5) .sDout) := by
  have hb : n + bitSteps s.cfg.dual = n + 1 + (bitSteps s.cfg.dual - 3) + 2 := by
    rcases s.cfg.dual with _ | _ <;> rfl
  rw [hb, runEngine_bit_out hstop p (s.atBit i .sDout) _ hi rfl]
  have hx : ∀ t : State, t.cfg = s.cfg → t.inputs = [] → t.phase = .sSampleA →
      runEngine stop p (n + 1 + (bitSteps s.cfg.dual - 3)) t =
        runEngine stop p (n + 1) ((sampleBit t).goto .sClkHi) :=
    fun t hc h1 h2 => hc ▸ runEngine_bit_sample hstop p t (n + 1) h1 h2
  rw [show ((((s.atBit i .sDout).pinWrite .dout
        ((s.atBit i .sDout).sh.txsr.getLsbD (s.atBit i .sDout).sh.bitIdx.toNat)).pinWrite .clk
          false).goto .sSampleA) =
      ((s.pinWrite .dout (s.sh.txsr.getLsbD i.toNat)).pinWrite .clk false).atBit i .sSampleA
      from rfl]
  unfold shiftBit
  generalize hu : (s.pinWrite .dout (s.sh.txsr.getLsbD i.toNat)).pinWrite .clk false = v
  have hv : v.cfg = s.cfg ∧ v.inputs = [] := by subst hu; exact ⟨rfl, hi⟩
  rw [hx (v.atBit i .sSampleA) hv.1 hv.2 rfl, sampleBit_atBit,
    runEngine_in_word hstop (by simpa [State.atBit] using hv.2) (by simp) (by simp) (by simp) rfl]
  congr 1
  generalize sampleBit v = u
  by_cases h0 : i = 0#5
  · subst h0; simp [phaseStep, phaseClkHi, State.atBit, State.pinWrite, State.goto]
  · simp [phaseStep, phaseClkHi, State.atBit, State.pinWrite, State.goto, h0]

/-- Where the engine stands in a word takes no part in a bit. -/
theorem shiftBit_atBit (k : Nat) (s : State) (i : BitVec 5) (q : Phase) :
    shiftBit k (s.atBit i q) = (shiftBit k s).atBit i q := by
  unfold shiftBit
  rw [show ((s.atBit i q).pinWrite .dout ((s.atBit i q).sh.txsr.getLsbD k)).pinWrite .clk false =
    ((s.pinWrite .dout (s.sh.txsr.getLsbD k)).pinWrite .clk false).atBit i q from rfl,
    sampleBit_atBit]
  rfl

@[simp] theorem shiftBits_inputs (n : Nat) (s : State) : (shiftBits n s).inputs = s.inputs := by
  induction n generalizing s with
  | zero => rfl
  | succ n ih => simp [shiftBits, ih]

@[simp] theorem shiftBits_cfg (n : Nat) (s : State) : (shiftBits n s).cfg = s.cfg := by
  induction n generalizing s with
  | zero => rfl
  | succ n ih => simp [shiftBits, ih]

/-- The bits from position `k` down are performed, and the word is at its end (41 R132). -/
theorem runEngine_bits {stop : State → Bool} (hstop : StopsOutsideWords stop) (p : Plan)
    (k : Nat) (hk : k < 32) (s : State) (n : Nat) (hi : s.inputs = []) :
    runEngine stop p (n + (k + 1) * bitSteps s.cfg.dual) (s.atBit (BitVec.ofNat 5 k) .sDout) =
      runEngine stop p n ((shiftBits (k + 1) s).atBit 0#5 .sCsHi) := by
  have hv : (BitVec.ofNat 5 k).toNat = k := by simp; omega
  induction k generalizing s with
  | zero => simpa [shiftBits] using runEngine_bit hstop p s 0#5 n hi
  | succ k ih =>
    have hne : BitVec.ofNat 5 (k + 1) ≠ 0#5 := fun h => by
      have := congrArg BitVec.toNat h; rw [hv] at this; simp at this
    have hsub : BitVec.ofNat 5 (k + 1) - 1#5 = BitVec.ofNat 5 k := by
      apply BitVec.eq_of_toNat_eq; simp [BitVec.toNat_sub]; omega
    have h := runEngine_bit hstop p s (BitVec.ofNat 5 (k + 1))
      (n + (k + 1) * bitSteps s.cfg.dual) hi
    rw [if_neg hne, hsub, hv] at h
    rw [show n + (k + 1 + 1) * bitSteps s.cfg.dual =
      n + (k + 1) * bitSteps s.cfg.dual + bitSteps s.cfg.dual by ring, h]
    have := ih (by omega) (shiftBit (k + 1) s) (by simpa using hi) (by simp; omega)
    rw [shiftBit_cfg] at this
    rw [this]
    rfl

/-- From `S_LOAD` the engine performs `ShiftWord` and stands at `W_DONE`, after `4N + 2` or
`5N + 2` pin events and the micro-step `S_LOAD` (41 R131, R132). -/
theorem runEngine_word {stop : State → Bool} (hstop : StopsOutsideWords stop) (p : Plan)
    (s : State) (n : Nat) (hi : s.inputs = []) (hp : s.phase = .sLoad) :
    runEngine stop p (n + wordSteps (p.word s).1 s.cfg.dual) s =
      runEngine stop p n ((shiftWord (p.word s).1 (p.word s).2 s).goto .wDone) := by
  rcases hw : p.word s with ⟨wide, w⟩
  dsimp only
  have hs : ∀ m, runEngine stop p (m + 2) s =
      runEngine stop p m (((s.loadWord wide w).pinWrite .cs false).atBit (topBit wide) .sDout) := by
    intro m
    rw [runEngine_in_word hstop hi (by simp [hp]) (by simp [hp]) (by simp [hp])
        (t := (s.loadWord wide w).atBit (topBit wide) .sCsLo)
        (by simp [phaseStep, hp, phaseLoad, hw]; rfl),
      runEngine_in_word hstop (by exact hi) (by simp [State.atBit]) (by simp [State.atBit])
        (by simp [State.atBit]) rfl]
    rfl
  have hc : ((s.loadWord wide w).pinWrite .cs false).cfg = s.cfg := rfl
  have hend : ∀ u : State, u.inputs = [] →
      runEngine stop p (n + 1) (u.atBit 0#5 .sCsHi) =
        runEngine stop p n (((u.atBit 0#5 .sCsHi).pinWrite .cs true).goto .wDone) := by
    intro u hu
    exact runEngine_in_word hstop hu (by simp [State.atBit]) (by simp [State.atBit])
      (by simp [State.atBit]) rfl
  have hbit : ∀ k, (shiftBits k ((s.loadWord wide w).pinWrite .cs false)).sh.bitIdx = 0#5 := by
    have : ∀ k (u : State), (shiftBits k u).sh.bitIdx = u.sh.bitIdx := by
      intro k
      induction k with
      | zero => intro u; rfl
      | succ k ih => intro u; rw [shiftBits, ih]; simp [shiftBit]
    intro k; rw [this]; rfl
  have key : ∀ k, k < 32 → topBit wide = BitVec.ofNat 5 k → bitCount wide = k + 1 →
      runEngine stop p (n + wordSteps wide s.cfg.dual) s =
        runEngine stop p n ((shiftWord wide w s).goto .wDone) := by
    intro k hk ht hcnt
    rw [wordSteps, hcnt, show n + ((k + 1) * bitSteps s.cfg.dual + 3) =
      n + 1 + (k + 1) * bitSteps s.cfg.dual + 2 by ring, hs, ht, ← hc,
      runEngine_bits hstop p k hk ((s.loadWord wide w).pinWrite .cs false) _ hi,
      hend _ (by simpa using hi)]
    congr 1
    unfold shiftWord
    rw [hcnt]
    have := hbit (k + 1)
    revert this
    generalize shiftBits (k + 1) ((s.loadWord wide w).pinWrite .cs false) = u
    intro hu
    simp only [State.atBit, State.pinWrite, State.goto]
    rw [← hu]
  cases wide with
  | false => exact key 15 (by omega) rfl rfl
  | true => exact key 31 (by omega) rfl rfl

end Sys2Proof.Machine
end

