-- ==== Sys2Proof/Laws/Lines.lean ====
section
/-! SUPPORT. Runs of the machine step by step, host writes as steps, and a client's calls: what each
can do, said once. -/

namespace Sys2Proof.Machine

/-- Every instruction answers a next state (60_exceptions.md R190: no stop). -/
theorem exec_answers (i : Instr) (s : State) : ∃ t, exec i s = .next t := by
  cases i <;> exact ⟨_, rfl⟩

/-- A run goes on from the state its first step answers. -/
theorem core_run_succ {n : Nat} {s t : State} (h : step s = .next t) :
    Sys2Proof.core.run (n + 1) s = Sys2Proof.core.run n t := by
  have h' : Sys2Proof.core.step s = .next t := h
  simp [Host.Core.run, h']

/-- A run in two parts, the first of which answers a state. -/
theorem core_run_add {n m : Nat} {s t : State} (h : Sys2Proof.core.run n s = .next t) :
    Sys2Proof.core.run (n + m) s = Sys2Proof.core.run m t := by
  induction n generalizing s with
  | zero =>
    cases h
    rw [Nat.zero_add]
  | succ n ih =>
    rw [Nat.add_right_comm]
    cases hs : step s with
    | next u =>
      rw [core_run_succ hs] at h ⊢
      exact ih h
    | fault r => exact nomatch r
    | refused r =>
      have hs' : Sys2Proof.core.step s = .refused r := hs
      simp [Host.Core.run, hs'] at h

/-- An idle block with nothing pending stays as it is (60_exceptions.md R209). -/
theorem core_run_idle (n : Nat) {s : State} (hr : s.run = false) (hi : s.inputs = []) :
    Sys2Proof.core.run n s = .next s := by
  induction n with
  | zero => rfl
  | succ n ih =>
    rw [core_run_succ (t := s), ih]
    simp [step, hi, engineTurn, hr, State.takeTurn]

/-- A run of one step that executes an instruction answers what the instruction does. -/
theorem core_run_one {s u : State} {i : Instr} (h : step s = exec i u) :
    Sys2Proof.core.run 1 s = exec i u := by
  obtain ⟨t, ht⟩ := exec_answers i u
  rw [core_run_succ (h.trans ht), ht]
  rfl

/-- `CMD` stands at offset 0 and nowhere else (10 R42). -/
theorem hostReg_eq_cmd (offset : Word) : hostReg offset = some .cmd ↔ offset = 0#32 := by
  constructor
  · have key : ∀ {c : Prop} [Decidable c] {r : HostReg} {x : Option HostReg}, r ≠ .cmd →
        x ≠ some .cmd → (if c then some r else x) ≠ some .cmd := by
      intro c _ r x hr hx
      split
      · simpa using hr
      · exact hx
    intro h
    by_contra ho
    unfold hostReg at h
    rw [if_neg ho] at h
    revert h
    repeat refine key (by decide) ?_
    simp
  · rintro rfl
    rfl

/-- A write to `CMD` at the head of the schedule of an idle block issues its command (30 R101). -/
theorem step_issues {s : State} {w : Word} {i : Instr} {rest : List Input} (hr : s.run = false)
    (hi : s.inputs = .write 0#32 w :: rest) (hd : decodeCmd w = .ok i) :
    step s = exec i { s with inputs := rest } := by
  simp [step, hi, issues, hr, hostReg, runIssued, hd]

/-- A host write to any other offset is one step (10 R43). -/
theorem step_writes {s : State} {offset v : Word} {rest : List Input}
    (hi : s.inputs = .write offset v :: rest) (ho : hostReg offset ≠ some .cmd) :
    step s = .next (hostWrite { s with inputs := rest } offset v) := by
  simp [step, hi, issues, ho]

/-! The calls of a client. -/

/-- A line whose command ends without error returns the block as it left it (30 R107). -/
theorem callLine_ok {patience : Nat} {l : Line} {s t : State}
    (h : Sys2Proof.core.run (l.writes.length + patience) { s with inputs := l.writes } = .next t)
    (hr : t.run = false) (he : t.err = 0#3) : callLine patience l s = .ok t := by
  unfold callLine
  rw [h]
  simp [hr, he]

/-- A line whose command has ended at its last host write returns, however long the client waits. -/
theorem callLine_returns {patience : Nat} {l : Line} {s t : State}
    (h : Sys2Proof.core.run l.writes.length { s with inputs := l.writes } = .next t)
    (hr : t.run = false) (hi : t.inputs = []) (he : t.err = 0#3) :
    callLine patience l s = .ok t :=
  callLine_ok ((core_run_add h).trans (core_run_idle patience hr hi)) hr he

/-- A line that returns has run its command to its end, without error. -/
theorem callLine_eq_ok {patience : Nat} {l : Line} {s t : State}
    (h : callLine patience l s = .ok t) :
    Sys2Proof.core.run (l.writes.length + patience) { s with inputs := l.writes } = .next t ∧
      t.run = false ∧ t.err = 0#3 := by
  unfold callLine at h
  split at h
  · rename_i u hu
    split at h
    · cases h
    · rename_i hr
      split at h
      · rename_i he
        cases h
        exact ⟨hu, Bool.eq_false_iff.mpr hr, he⟩
      · cases h
  · cases h
  · cases h

@[simp] theorem callLines_nil (patience : Nat) (s : State) : callLines patience [] s = .ok s := rfl

@[simp] theorem callLines_cons (patience : Nat) (l : Line) (ls : List Line) (s : State) :
    callLines patience (l :: ls) s = (callLine patience l s).bind (callLines patience ls) := rfl

/-- Lines sent in two parts. -/
theorem callLines_append (patience : Nat) (ls ms : List Line) (s : State) :
    callLines patience (ls ++ ms) s =
      (callLines patience ls s).bind (callLines patience ms) := by
  induction ls generalizing s with
  | nil => rfl
  | cons l ls ih =>
    rw [List.cons_append, callLines_cons, callLines_cons]
    cases callLine patience l s with
    | error e => rfl
    | ok t => exact ih t

end Sys2Proof.Machine
end

