-- ==== Sys2Proof/Laws/PerInstr.lean ====
section
/-! SUPPORT. Statements about every instruction as syntax, one lemma per constructor: an
instruction's word fits the length of its space (30_encoding.md R106). -/

/-- The word of an instruction has no bit above the length of its space. -/
def Sys2Proof.Laws.EncodeFits.Statement (i : Sys2Proof.Instr) : Prop :=
  i.encode.toNat < 2 ^ i.space.nbits

/-- A 16-bit word, widened, has no bit above bit 15. -/
theorem Sys2Proof.Laws.toNat_setWidth_16_lt (x : BitVec 16) : (x.setWidth 32).toNat < 2 ^ 16 := by
  have := x.isLt
  rw [BitVec.toNat_setWidth]
  omega

theorem Sys2Proof.Laws.EncodeFits.openHandle :
    Sys2Proof.Laws.EncodeFits.Statement Sys2Proof.Instr.openHandle :=
  (Sys2Proof.Instr.encode .openHandle).isLt

theorem Sys2Proof.Laws.EncodeFits.closeHandle :
    Sys2Proof.Laws.EncodeFits.Statement Sys2Proof.Instr.closeHandle :=
  (Sys2Proof.Instr.encode .closeHandle).isLt

theorem Sys2Proof.Laws.EncodeFits.setDiag :
    Sys2Proof.Laws.EncodeFits.Statement Sys2Proof.Instr.setDiag :=
  (Sys2Proof.Instr.encode .setDiag).isLt

theorem Sys2Proof.Laws.EncodeFits.shift16 :
    Sys2Proof.Laws.EncodeFits.Statement Sys2Proof.Instr.shift16 :=
  (Sys2Proof.Instr.encode .shift16).isLt

theorem Sys2Proof.Laws.EncodeFits.shift32 :
    Sys2Proof.Laws.EncodeFits.Statement Sys2Proof.Instr.shift32 :=
  (Sys2Proof.Instr.encode .shift32).isLt

theorem Sys2Proof.Laws.EncodeFits.wrReg :
    Sys2Proof.Laws.EncodeFits.Statement Sys2Proof.Instr.wrReg :=
  (Sys2Proof.Instr.encode .wrReg).isLt

theorem Sys2Proof.Laws.EncodeFits.rdReg :
    Sys2Proof.Laws.EncodeFits.Statement Sys2Proof.Instr.rdReg :=
  (Sys2Proof.Instr.encode .rdReg).isLt

theorem Sys2Proof.Laws.EncodeFits.rdRegs :
    Sys2Proof.Laws.EncodeFits.Statement Sys2Proof.Instr.rdRegs :=
  (Sys2Proof.Instr.encode .rdRegs).isLt

theorem Sys2Proof.Laws.EncodeFits.rdConv :
    Sys2Proof.Laws.EncodeFits.Statement Sys2Proof.Instr.rdConv :=
  (Sys2Proof.Instr.encode .rdConv).isLt

theorem Sys2Proof.Laws.EncodeFits.frame16Write (addr : BitVec 6) (data : BitVec 9) :
    Sys2Proof.Laws.EncodeFits.Statement (Sys2Proof.Instr.frame16Write addr data) :=
  Sys2Proof.Laws.toNat_setWidth_16_lt _

theorem Sys2Proof.Laws.EncodeFits.frame16Read (addr : BitVec 6) :
    Sys2Proof.Laws.EncodeFits.Statement (Sys2Proof.Instr.frame16Read addr) :=
  Sys2Proof.Laws.toNat_setWidth_16_lt _

theorem Sys2Proof.Laws.EncodeFits.word32Out :
    Sys2Proof.Laws.EncodeFits.Statement Sys2Proof.Instr.word32Out :=
  (Sys2Proof.Instr.encode .word32Out).isLt

theorem Sys2Proof.Laws.EncodeFits.word32In (sideB sideA : BitVec 16) :
    Sys2Proof.Laws.EncodeFits.Statement (Sys2Proof.Instr.word32In sideB sideA) :=
  (Sys2Proof.Instr.encode (.word32In sideB sideA)).isLt

theorem Sys2Proof.Laws.EncodeFits.raw16 (t : BitVec 16) :
    Sys2Proof.Laws.EncodeFits.Statement (Sys2Proof.Instr.raw16 t) :=
  Sys2Proof.Laws.toNat_setWidth_16_lt _

theorem Sys2Proof.Laws.EncodeFits.raw32 (t : BitVec 32) :
    Sys2Proof.Laws.EncodeFits.Statement (Sys2Proof.Instr.raw32 t) :=
  (Sys2Proof.Instr.encode (.raw32 t)).isLt
end

