-- ==== Sys2Proof/Laws/Words.lean ====
section
/-! SUPPORT. What `ShiftWord` does to the state, written out field by field, once. -/

namespace Sys2Proof.Machine

/-- One bit: the pins, the accumulators, the answers taken and the events, nothing else (41
R131). -/
theorem shiftBit_eq (i : Nat) (s : State) :
    shiftBit i s =
      { s with
        out := { s.out with clk := true, dout := s.sh.txsr.getLsbD i }
        sh := { s.sh with
          accA := shiftIn s.sh.accA (s.nextLevel .dina)
          accB := if s.cfg.dual then shiftIn s.sh.accB (s.nextLevel .dinb) else s.sh.accB }
        env := { s.env with
          dina := s.env.dina.drop1
          dinb := if s.cfg.dual then s.env.dinb.drop1 else s.env.dinb }
        trace := s.trace ++
          bitEvents s.cfg.dual (s.sh.txsr.getLsbD i) (s.nextLevel .dina) (s.nextLevel .dinb) } := by
  unfold shiftBit sampleBit
  rcases hd : s.cfg.dual with _ | _ <;>
    simp [State.pinWrite, State.pinRead, State.nextLevel, State.comingLevel, OutLatches.put,
      Env.afterRead, hd, bitEvents]

/-- The accumulator after `n` more answers of `f`, from `acc` on. -/
def capturedFrom (acc : Word) (f : Nat → Level) : Nat → Word
  | 0 => acc
  | n + 1 => shiftIn (capturedFrom acc f n) (f n)

theorem capturedFrom_zero_eq (f : Nat → Level) (n : Nat) : capturedFrom 0#32 f n = captured f n := by
  induction n with
  | zero => rfl
  | succ n ih => simp [capturedFrom, captured, ih]

theorem capturedFrom_head (acc : Word) (f : Nat → Level) (n : Nat) :
    capturedFrom (shiftIn acc (f 0)) (fun k => f (k + 1)) n = capturedFrom acc f (n + 1) := by
  induction n with
  | zero => rfl
  | succ n ih => rw [capturedFrom, ih]; rfl

/-- The `n`-th coming answer after some have been taken. -/
@[simp] theorem Answers.nth_dropMany (src : Config.Source) (q : Answers) (m n : Nat) :
    (q.dropMany m).nth src n = q.nth src (m + n) := by
  induction m generalizing q with
  | zero => simp [Answers.dropMany]
  | succ m ih => simp [Answers.dropMany, ih]; congr 1; omega

/-- The bits from position `n-1` down to 0, written out (41 R131). -/
theorem shiftBits_eq (n : Nat) (s : State) :
    shiftBits n s =
      { s with
        out := if n = 0 then s.out else { s.out with clk := true, dout := s.sh.txsr.getLsbD 0 }
        sh := { s.sh with
          accA := capturedFrom s.sh.accA (s.comingLevel .dina) n
          accB := if s.cfg.dual then capturedFrom s.sh.accB (s.comingLevel .dinb) n
                  else s.sh.accB }
        env := { s.env with
          dina := s.env.dina.dropMany n
          dinb := if s.cfg.dual then s.env.dinb.dropMany n else s.env.dinb }
        trace := s.trace ++ (List.range n).flatMap fun k =>
          bitEvents s.cfg.dual (s.sh.txsr.getLsbD (n - 1 - k)) (s.comingLevel .dina k)
            (s.comingLevel .dinb k) } := by
  induction n generalizing s with
  | zero =>
    simp only [shiftBits, capturedFrom, Answers.dropMany, List.range_zero, List.flatMap_nil,
      List.append_nil, if_true, ite_self]
  | succ n ih =>
    have hA : (shiftBit n s).comingLevel .dina = fun k => s.comingLevel .dina (k + 1) := by
      funext k; rw [shiftBit_eq]; simp [State.comingLevel]
    have hB : s.cfg.dual = true →
        (shiftBit n s).comingLevel .dinb = fun k => s.comingLevel .dinb (k + 1) := by
      intro hd; funext k; rw [shiftBit_eq]; simp [State.comingLevel, hd]
    rw [shiftBits, ih, hA]
    rcases hd : s.cfg.dual with _ | _
    · rw [shiftBit_eq]
      simp only [hd, Bool.false_eq_true, if_false, List.range_succ_eq_map, List.flatMap_cons,
        List.flatMap_map, State.nextLevel, capturedFrom_head, Answers.dropMany]
      simp [bitEvents, Nat.sub_sub, Nat.add_comm]
      rintro rfl; rfl
    · rw [hB hd, shiftBit_eq]
      simp only [hd, if_true, List.range_succ_eq_map, List.flatMap_cons,
        List.flatMap_map, State.nextLevel, capturedFrom_head, Answers.dropMany]
      simp [Nat.sub_sub, Nat.add_comm]
      rintro rfl; rfl

/-- `ShiftWord`, written out: chip select framed, the clock high, the data pin at bit 0 of the
word, both captures, and exactly the word's events (41 R131, R132, R135). -/
theorem shiftWord_eq (wide : Bool) (w : Word) (s : State) :
    shiftWord wide w s = afterWord wide w s := by
  have hn : bitCount wide ≠ 0 := by cases wide <;> decide
  have hc : ∀ p, ((s.loadWord wide w).pinWrite .cs false).comingLevel p = s.comingLevel p :=
    fun p => by funext k; cases p <;> rfl
  unfold shiftWord afterWord
  rw [shiftBits_eq, hc, hc]
  simp [hn, State.pinWrite, State.loadWord, OutLatches.put, capturedFrom_zero_eq, State.wordA,
    State.wordB, Env.afterWord, wordEvents]
  rfl

/-! Counting words on the 32 bits of `WORDIDX` (10 R34; log entry 8). -/

/-- Bit 0 of `WORDIDX` tells the second word of a list element from the first (42 R165). -/
theorem wordIdx_getLsbD_zero (k : Nat) :
    (BitVec.ofNat 32 (2 * k)).getLsbD 0 = false ∧
      (BitVec.ofNat 32 (2 * k) + 1#32).getLsbD 0 = true := by
  rw [← BitVec.ofNat_add, BitVec.getLsbD_ofNat, BitVec.getLsbD_ofNat]
  simp

/-- `WORDIDX >> 1` is the list index at both words of an element (42 R165). -/
theorem wordIdx_shiftRight {k : Nat} (h : k < 2 ^ 31) :
    (BitVec.ofNat 32 (2 * k) >>> 1).toNat = k ∧
      ((BitVec.ofNat 32 (2 * k) + 1#32) >>> 1).toNat = k := by
  rw [← BitVec.ofNat_add]
  constructor <;> simp [Nat.shiftRight_eq_div_pow] <;> omega

/-- Two words on, `WORDIDX` is at the next element. -/
theorem wordIdx_next (k : Nat) :
    BitVec.ofNat 32 (2 * k) + 2#32 = BitVec.ofNat 32 (2 * (k + 1)) := by
  rw [← BitVec.ofNat_add, Nat.mul_add]

/-- The end test of RDREGS on 32 bits is that of the rule (42 R165). -/
theorem wordIdx_end {k : Nat} {c : Word} (hc : c.toNat ≤ 2 ^ 31) (hk : k < c.toNat) :
    BitVec.ofNat 32 (2 * k) + 1#32 + 1#32 = 2#32 * c ↔ k + 1 = c.toNat := by
  constructor
  · intro h
    have := congrArg BitVec.toNat h
    simp at this
    omega
  · intro h
    apply BitVec.eq_of_toNat_eq
    simp
    omega

end Sys2Proof.Machine
end

