-- ==== Sys2Proof/Laws/Runs.lean ====
section
/-! SUPPORT. Runs of the engine in pieces: a run of some micro-steps from one state to another,
how pieces are put together, and what a whole command answers when its run is known. -/

namespace Sys2Proof.Machine

/-- The coming answers of an input pin, from the environment's streams alone. -/
def Env.level (e : Env) : InPin → Nat → Level
  | .dina => e.dina.nth .dina
  | .dinb => e.dinb.nth .dinb
  | .busy => e.busy.nth .busy

/-- The coming levels depend on nothing but the environment's streams. -/
theorem State.comingLevel_eq (s : State) (p : InPin) : s.comingLevel p = s.env.level p := by
  cases p <;> rfl

/-- With nothing pending, `m` micro-steps of the plan `p` lead from `s` to `t`. -/
def Runs (p : Plan) (m : Nat) (s t : State) : Prop :=
  ∀ n, runEngine atIdle p (n + m) s = runEngine atIdle p n t

theorem Runs.trans {p : Plan} {m k : Nat} {s t u : State} (h : Runs p m s t) (g : Runs p k t u) :
    Runs p (m + k) s u := fun n => by
  rw [show n + (m + k) = n + k + m by omega, h, g]

/-- One phase other than the poll is one micro-step. -/
theorem Runs.phase {p : Plan} {s t : State} (hi : s.inputs = []) (h1 : s.phase ≠ .idle)
    (h2 : s.phase ≠ .hPoll) (ht : phaseStep p s = t) : Runs p 1 s t := fun n => by
  rw [runEngine_phase hi (by simp [atIdle, h1]) h2, ht]

/-- A poll that reads idle is one micro-step (42 R151). -/
theorem Runs.poll {p : Plan} {s t : State} (hi : s.inputs = []) (h1 : s.phase = .hPoll)
    (hb : s.nextLevel .busy = s.params.busyIdle) (ht : p.afterPoll (s.pinRead .busy) = t)
    (h2 : t.phase ≠ .hPoll) : Runs p 1 s t := fun n => by
  subst ht
  rw [runEngine_poll_idle hi (by simp [atIdle, h1]) h1 hb h2]

/-- A word is run from `S_LOAD` to `W_DONE` (41 R131, R132). -/
theorem Runs.word {p : Plan} {s : State} {wide dual : Bool} {w : Word} (hi : s.inputs = [])
    (h1 : s.phase = .sLoad) (hd : s.cfg.dual = dual) (hw : p.word s = (wide, w)) :
    Runs p (wordSteps wide dual) s ((afterWord wide w s).goto .wDone) := fun n => by
  subst hd
  have := runEngine_word atIdle_stopsOutsideWords p s n hi h1
  rw [hw] at this
  rw [this, shiftWord_eq]

/-- The handshake with the busy pin idle at the first poll is three micro-steps (42 R150, R151). -/
theorem Runs.handshake {p : Plan} {s t : State} (hi : s.inputs = []) (h1 : s.phase = .hTrigHi)
    (hb : s.comingLevel .busy 0 = s.params.busyIdle)
    (ht : p.afterPoll ((handshakeOnce s).goto .hPoll) = t) (h2 : t.phase ≠ .hPoll) :
    Runs p 3 s t := by
  have a : Runs p 1 s ((s.pinWrite .trig true).goto .hTrigLo) :=
    Runs.phase hi (by simp [h1]) (by simp [h1]) (by simp [phaseStep, h1])
  have b : Runs p 1 ((s.pinWrite .trig true).goto .hTrigLo)
      ((((s.pinWrite .trig true).goto .hTrigLo).pinWrite .trig false).goto .hPoll) :=
    Runs.phase hi (by simp) (by simp) (by simp [phaseStep])
  exact (a.trans b).trans (Runs.poll hi rfl hb ht h2)

theorem toNat_captured_lt (f : Nat → Level) (n : Nat) : (captured f n).toNat < 2 ^ n := by
  induction n with
  | zero => simp [captured]
  | succ n ih =>
    have h : (shiftIn (captured f n) (f n)).toNat ≤ 2 * (captured f n).toNat + 1 := by
      simp only [shiftIn, BitVec.toNat_append, BitVec.extractLsb'_toNat, BitVec.toNat_ofBool]
      rw [← Nat.shiftLeft_add_eq_or_of_lt (by cases f n <;> decide), Nat.shiftLeft_eq]
      have : (f n).toNat ≤ 1 := by cases f n <;> decide
      have := Nat.mod_le ((captured f n).toNat >>> 0) (2 ^ 31)
      simp only [Nat.shiftRight_zero] at *
      omega
    rw [captured, Nat.pow_succ]
    omega

/-- A capture of 16 bits has nothing above them (30 R98). -/
theorem capture16_captured (f : Nat → Level) : capture16 (captured f 16) = captured f 16 := by
  have := toNat_captured_lt f 16
  apply BitVec.eq_of_toNat_eq
  simp only [capture16, BitVec.toNat_setWidth, BitVec.extractLsb'_toNat, Nat.shiftRight_zero]
  omega

/-! The pin set-up of OPEN. -/

/-- The first `k` set-up events, performed one after another (40 R120). -/
def setupEventsDone (d : Bool) : Nat → State → State
  | 0, s => s
  | k + 1, s => setupEvent k d (setupEventsDone d k s)

theorem setupEventsDone_eq (d : Bool) (s : State) :
    setupEventsDone d 11 s =
      { s with
        out := idlePins
        dir := openedDirections d s.dir.dinb
        trace := s.trace ++ setupEvents d } := by
  rcases d with _ | _ <;>
    simp [setupEventsDone, setupEvent, State.pinDir, State.pinWrite, OutLatches.put,
      Directions.put, idlePins, openedDirections, setupEvents]

theorem setupEventsDone_rest (d : Bool) (k : Nat) (s : State) :
    (setupEventsDone d k s).inputs = s.inputs ∧ (setupEventsDone d k s).phase = s.phase ∧
      (setupEventsDone d k s).lat = s.lat := by
  induction k with
  | zero => exact ⟨rfl, rfl, rfl⟩
  | succ k ih => simpa [setupEventsDone] using ih

/-- The state at another `OSTEP`. -/
def State.atStep (s : State) (o : Fin 11) : State := { s with ostep := o }

/-- `OSTEP` takes no part in a set-up event. -/
theorem setupEvent_atStep (k : Nat) (d : Bool) (s : State) (o : Fin 11) :
    setupEvent k d (s.atStep o) = (setupEvent k d s).atStep o := by
  unfold setupEvent; split <;> (try split) <;> rfl

/-- The micro-step `O_SETUP` before the last one. -/
theorem phaseStep_setup {p : Plan} {s : State} {k : Nat} (hk : k < 10) (hp : s.phase = .oSetup) :
    phaseStep p (s.atStep ⟨k, by omega⟩) =
      (setupEvent k (opnDual s.lat.opn) s).atStep ⟨k + 1, by omega⟩ := by
  have hf : (⟨k, by omega⟩ : Fin 11) + 1 = ⟨k + 1, by omega⟩ := by
    apply Fin.ext; rw [Fin.val_add]; show (k + 1) % 11 = k + 1; omega
  have h : (s.atStep ⟨k, by omega⟩).phase = .oSetup := hp
  rw [phaseStep, h]
  show phaseSetup (s.atStep ⟨k, by omega⟩) = _
  rw [phaseSetup, if_neg (by show k ≠ 10; omega)]
  show ({ setupEvent k (opnDual s.lat.opn) (s.atStep ⟨k, by omega⟩) with
    ostep := ⟨k, by omega⟩ + 1 } : State) = _
  rw [setupEvent_atStep, hf]
  rfl

/-- The micro-step `O_SETUP` with the last event and the commit. -/
theorem phaseStep_commit {p : Plan} {s : State} (hp : s.phase = .oSetup) :
    phaseStep p (s.atStep 10) =
      { (setupEvent 10 (opnDual s.lat.opn) s).atStep 10 with
        cfg := openedCfg s.lat.opn, phase := .finish } := by
  have h : (s.atStep 10).phase = .oSetup := hp
  rw [phaseStep, h]
  show phaseSetup (s.atStep 10) = _
  rw [phaseSetup, if_pos (by rfl : (s.atStep 10).ostep.val = 10), setupEvent_atStep]
  rfl

/-- The set-up of OPEN, from its first event: the eleven micro-steps, then the commit of `CFG` (40
R120). -/
theorem Runs.setup {s : State} (hi : s.inputs = []) (hp : s.phase = .oSetup) (ho : s.ostep = 0) :
    Runs openPlan 11 s
      { s with
        cfg := openedCfg s.lat.opn
        out := idlePins
        dir := openedDirections (opnDual s.lat.opn) s.dir.dinb
        trace := s.trace ++ setupEvents (opnDual s.lat.opn)
        ostep := 10, phase := .finish } := by
  have h : ∀ k (hk : k ≤ 10), Runs openPlan k s
      ((setupEventsDone (opnDual s.lat.opn) k s).atStep ⟨k, by omega⟩) := by
    intro k hk
    induction k with
    | zero =>
      have : (setupEventsDone (opnDual s.lat.opn) 0 s).atStep ⟨0, by omega⟩ = s := by
        show ({ s with ostep := 0 } : State) = s
        rw [← ho]
      rw [this]
      exact fun n => rfl
    | succ k ih =>
      obtain ⟨h1, h2, h3⟩ := setupEventsDone_rest (opnDual s.lat.opn) k s
      refine (ih (by omega)).trans (Runs.phase (h1.trans hi) ?_ ?_ ?_)
      · exact fun e => by cases (h2.trans hp).symm.trans e
      · exact fun e => by cases (h2.trans hp).symm.trans e
      · rw [phaseStep_setup (by omega) (h2.trans hp), h3]
        rfl
  obtain ⟨h1, h2, h3⟩ := setupEventsDone_rest (opnDual s.lat.opn) 10 s
  refine (h 10 (by omega)).trans (Runs.phase (h1.trans hi) ?_ ?_ ?_)
  · exact fun e => by cases (h2.trans hp).symm.trans e
  · exact fun e => by cases (h2.trans hp).symm.trans e
  · have e := setupEventsDone_eq (opnDual s.lat.opn) s
    rw [setupEventsDone] at e
    show phaseStep openPlan ((setupEventsDone (opnDual s.lat.opn) 10 s).atStep 10) = _
    rw [phaseStep_commit (h2.trans hp), h3, e]
    rfl

/-- A word takes at most 163 micro-steps. -/
theorem wordSteps_le (wide dual : Bool) : wordSteps wide dual ≤ 163 := by
  cases wide <;> cases dual <;> decide

/-- A command issued in an idle block answers the state its run ends in. -/
theorem runCommand_of_runs {p : Plan} {w : Word} {s t : State} {m : Nat} (hr : s.run = false)
    (h : Runs p m (s.issue w) t) (ht : t.phase = .idle)
    (hm : m ≤ 400 * (s.args.count.toNat + 1)) : runCommand p w s = .next t := by
  have hf : commandFuel (s.issue w) = 400 * (s.args.count.toNat + 1) - m + m := by
    show 400 * (s.args.count.toNat + 1) = _
    omega
  rw [runCommand, show s.begin w = s.issue w by simp [State.begin, hr], hf, h,
    runEngine_stopped _ (by simp [atIdle, ht])]

/-- A command whose check rejects it answers the rejection, with nothing else changed (60 R190). -/
theorem runCommand_rejected {p : Plan} {w : Word} {s : State} {e : ErrorKind} (hr : s.run = false)
    (hi : s.inputs = []) (hc : p.check (s.issue w) = (s.issue w).reject e) :
    runCommand p w s = .next (rejectedFrom s w e) := by
  have a : Runs p 1 (s.issue w) ((s.issue w).reject e) :=
    Runs.phase hi (by simp) (by simp) (by simp [phaseStep, hc])
  have b : Runs p 1 ((s.issue w).reject e) (rejectedFrom s w e) :=
    Runs.phase hi (by simp) (by simp) rfl
  exact runCommand_of_runs hr (a.trans b) rfl (by omega)

/-! What holds all along a run. -/

/-- What every micro-step of a run keeps, the run keeps. -/
theorem runEngine_keeps {stop : State → Bool} {p : Plan} {K : State → Prop}
    (hK : ∀ s, K s → stop s = false → K (microStep p s)) (n : Nat) (s : State) (h : K s) :
    K (runEngine stop p n s) := by
  induction n generalizing s with
  | zero => exact h
  | succ n ih =>
    unfold runEngine
    split
    · exact h
    · rename_i hc
      have hs : stop s = false := by
        rcases hh : stop s with _ | _ <;> simp_all
      split
      · exact hK s h hs
      · exact ih _ (hK s h hs)

/-- The latches of an issued command hold its word (10 R30, 30 R103). -/
@[simp] theorem cmdWord_latched (w : Word) (g : Args) : (latched w g).cmdWord = w := by
  apply BitVec.eq_of_getLsbD_eq
  intro i hi
  simp only [latched, Latches.cmdWord, BitVec.getLsbD_append, BitVec.getLsbD_extractLsb']
  by_cases h : i < 8
  · simp [h]
  · simp only [h]
    rw [show 8 + (i - 8) = i by omega]
    simp
    intro _
    omega

/-- A host command is its plan, run from its word. -/
theorem exec_command (i : Instr) (hs : i.space = .hostCmd) (s : State) :
    exec i s = runCommand (planOf i) i.encode s := by
  cases i <;> simp [Instr.space] at hs <;> rfl

end Sys2Proof.Machine
end

