-- ==== Sys2Proof/Tests/Slice0.lean ====
section
/-! SUPPORT. The model's own tests: the well-formedness smoke test, the words of the tables written
out bit by bit, one step on small states against the vectors of 95_test_vectors.md, and for every
statement with hypotheses a named witness that meets them together. -/

namespace Sys2Proof.Tests

open Sys2Proof.Machine

/-! ### Helpers -/

/-- The bits of an `n`-bit word, the most significant first, as a pin answers them. -/
def bitsOf (n w : Nat) : List Bool := (List.range n).map (fun k => w.testBit (n - 1 - k))

/-- An idle block with an open handle on bus 1, device 2. -/
def opened (dual : Bool) : State :=
  { State.reset with cfg := { isOpen := true, bus := 1#1, dev := 2#2, dual := dual, diag := false } }

/-- The state with coming answers of `DINA`, `DINB` and `BUSY`. -/
def answering (s : State) (dina dinb busy : List Bool) : State :=
  { s with env := { s.env with dina := ⟨dina, 0⟩, dinb := ⟨dinb, 0⟩, busy := ⟨busy, 0⟩ } }

/-- The state with operands. -/
def withArgs (s : State) (addr value count tx : Word) : State :=
  { s with args := { s.args with addr := addr, value := value, count := count, tx := tx } }

/-- A reset block asked to open with operand `o`, `PinInit` answering `ready`. -/
def opening (o : BitVec 5) (ready : Bool) : State :=
  { State.reset with
    args := { State.reset.args with opn := o }
    env := { State.reset.env with init := ⟨[ready], 0⟩ } }

/-- The state a step or an instruction answers. -/
def after (o : Host.Outcome State Fault Refusal) : State :=
  match o with
  | .next s => s
  | .fault _ => State.reset
  | .refused _ => State.reset

/-- The levels written to `DOUT`, in order. -/
def doutBits (s : State) : List Bool :=
  s.trace.filterMap fun e =>
    match e with
    | .write .dout b => some b
    | _ => none

/-- A block in the poll of WRREG 3, 0x155, the chip answering `busy`. -/
def polling (busy : List Bool) : State :=
  answering
    { opened false with
      run := true, phase := .hPoll
      lat := latched 0x20#32 (withArgs (opened false) 3#32 0x155#32 0#32 0#32).args }
    [] [] busy

/-- A list of three addresses at the head of `LIST`. -/
def listing (s : State) (a b c : Word) (n : Word) : State :=
  { s with
    list := a :: b :: c :: List.replicate 61 0#32
    args := { s.args with count := n } }

/-- The client constants of the example program P6. -/
def example6 : ClientParams :=
  { stackBase := 32#32, chsel := fun a b => b.setWidth 32 <<< 4 ||| a.setWidth 32, ssren := 0x100#32,
    configReg := 2#32, burstEn := 0x40#32, seqEn := 0x20#32, channelReg := 3#32 }

/-- The block a client's call returns. -/
def returned (r : Except CallStop State) : State :=
  match r with
  | .ok t => t
  | .error _ => State.reset

/-- An open, one-wire block as P6 finds it, the chip answering `0x0004` in the fourth word. -/
def sequencing : State :=
  answering (opened false) (bitsOf 48 0 ++ bitsOf 16 0x0004 ++ bitsOf 16 0) [] [false, false, false]

/-! ### Well-formedness: each check refuses an ill-formed term (30 R105) -/

theorem test_wf_refuses_write_field_1 : (Instr.frame16Write 1#6 0#9).wellFormed = false := by decide

theorem test_wf_refuses_read_field_8 : (Instr.frame16Read 8#6).wellFormed = false := by decide

theorem test_wf_refuses_read_field_31 : (Instr.frame16Read 31#6).wellFormed = false := by decide

theorem test_wf_admits_field_0 : (Instr.frame16Write 0#6 1#9).wellFormed = true := by decide

/-! ### Decoding: the words of the tables, bit by bit (30 R90 to R93, R100) -/

theorem test_decode_open :
    decodeIn .hostCmd 0b00000000000000000000000000000001#32 = .ok .openHandle := by decide

theorem test_decode_close :
    decodeIn .hostCmd 0b00000000000000000000000000000010#32 = .ok .closeHandle := by decide

theorem test_decode_setdiag :
    decodeIn .hostCmd 0b00000000000000000000000000000011#32 = .ok .setDiag := by decide

theorem test_decode_shift16 :
    decodeIn .hostCmd 0b00000000000000000000000000010000#32 = .ok .shift16 := by decide

theorem test_decode_shift32 :
    decodeIn .hostCmd 0b00000000000000000000000000010001#32 = .ok .shift32 := by decide

theorem test_decode_wrreg :
    decodeIn .hostCmd 0b00000000000000000000000000100000#32 = .ok .wrReg := by decide

theorem test_decode_rdreg :
    decodeIn .hostCmd 0b00000000000000000000000000100001#32 = .ok .rdReg := by decide

theorem test_decode_rdregs :
    decodeIn .hostCmd 0b00000000000000000000000000100010#32 = .ok .rdRegs := by decide

theorem test_decode_rdconv :
    decodeIn .hostCmd 0b00000000000000000000000000100011#32 = .ok .rdConv := by decide

/-- 95 V-WR: `1 000011 101010101`. -/
theorem test_decode_write_frame :
    decodeIn .frameOut 0b1000011101010101#32 = .ok (.frame16Write 0b000011#6 0b101010101#9) := by
  decide

/-- 95 V-RD: `0 110000 000000000`. -/
theorem test_decode_read_frame :
    decodeIn .frameOut 0b0110000000000000#32 = .ok (.frame16Read 0b110000#6) := by decide

theorem test_decode_conversion_out :
    decodeIn .convOut 0b00000000000000000000000000000000#32 = .ok .word32Out := by decide

/-- 95 S1: `1011 1110 1110 1111 0001 0010 0011 0100`. -/
theorem test_decode_conversion_in :
    decodeIn .convIn 0b10111110111011110001001000110100#32 =
      .ok (.word32In 0xBEEF#16 0x1234#16) := by decide

theorem test_decode_raw16 :
    decodeIn .raw16Out 0b1010010111000011#32 = .ok (.raw16 0xA5C3#16) := by decide

theorem test_decode_raw32 :
    decodeIn .raw32Out 0b11011110101011011011111011101111#32 = .ok (.raw32 0xDEADBEEF#32) := by
  decide

/-- 30 R105: a read frame with a data field is none of the framer's. -/
theorem test_decode_refuses_read_with_data :
    decodeIn .frameOut 0b0000010000000001#32 = .error .readFrameWithData := by decide

/-- 95 V-ERR: `CMD[31:8]` not zero. -/
theorem test_decode_refuses_high_bits :
    decodeIn .hostCmd 0x00000120#32 = .error .illegalCommand := by decide

/-- 30 R92: a conversion word sent is all zero. -/
theorem test_decode_refuses_conversion_word :
    decodeIn .convOut 1#32 = .error .conversionWordNotZero := by decide

/-- Without a space, the bits of a write frame's row, of a command's row, of a conversion capture. -/
theorem test_table_words :
    decodeTableWord 16 0x8755 = some (.frame16Write 3#6 0x155#9) ∧
    decodeTableWord 32 0x22 = some .rdRegs ∧
    decodeTableWord 32 0xBEEF1234 = some (.word32In 0xBEEF#16 0x1234#16) ∧
    decodeTableWord 8 0x22 = none := by decide

/-! ### One step of each instruction, against 95_test_vectors.md -/

/-- V-HANDLE: `OPEN 1, 2, 1, 1`: 12 events, `DIR.DINB = in`; V-HOST: `CFG = 0x3D`, `STATUS = 2`. -/
theorem test_open_two_wire :
    (after (exec .openHandle (opening 0b11101#5 true))).trace.length = 12 ∧
    (after (exec .openHandle (opening 0b11101#5 true))).dir.dinb = .set .inward ∧
    hostRead (after (exec .openHandle (opening 0b11101#5 true))) 0x1C#32 = 0x3D#32 ∧
    hostRead (after (exec .openHandle (opening 0b11101#5 true))) 0x04#32 = 2#32 := by
  decide +kernel

/-- V-HANDLE: the one event of an OPEN whose `PinInit` fails. -/
theorem test_open_init_fails :
    (after (exec .openHandle (opening 0#5 false))).err = 2#3 ∧
    (after (exec .openHandle (opening 0#5 false))).trace = [.init false] := by decide +kernel

/-- V-HANDLE: CLOSE. -/
theorem test_close :
    (after (exec .closeHandle (opened false))).trace = [.term] ∧
    (after (exec .closeHandle (opened false))).cfg.isOpen = false ∧
    (after (exec .closeHandle (opened false))).cfg.dev = 2#2 := by decide +kernel

/-- P3: `SETDIAG 1` with the other operand bits as they are. -/
theorem test_setdiag :
    (after (exec .setDiag { opened false with args := (opening 0b11101#5 true).args })).cfg =
      ⟨true, 1#1, 2#2, false, true⟩ := by decide +kernel

/-- V-SH: two-wire `SHIFT16 0xFFFFA5C3`. -/
theorem test_shift16_two_wire :
    (after (exec .shift16 (answering (withArgs (opened true) 0#32 0#32 0#32 0xFFFFA5C3#32)
      (bitsOf 16 0x0F0F) (bitsOf 16 0x3C3C) []))).res = [⟨0x0F0F#32, 0x3C3C#32⟩] ∧
    (after (exec .shift16 (answering (withArgs (opened true) 0#32 0#32 0#32 0xFFFFA5C3#32)
      (bitsOf 16 0x0F0F) (bitsOf 16 0x3C3C) []))).trace.length = 82 := by decide +kernel

/-- V-SH: the first seven events of that row. -/
theorem test_shift16_first_events :
    (after (exec .shift16 (answering (withArgs (opened true) 0#32 0#32 0#32 0xFFFFA5C3#32)
      (bitsOf 16 0x0F0F) (bitsOf 16 0x3C3C) []))).trace.take 7 =
      [.write .cs false, .write .dout true, .write .clk false, .read .dina false,
       .read .dinb false, .write .clk true, .write .dout false] := by decide +kernel

/-- V-SH: `SHIFT32 0xFFFFFFFF`. -/
theorem test_shift32 :
    (after (exec .shift32 (answering (withArgs (opened false) 0#32 0#32 0#32 0xFFFFFFFF#32)
      (bitsOf 32 0x80000001) [] []))).res = [⟨0x80000001#32, 0#32⟩] ∧
    (after (exec .shift32 (answering (withArgs (opened false) 0#32 0#32 0#32 0xFFFFFFFF#32)
      (bitsOf 32 0x80000001) [] []))).trace.length = 130 := by decide +kernel

/-- V-WR: `WRREG 3, 0xFFFF` sends `0x87FF` in 69 events. -/
theorem test_wrreg_masks_value :
    doutBits (after (exec .wrReg (answering (withArgs (opened false) 3#32 0xFFFF#32 0#32 0#32)
      (bitsOf 16 0) [] [false]))) = bitsOf 16 0x87FF ∧
    (after (exec .wrReg (answering (withArgs (opened false) 3#32 0xFFFF#32 0#32 0#32)
      (bitsOf 16 0) [] [false]))).trace.length = 69 := by decide +kernel

/-- V-WR: address 64 aliases to field 0: `0x8001`. -/
theorem test_wrreg_address_64 :
    doutBits (after (exec .wrReg (answering (withArgs (opened false) 64#32 1#32 0#32 0#32)
      (bitsOf 16 0) [] [false]))) = bitsOf 16 0x8001 := by decide +kernel

/-- V-RD: two-wire `RDREG 2`, the first capture discarded, no mask, 164 events. -/
theorem test_rdreg_two_wire :
    (after (exec .rdReg (answering (withArgs (opened true) 2#32 0#32 0#32 0#32)
      (bitsOf 16 0xFFFF ++ bitsOf 16 0x8155) (bitsOf 16 0x1234 ++ bitsOf 16 0x1234) []))).res =
      [⟨0x8155#32, 0#32⟩] ∧
    (after (exec .rdReg (answering (withArgs (opened true) 2#32 0#32 0#32 0#32)
      (bitsOf 16 0xFFFF ++ bitsOf 16 0x8155) (bitsOf 16 0x1234 ++ bitsOf 16 0x1234)
      []))).trace.length = 164 := by decide +kernel

/-- V-RD: `RDREG 63` sends `0x7E00` twice. -/
theorem test_rdreg_frame :
    doutBits (after (exec .rdReg (answering (withArgs (opened false) 63#32 0#32 0#32 0#32)
      (bitsOf 32 0) [] []))) = bitsOf 16 0x7E00 ++ bitsOf 16 0x7E00 := by decide +kernel

/-- V-REGS: `RDREGS [2, 64, 33]`. -/
theorem test_rdregs :
    (after (exec .rdRegs (answering (listing (opened false) 2#32 64#32 33#32 3#32)
      (bitsOf 16 0xAAAA ++ bitsOf 16 0x11 ++ bitsOf 16 0xBBBB ++ bitsOf 16 0x22 ++
        bitsOf 16 0xCCCC ++ bitsOf 16 0x133) [] []))).res =
      [⟨0x11#32, 0#32⟩, ⟨0x22#32, 0#32⟩, ⟨0x133#32, 0#32⟩] := by decide +kernel

/-- V-REGS: `RDREGS [2, 1, 3]` without the pre-check: two words, then the rejection. -/
theorem test_rdregs_without_precheck :
    (after (exec .rdRegs
      { answering (listing (opened false) 2#32 1#32 3#32 3#32) (bitsOf 32 0) [] [] with
        params := { Config.Params.default with rdregsPrecheck := false } })).trace.length = 132 ∧
    (after (exec .rdRegs
      { answering (listing (opened false) 2#32 1#32 3#32 3#32) (bitsOf 32 0) [] [] with
        params := { Config.Params.default with rdregsPrecheck := false } })).err = 1#3 := by
  decide +kernel

/-- V-CONV: two-wire `RDCONV 1`. -/
theorem test_rdconv_two_wire :
    (after (exec .rdConv (answering (withArgs (opened true) 0#32 0#32 1#32 0#32)
      (bitsOf 32 0x12345678) (bitsOf 32 0x9ABCDEF0) [false]))).res =
      [⟨0x12345678#32, 0x9ABCDEF0#32⟩] ∧
    (after (exec .rdConv (answering (withArgs (opened true) 0#32 0#32 1#32 0#32)
      (bitsOf 32 0x12345678) (bitsOf 32 0x9ABCDEF0) [false]))).trace.length = 165 := by
  decide +kernel

/-- V-CONV: `RDCONV 0` makes the handshake only. -/
theorem test_rdconv_zero :
    (after (exec .rdConv (answering (opened false) [] [] [false]))).trace =
      [.write .trig true, .write .trig false, .read .busy false] := by decide +kernel

/-- P1: the write frame `0x8755` on the wire. -/
theorem test_frame16_write :
    doutBits (after (exec (.frame16Write 3#6 0x155#9)
      (answering (opened false) (bitsOf 16 0xC0DE) [] []))) = bitsOf 16 0x8755 := by
  decide +kernel

/-- V-RD: the read frame of address 48 on the wire. -/
theorem test_frame16_read :
    doutBits (after (exec (.frame16Read 48#6) (answering (opened false) (bitsOf 16 0) [] []))) =
      bitsOf 16 0x6000 := by decide +kernel

/-- 42 R162: `PinWrite(DOUT, 0)` thirty-two times. -/
theorem test_word32_out :
    doutBits (after (exec .word32Out (answering (opened false) (bitsOf 32 0xBEEF1234) [] []))) =
      List.replicate 32 false := by decide +kernel

/-- S1: the conversion word delivered whole. -/
theorem test_word32_in :
    (after (exec (.word32In 0xBEEF#16 0x1234#16) (opened false))).res =
      [⟨0xBEEF1234#32, 0#32⟩] := by decide +kernel

/-- V-SH: the raw word `0xA5C3` on the wire. -/
theorem test_raw16 :
    doutBits (after (exec (.raw16 0xA5C3#16)
      (answering (opened false) (bitsOf 16 0) [] []))) = bitsOf 16 0xA5C3 := by decide +kernel

/-- V-SH: the raw word `0xDEADBEEF` on the wire. -/
theorem test_raw32 :
    doutBits (after (exec (.raw32 0xDEADBEEF#32)
      (answering (opened false) (bitsOf 32 0) [] []))) = bitsOf 32 0xDEADBEEF := by decide +kernel

/-- V-ERR: the code check comes before the state check: closed, `CMD <- 0x7F`. -/
theorem test_illegal_before_state :
    (after (step { State.reset with inputs := [.write 0#32 0x7F#32] })).err = 4#3 := by
  decide +kernel

/-- V-ERR: the state check comes before the address check: closed, `WRREG 8, 1`. -/
theorem test_state_before_address :
    (after (exec .wrReg (withArgs State.reset 8#32 1#32 0#32 0#32))).err = 3#3 := by
  decide +kernel

/-- P7: RESET ends a hang with no further pin event; the hung block reads `STATUS = 3`. -/
theorem test_reset_ends_hang :
    hostRead (after (exec .wrReg (polling [true]))) 0x04#32 = 3#32 ∧
    (after (step { polling [true] with inputs := [.reset] })).run = false ∧
    (after (step { polling [true] with inputs := [.reset] })).trace = [] := by decide +kernel

/-- 40 R120: while OPEN 1, 2 sets its pins up, they are those of (1, 2), the handle being at (0, 0);
after it they are those of the handle. -/
theorem test_setup_pins (p : Pin) :
    State.pinId { (opening 0b00101#5 true).issue 0x01#32 with phase := .oSetup } p =
      roleId 1#1 2#2 p ∧
    (opened false).pinId p = roleId 1#1 2#2 p := ⟨rfl, rfl⟩

/-- 30 R107: `OPEN 1, 2, 1, 1` writes `ARG_OPEN = 0b11101`. -/
theorem test_open_line :
    (Line.openHandle 1#1 2#2 true true).writes = [.write 0x18#32 0b11101#32, .write 0#32 1#32] ∧
    (Line.openHandle 0#1 1#2 false true).writes = [.write 0x18#32 0b10010#32, .write 0#32 1#32] := by
  decide

/-- 30 R107: the host writes of CLOSE, SETDIAG 1, SHIFT16, SHIFT32, RDREG and RDCONV. -/
theorem test_lines :
    Line.closeHandle.writes = [.write 0#32 0x02#32] ∧
    (Line.setDiag 0b10000#5).writes = [.write 0x18#32 0x10#32, .write 0#32 0x03#32] ∧
    (Line.shift16 7#32).writes = [.write 0x14#32 7#32, .write 0#32 0x10#32] ∧
    (Line.shift32 7#32).writes = [.write 0x14#32 7#32, .write 0#32 0x11#32] ∧
    (Line.rdReg 2#32).writes = [.write 0x08#32 2#32, .write 0#32 0x21#32] ∧
    (Line.rdConv 4#32).writes = [.write 0x10#32 4#32, .write 0#32 0x23#32] := by decide

/-- 10 R42: `ARG_OPEN` reads its five bits, the other operand and index registers read whole. -/
theorem test_host_reads_operands :
    hostRead (opening 0b11101#5 true) 0x18#32 = 0x1D#32 ∧
    hostRead (withArgs (opened false) 3#32 0xFFFFFFFF#32 5#32 6#32) 0x0C#32 = 0xFFFFFFFF#32 ∧
    hostRead { listing (opened false) 2#32 64#32 33#32 3#32 with listIdx := 1#32 } 0x38#32 = 64#32 :=
  by decide

/-- P6: the frames of `defineSequence [(0, 1), (2, 3)]`, in order. -/
theorem test_define_sequence :
    doutBits (returned (defineSequence 0 example6 [⟨0#4, 1#4⟩, ⟨2#4, 3#4⟩] sequencing)) =
      bitsOf 16 0xC010 ++ bitsOf 16 0xC332 ++ bitsOf 16 0x0400 ++ bitsOf 16 0x0400 ++
        bitsOf 16 0x8464 := by decide +kernel

/-- 43 R174: the sample of `convertPair` is the one conversion's capture. -/
theorem test_convert_pair :
    (match convertPair 0 example6 ⟨0#4, 1#4⟩
        (answering (opened false) (bitsOf 16 0 ++ bitsOf 32 0x00010002) [] [false, false]) with
      | .ok (_, sample) => sample
      | .error _ => 0#32) = 0x00010002#32 := by decide +kernel

/-- The instruction placed for a table row's bits is what the next step runs. -/
theorem test_fetch_word_runs :
    step (State.reset.withFetchWord 16 0x8755) =
      exec (.frame16Write 3#6 0x155#9) (State.reset.withFetchWord 16 0x8755) := by rfl

/-! ### Witnesses: the hypotheses of each statement that has some, met together

A witness is named after its statement. A statement with several clauses has one for each clause,
at the ends of its range. -/

/-- A block about to run the first micro-step of SHIFT16. -/
def issuedShift16 : State := (opened false).issue 0x10#32

/-- A block at the first word of RDREG 2. -/
def readingReg : State :=
  { (withArgs (opened false) 2#32 0#32 0#32 0#32).issue 0x21#32 with phase := .sLoad, wordIdx := 0#32 }

/-- Parameters without the pre-check. -/
def perElement (s : State) : State :=
  { s with params := { s.params with rdregsPrecheck := false } }

theorem witness_DecodedWordIsTheEncodedOne :
    decodeIn .frameOut 0xFFFF8755#32 = .ok (.frame16Write 3#6 0x155#9) ∧
    decodeIn .frameOut 0x0400#32 = .ok (.frame16Read 2#6) ∧
    decodeIn .hostCmd 0x23#32 = .ok .rdConv ∧
    decodeIn .convOut 0#32 = .ok .word32Out ∧
    decodeIn .raw16Out 0xFFFFA5C3#32 = .ok (.raw16 0xA5C3#16) := by decide

/-- Two addresses with the same low six bits; the valid addresses at the ends of the ranges, the
special one (64) and an ordinary one (63). -/
theorem witness_FramedAddressIsTheLowSixBits :
    (2#32).extractLsb' 0 6 = (66#32).extractLsb' 0 6 ∧
    validAddr 2#32 = true ∧ validAddr 7#32 = true ∧ validAddr 32#32 = true ∧
    validAddr 63#32 = true ∧ validAddr 64#32 = true := by decide

theorem witness_ValidAddressesAreTheTwoRanges :
    validAddr 2#32 = true ∧ validAddr 7#32 = true ∧ validAddr 32#32 = true ∧
    validAddr 64#32 = true ∧ validAddr 1#32 = false ∧ validAddr 8#32 = false ∧
    validAddr 31#32 = false ∧ validAddr 65#32 = false ∧ validAddr 0x80000002#32 = false := by decide

theorem witness_CapturedBitsStandInOrder : (32 ≤ 32 ∧ 31 < 32) ∧ (16 ≤ 32 ∧ 16 < 32) := by decide

theorem witness_StepRunsTheIssuedCommand :
    let s : State := { State.reset with inputs := [.write 0#32 0x20#32] }
    s.run = false ∧ s.inputs = .write 0#32 0x20#32 :: [] ∧
      decodeIn .hostCmd 0x20#32 = .ok .wrReg := by decide

/-- With no input pending, and with a turn of the engine first. -/
theorem witness_StepRunsTheFetchedWord :
    (readingReg.run = true ∧ readingReg.inputs = [] ∧
      decodeIn (fetch readingReg).1 (fetch readingReg).2 = .ok (.frame16Read 2#6)) ∧
    (let s : State := { issuedShift16 with inputs := [.turn] }
     s.run = true ∧ (∃ rest, s.inputs = .turn :: rest) ∧
      decodeIn (fetch s).1 (fetch s).2 = .ok .shift16) :=
  ⟨by decide, by decide, ⟨[], rfl⟩, by decide⟩

/-- At `S_LOAD` of RDREG, at `W_DONE` of RDCONV, and elsewhere. -/
theorem witness_FetchedWordDecodes :
    (decodeCmd readingReg.lat.cmdWord = .ok .rdReg ∧ readingReg.phase = .sLoad) ∧
    (let s : State := { polling [] with phase := .wDone, lat := latched 0x23#32 State.reset.args }
     decodeCmd s.lat.cmdWord = .ok .rdConv ∧ s.phase = .wDone) ∧
    (decodeCmd issuedShift16.lat.cmdWord = .ok .shift16 ∧ issuedShift16.phase ≠ .sLoad ∧
      issuedShift16.phase ≠ .wDone) := by decide

theorem witness_IdleBlockWaits :
    (State.reset.run = false ∧ State.reset.inputs = []) ∧
    (let s : State := { State.reset with inputs := [.turn, .reset] }
     s.run = false ∧ s.inputs = .turn :: [.reset]) := by decide

theorem issuedShift16_inv : issuedShift16.Inv := by constructor <;> decide +kernel

theorem witness_OneTurnIsAtMostOnePinEvent :
    let s : State := { issuedShift16 with inputs := [.turn, .reset] }
    s.Inv ∧ s.inputs = .turn :: .reset :: [] ∧ Input.reset ≠ .turn ∧ ∃ t, step s = .next t :=
  ⟨by constructor <;> decide +kernel, rfl, by decide, _, rfl⟩

theorem witness_StepOnlyAppendsPinEvents : ∃ t, step issuedShift16 = .next t := ⟨_, rfl⟩

/-- A block about to open, and one in the set-up. -/
theorem witness_OpenCompletes :
    (let s := opening 0b11101#5 true
     s.run = false ∧ s.inputs = [] ∧ s.cfg.isOpen = false ∧
      legalPair (opnBus s.args.opn) (opnDev s.args.opn) = true ∧ s.nextReady = true ∧
      ∃ t, exec .openHandle s = .next t) ∧
    ({ (opening 0b11101#5 true).issue 0x01#32 with phase := .oSetup } : State).phase = .oSetup :=
  ⟨⟨by decide, by decide, by decide, by decide, by decide, _, rfl⟩, rfl⟩

theorem witness_OpenFailsAtPinInit :
    let s := opening 0b00010#5 false
    s.run = false ∧ s.inputs = [] ∧ s.cfg.isOpen = false ∧
      legalPair (opnBus s.args.opn) (opnDev s.args.opn) = true ∧ s.nextReady = false := by decide

/-- The three illegal pairs, and the five legal ones. -/
theorem witness_OpenRejectsIllegalPairs :
    (∀ o ∈ [0b00100#5, 0b00110#5, 0b00111#5],
      (opening o true).run = false ∧ (opening o true).inputs = [] ∧
      (opening o true).cfg.isOpen = false ∧
      legalPair (opnBus (opening o true).args.opn) (opnDev (opening o true).args.opn) = false) ∧
    (∀ o ∈ [0b00000#5, 0b00010#5, 0b00001#5, 0b00011#5, 0b00101#5],
      (opening o true).run = false ∧ (opening o true).inputs = [] ∧
      (opening o true).cfg.isOpen = false ∧
      legalPair (opnBus (opening o true).args.opn) (opnDev (opening o true).args.opn) = true) := by
  decide

/-- A second OPEN, and a CLOSE without a handle. -/
theorem witness_WrongHandleStateIsRejected :
    (Instr.openHandle.space = .hostCmd ∧ (opened false).run = false ∧ (opened false).inputs = [] ∧
      (opened false).cfg.isOpen = decide (Instr.openHandle = .openHandle)) ∧
    (Instr.closeHandle.space = .hostCmd ∧ State.reset.run = false ∧ State.reset.inputs = [] ∧
      State.reset.cfg.isOpen = decide (Instr.closeHandle = .openHandle)) := by decide

/-- An idle block with an open handle: `CloseCompletes`, `SetDiagCompletes`, `Shift16Completes` and
`Shift32Completes` ask no more. -/
theorem witness_CloseCompletes :
    (opened true).run = false ∧ (opened true).inputs = [] ∧ (opened true).cfg.isOpen = true := by
  decide

theorem witness_SetDiagCompletes :
    (opened false).run = false ∧ (opened false).inputs = [] ∧ (opened false).cfg.isOpen = true := by
  decide

theorem witness_Shift16Completes :
    (opened true).run = false ∧ (opened true).inputs = [] ∧ (opened true).cfg.isOpen = true := by
  decide

theorem witness_Shift32Completes :
    (opened false).run = false ∧ (opened false).inputs = [] ∧ (opened false).cfg.isOpen = true := by
  decide

theorem witness_WireWordsAreShiftedOut : State.reset.inputs = [] := by decide

theorem witness_WordCostsItsPinEvents :
    (opened true).inputs = [] ∧
    (∀ i ∈ [Instr.frame16Write 3#6 1#9, .frame16Read 3#6, .raw16 1#16],
      (i.space = .frameOut ∨ i.space = .raw16Out) ∧ ∃ t, exec i (opened true) = .next t) ∧
    (∀ i ∈ [Instr.word32Out, .raw32 1#32],
      (i.space = .convOut ∨ i.space = .raw32Out) ∧ ∃ t, exec i (opened true) = .next t) := by
  refine ⟨rfl, fun i hi => ⟨?_, ?_⟩, fun i hi => ⟨?_, ?_⟩⟩
  · revert i; decide
  · cases i <;> exact ⟨_, rfl⟩
  · revert i; decide
  · cases i <;> exact ⟨_, rfl⟩

theorem witness_WrRegCompletes :
    let s := answering (withArgs (opened false) 64#32 1#32 0#32 0#32) [] [] [false]
    s.run = false ∧ s.inputs = [] ∧ s.cfg.isOpen = true ∧ validAddr s.args.addr = true ∧
      s.comingLevel .busy 0 = s.params.busyIdle := by decide

/-- Two busy polls, and none. -/
theorem witness_WrRegCompletesAfterBusyPolls :
    (let s : State :=
      { answering (withArgs (opened false) 3#32 1#32 0#32 0#32) [] [] [true, true, false] with
        inputs := [.write 0#32 0x20#32] }
     s.run = false ∧ s.inputs = [.write 0#32 0x20#32] ∧ s.cfg.isOpen = true ∧
      validAddr s.args.addr = true ∧ (∀ k, k < 2 → s.comingLevel .busy k ≠ s.params.busyIdle) ∧
      s.comingLevel .busy 2 = s.params.busyIdle) ∧
    (let s : State :=
      { answering (withArgs (opened false) 3#32 1#32 0#32 0#32) [] [] [false] with
        inputs := [.write 0#32 0x20#32] }
     s.run = false ∧ s.inputs = [.write 0#32 0x20#32] ∧ s.cfg.isOpen = true ∧
      validAddr s.args.addr = true ∧ (∀ k, k < 0 → s.comingLevel .busy k ≠ s.params.busyIdle) ∧
      s.comingLevel .busy 0 = s.params.busyIdle) := by decide

theorem witness_RdRegCompletes :
    let s := withArgs (opened true) 2#32 0#32 0#32 0#32
    s.run = false ∧ s.inputs = [] ∧ s.cfg.isOpen = true ∧ validAddr s.args.addr = true := by decide

theorem witness_RdRegReturnsToIdlePins :
    let s := withArgs (opened true) 7#32 0#32 0#32 0#32
    s.run = false ∧ s.inputs = [] ∧ s.cfg.isOpen = true ∧ validAddr s.args.addr = true ∧
      s.out.trig = false := by decide

/-- 95 S5: `(32, 0xABCD)`, the chip answering `0x1CD` in the second word. -/
theorem witness_MaskingRoundTrip :
    let s := answering (withArgs (opened false) 32#32 0#32 0#32 0#32)
      (bitsOf 16 0xC0DE ++ bitsOf 16 0x1CD) [] []
    s.run = false ∧ s.inputs = [] ∧ s.cfg.isOpen = true ∧ validAddr s.args.addr = true ∧
      ∀ k, k < 16 → s.comingLevel .dina (16 + k) =
        ((frameData (writeFrame s.args.addr 0xABCD#32)).setWidth 16).getLsbD (15 - k) := by decide

/-- Three valid addresses, and the empty list. -/
theorem witness_RdRegsCompletes :
    (let s := listing (opened false) 2#32 64#32 33#32 3#32
     s.run = false ∧ s.inputs = [] ∧ s.cfg.isOpen = true ∧
      s.args.count.toNat ≤ s.params.listMax ∧ s.args.count.toNat ≤ 2 ^ 31 ∧
      allValid s.list s.args.count.toNat = true) ∧
    (let s := listing (opened false) 0#32 0#32 0#32 0#32
     s.run = false ∧ s.inputs = [] ∧ s.cfg.isOpen = true ∧
      s.args.count.toNat ≤ s.params.listMax ∧ s.args.count.toNat ≤ 2 ^ 31 ∧
      allValid s.list s.args.count.toNat = true) := by decide

theorem witness_RdRegsEqualsSeparateReads :
    let s := listing (opened false) 5#32 5#32 33#32 2#32
    s.run = false ∧ s.inputs = [] ∧ s.cfg.isOpen = true ∧
      s.args.count.toNat ≤ s.params.listMax ∧ s.args.count.toNat ≤ 2 ^ 31 ∧
      allValid s.list s.args.count.toNat = true ∧ ∃ t, exec .rdRegs s = .next t :=
  ⟨by decide, by decide, by decide, by decide, by decide, by decide, _, rfl⟩

/-- A list one too long, and an invalid address under the pre-check. -/
theorem witness_RdRegsRejects :
    (let s := listing (opened false) 2#32 3#32 4#32 65#32
     s.run = false ∧ s.inputs = [] ∧ s.cfg.isOpen = true ∧
      s.params.listMax < s.args.count.toNat) ∧
    (let s := listing (opened false) 2#32 1#32 3#32 3#32
     s.run = false ∧ s.inputs = [] ∧ s.cfg.isOpen = true ∧ s.params.rdregsPrecheck = true ∧
      allValid s.list s.args.count.toNat = false) := by decide

/-- The first invalid address in the middle, at the head and at the end. -/
theorem witness_RdRegsWithoutPrecheckStopsAtTheFirstInvalid :
    ∀ x ∈ [(2#32, 1#32, 3#32, 1), (8#32, 2#32, 3#32, 0), (2#32, 3#32, 65#32, 2)],
      let s := perElement (listing (opened false) x.1 x.2.1 x.2.2.1 3#32)
      s.run = false ∧ s.inputs = [] ∧ s.cfg.isOpen = true ∧ s.params.rdregsPrecheck = false ∧
        s.args.count.toNat ≤ s.params.listMax ∧ s.args.count.toNat ≤ 2 ^ 31 ∧
        x.2.2.2 < s.args.count.toNat ∧
        allValid s.list x.2.2.2 = true ∧ validAddr (listAt s.list x.2.2.2) = false := by decide

/-- 95 S4: the rejected addresses next to the ranges and beyond 16 bits. -/
theorem witness_InvalidAddressIsRejected :
    [0#32, 1#32, 8#32, 31#32, 65#32, 66#32, 0x80000000#32, 0xFFFFFFFF#32].all (fun a =>
      let s := withArgs (opened false) a 0#32 0#32 0#32
      decide (s.run = false ∧ s.inputs = [] ∧ s.cfg.isOpen = true ∧
        validAddr s.args.addr = false)) = true := by decide +kernel

/-- The counts 0, 1 and `COUNT_MAX`. -/
theorem witness_RdConvCompletes :
    [0#32, 1#32, 64#32].all (fun n =>
      let s := answering (withArgs (opened true) 0#32 0#32 n 0#32) [] [] [false]
      decide (s.run = false ∧ s.inputs = [] ∧ s.cfg.isOpen = true ∧
        s.args.count.toNat ≤ s.params.countMax ∧
        s.comingLevel .busy 0 = s.params.busyIdle)) = true := by decide +kernel

/-- Two busy polls before two words, and none (no `k` is below 0) before the counts 0 and
`COUNT_MAX`. -/
theorem witness_RdConvCompletesAfterBusyPolls :
    (let s : State :=
      { answering (withArgs (opened true) 0#32 0#32 2#32 0#32)
          (bitsOf 32 0xBEEF1234 ++ bitsOf 32 0x00018000) [] [true, true, false] with
        inputs := [.write 0#32 0x23#32] }
     s.run = false ∧ s.inputs = [.write 0#32 0x23#32] ∧ s.cfg.isOpen = true ∧
      s.args.count.toNat ≤ s.params.countMax ∧
      (∀ k, k < 2 → s.comingLevel .busy k ≠ s.params.busyIdle) ∧
      s.comingLevel .busy 2 = s.params.busyIdle) ∧
    [0#32, 64#32].all (fun n =>
      let s : State :=
        { answering (withArgs (opened false) 0#32 0#32 n 0#32) [] [] [false] with
          inputs := [.write 0#32 0x23#32] }
      decide (s.run = false ∧ s.inputs = [.write 0#32 0x23#32] ∧ s.cfg.isOpen = true ∧
        s.args.count.toNat ≤ s.params.countMax ∧ s.comingLevel .busy 0 = s.params.busyIdle)) = true := by decide +kernel

theorem witness_RdConvRejectsLargeCounts :
    let s := withArgs (opened false) 0#32 0#32 65#32 0#32
    s.run = false ∧ s.inputs = [] ∧ s.cfg.isOpen = true ∧
      s.params.countMax < s.args.count.toNat := by decide

theorem witness_ConversionCaptureIsDelivered : (opened true).inputs = [] := by decide

theorem witness_BusyPollStays :
    let s := polling [true]
    s.run = true ∧ s.inputs = [] ∧ s.phase = .hPoll ∧
      s.comingLevel .busy 0 ≠ s.params.busyIdle := by decide

/-- Three busy polls of WRREG, and of RDCONV. -/
theorem witness_BusyChipHangsTheCommand :
    (let s := polling [true, true, true]
     decodeCmd s.lat.cmdWord = .ok .wrReg ∧ s.run = true ∧ s.inputs = [] ∧ s.phase = .hPoll ∧
      ∀ k, k < 3 → s.comingLevel .busy k ≠ s.params.busyIdle) ∧
    (let s : State := { polling [true, true, true] with lat := latched 0x23#32 State.reset.args }
     decodeCmd s.lat.cmdWord = .ok .rdConv ∧ s.run = true ∧ s.inputs = [] ∧ s.phase = .hPoll ∧
      ∀ k, k < 3 → s.comingLevel .busy k ≠ s.params.busyIdle) := by decide

/-- Codes next to defined ones, a code with a high bit set, and 0. -/
theorem witness_UndefinedCodesAreRejected :
    [0x00#32, 0x04#32, 0x12#32, 0x24#32, 0x7F#32, 0x00000120#32].all (fun w =>
      let s : State := { State.reset with inputs := [.write 0#32 w] }
      decide (s.run = false ∧ s.inputs = [.write 0#32 w] ∧
        w ∉ [0x01#32, 0x02#32, 0x03#32, 0x10#32, 0x11#32, 0x20#32, 0x21#32, 0x22#32,
          0x23#32])) = true := by decide +kernel

/-- A rejected WRREG, a rejected RDREGS under the pre-check, and an OPEN whose `PinInit` fails. -/
theorem witness_RejectionTouchesNothing :
    (Instr.wrReg.space = .hostCmd ∧ State.reset.run = false ∧ State.reset.inputs = [] ∧
      ∃ t, exec .wrReg State.reset = .next t ∧ t.err ≠ 0#3) ∧
    (let s := listing (opened false) 2#32 1#32 3#32 3#32
     s.run = false ∧ s.inputs = [] ∧ s.params.rdregsPrecheck = true ∧
      ∃ t, exec .rdRegs s = .next t ∧ t.err ≠ 0#3) ∧
    (let s := opening 0#5 false
     s.run = false ∧ s.inputs = [] ∧ ∃ t, exec .openHandle s = .next t ∧ t.err ≠ 0#3) :=
  ⟨⟨rfl, rfl, rfl, _, rfl, by decide +kernel⟩, ⟨rfl, rfl, rfl, _, rfl, by decide +kernel⟩,
    ⟨rfl, rfl, _, rfl, by decide +kernel⟩⟩

theorem witness_NoErrorOncePastTheCheck :
    readingReg.run = true ∧ readingReg.Executes .rdReg ∧ readingReg.phase ≠ .check ∧
      readingReg.phase ≠ .oInit ∧ readingReg.params.rdregsPrecheck = true ∧
      ∃ t, exec .rdReg readingReg = .next t :=
  ⟨by decide, fun _ => by decide, by decide, by decide, by decide, _, rfl⟩

theorem witness_NoInstructionWritesHostRegisters :
    ∃ t, exec .shift16 (opened false) = .next t := ⟨_, rfl⟩

theorem opened_executes (i : Instr) : (opened false).Executes i :=
  fun h => absurd (show false = true from h) (by decide)

/-- An instruction issued, and one at a phase of its own. -/
theorem witness_OnlyHandleCommandsWriteTheHandle :
    (Instr.shift16.space = .hostCmd ∧ (opened false).Executes .shift16 ∧
      ∃ t, exec .shift16 (opened false) = .next t) ∧
    (Instr.rdReg.space = .hostCmd ∧ readingReg.run = true ∧ readingReg.Executes .rdReg ∧
      ∃ t, exec .rdReg readingReg = .next t) :=
  ⟨⟨rfl, opened_executes .shift16, _, rfl⟩, ⟨rfl, rfl, fun _ => by decide, _, rfl⟩⟩

theorem witness_OnlyHandshakesPulseTheTrigger :
    (Instr.rdReg.space = .hostCmd ∧ readingReg.Executes .rdReg ∧
      ∃ t, exec .rdReg readingReg = .next t) ∧
    (Instr.setDiag.space = .hostCmd ∧ (opened false).Executes .setDiag ∧
      ∃ t, exec .setDiag (opened false) = .next t) :=
  ⟨⟨rfl, fun _ => by decide, _, rfl⟩, ⟨rfl, opened_executes .setDiag, _, rfl⟩⟩

theorem witness_EveryStepKeepsTheInvariant :
    issuedShift16.Inv ∧ ∃ t, step issuedShift16 = .next t := ⟨issuedShift16_inv, _, rfl⟩

theorem witness_InvariantGivesTheRules :
    (opened true).Inv ∧ (opened true).cfg.isOpen = true ∧ (opened true).run = false :=
  ⟨by constructor <;> decide +kernel, by decide, by decide⟩

theorem witness_HostReadsChangeNothing :
    let s : State := { polling [true] with inputs := [.read 0x04#32] }
    s.run = true ∧ s.inputs = .read 0x04#32 :: [] := by decide

theorem witness_HostWritesWhileRunningAreIgnored :
    let s : State := { polling [true] with inputs := [.write 0#32 0x02#32] }
    s.run = true ∧ s.inputs = .write 0#32 0x02#32 :: [] := by decide

/-- Every writable register, a read-only one, an offset not in the table, and `LISTDATA` at the last
index and past it. -/
theorem witness_HostWritesReachTheirRegister :
    [0x08#32, 0x0C#32, 0x10#32, 0x14#32, 0x18#32, 0x28#32, 0x34#32, 0x04#32, 0x3C#32].all (fun o =>
      let s : State := { State.reset with inputs := [.write o 5#32] }
      decide (s.run = false ∧ s.inputs = [.write o 5#32] ∧ o ≠ 0#32)) = true ∧
    (let s : State := { State.reset with listIdx := 63#32, inputs := [.write 0x38#32 5#32] }
     s.run = false ∧ s.inputs = [.write 0x38#32 5#32] ∧ s.listIdx.toNat < s.params.listMax) ∧
    (let s : State := { State.reset with listIdx := 64#32, inputs := [.write 0x38#32 5#32] }
     s.run = false ∧ s.inputs = [.write 0x38#32 5#32] ∧ ¬ s.listIdx.toNat < s.params.listMax) := by
  decide +kernel

/-- A record that is there, an index past the end, the last list index, the first past it, and
offsets outside the table on either count. -/
theorem witness_HostReadsShowTheirFields :
    (let s : State := { opened true with res := [⟨1#32, 2#32⟩] }
     s.res[s.resIdx.toNat]? = some ⟨1#32, 2#32⟩) ∧
    State.reset.res.length ≤ State.reset.resIdx.toNat ∧
    (let s : State := { State.reset with listIdx := 63#32 }
     s.listIdx.toNat < s.params.listMax ∧ s.list[s.listIdx.toNat]? = some 0#32) ∧
    (let s : State := { State.reset with listIdx := 64#32 }
     s.params.listMax ≤ s.listIdx.toNat) ∧
    0x38 < (0x3C#32).toNat ∧ (0x05#32).toNat % 4 ≠ 0 := by decide

/-- An idle block with the host writes of each line. -/
theorem witness_CommandLinesIssueTheirCommands :
    [Line.openHandle 1#1 2#2 true false, .closeHandle, .setDiag 0b10000#5, .shift16 0xA5C3#32,
     .shift32 1#32, .wrReg 3#32 0x155#32, .rdReg 64#32, .rdConv 4#32].all (fun l =>
      let s : State := { opened false with inputs := l.writes }
      decide (s.run = false ∧ s.inputs = l.writes)) = true := by decide +kernel

/-- Three addresses, and the longest list. -/
theorem witness_RdRegsLineIssuesItsCommand :
    ∀ l ∈ [[2#32, 1#32, 3#32], List.replicate 64 5#32, []],
      let s : State := { opened false with inputs := (Line.rdRegs l).writes }
      s.run = false ∧ s.inputs = (Line.rdRegs l).writes ∧ l.length ≤ s.params.listMax ∧
        s.list.length = s.params.listMax ∧ s.params.listMax < 2 ^ 32 := by decide +kernel

/-- RESET in the middle of a hang. -/
theorem witness_ResetWinsOverEverything :
    let s : State := { polling [true] with inputs := [.reset, .turn] }
    s.run = true ∧ s.inputs = .reset :: [.turn] := by decide

theorem witness_DiagnosticsFlagAffectsNothing :
    (∃ t, exec .shift16 (opened false) = .next t) ∧
      ∃ u, exec .shift16 ((opened false).withDiag true) = .next u := ⟨⟨_, rfl⟩, _, rfl⟩

theorem witness_ScratchCarriesNothingOver :
    Instr.shift16.space = .hostCmd ∧ (opened false).run = false ∧
    (∃ t, exec .shift16 (opened false) = .next t) ∧
      ∃ u, exec .shift16 ((opened false).withScratch (latched 5#32 (opened false).args)
        ⟨1#32, 2#32, 3#32, true, 4#5⟩ 7#32 3) = .next u := ⟨rfl, rfl, ⟨_, rfl⟩, _, rfl⟩

/-- Sequences of 33, 0, 32 and 1 pairs; the two pairs of P6 in a state whose call returns; a pair to
convert; a period of one pair. -/
theorem witness_ClientSequencesSendTheirLines :
    32 < (List.replicate 33 (⟨1#4, 2#4⟩ : ChannelPair)).length ∧
    (1 ≤ (List.replicate 32 (⟨1#4, 2#4⟩ : ChannelPair)).length ∧
      (List.replicate 32 (⟨1#4, 2#4⟩ : ChannelPair)).length ≤ 32) ∧
    (1 ≤ [(⟨1#4, 2#4⟩ : ChannelPair)].length ∧ [(⟨1#4, 2#4⟩ : ChannelPair)].length ≤ 32) ∧
    (sequencing.run = false ∧ sequencing.cfg.isOpen = true ∧ validAddr example6.configReg = true ∧
      (∀ w ∈ [(32#32, 0x010#32), (33#32, 0x132#32)], validAddr w.1 = true) ∧
      (∀ k, k ≤ 2 → sequencing.comingLevel .busy k = sequencing.params.busyIdle) ∧
      (defineSequence 0 example6 [⟨0#4, 1#4⟩, ⟨2#4, 3#4⟩] sequencing).toOption.isSome = true) ∧
    (validAddr example6.channelReg = true ∧ 1 ≤ sequencing.params.countMax) ∧ 0 < 1 := by
  refine ⟨by decide, by decide, by decide, ⟨by decide, by decide, by decide, ?_, ?_, ?_⟩, by decide,
    by decide⟩
  · rintro w hw
    rcases List.mem_pair.mp hw with rfl | rfl <;> decide
  · decide
  · decide +kernel

end Sys2Proof.Tests
end

section
/-! SUPPORT. The proofs of the statements of scope (00_scope.md): every step answers, and a rejected
command has touched nothing. The key fact is that a command can be rejected in two phases only,
`CHECK` and `O_INIT`: from any phase past them every micro-step keeps `ERR`. -/

namespace Sys2Proof.Machine

/-! ### Every step answers -/

/-- A word written to `CMD` is executed or rejected as undefined, and both answer a state. -/
theorem runIssued_answers (w : Word) (s : State) : ∃ t, runIssued w s = .next t := by
  unfold runIssued
  cases decodeCmd w with
  | ok i => exact exec_answers i s
  | error _ => exact ⟨_, rfl⟩

/-- The engine's turn answers a state, whatever word is fetched. -/
theorem engineTurn_answers (s : State) : ∃ t, engineTurn s = .next t := by
  unfold engineTurn
  split
  · cases decodeIn (fetch s).1 (fetch s).2 with
    | ok i => exact exec_answers i s
    | error _ => exact ⟨_, rfl⟩
  · exact ⟨_, rfl⟩

/-- Settles O11, by the input that stands first in the schedule. -/
theorem everyStepAnswersANextState : Obligations.EveryStepAnswersANextState := by
  unfold Obligations.EveryStepAnswersANextState
  intro s
  cases hi : s.inputs with
  | nil => exact .inl (by simpa only [step, hi] using engineTurn_answers s)
  | cons x rest =>
    cases x with
    | turn => exact .inl (by simpa only [step, hi] using engineTurn_answers s)
    | reset => exact .inl ⟨_, by simp only [step, hi]; rfl⟩
    | read offset => exact .inl ⟨_, by simp only [step, hi]; rfl⟩
    | write offset v =>
      left
      simp only [step, hi]
      split
      · exact runIssued_answers v _
      · exact ⟨_, rfl⟩
    | secondAgent => exact .inr ⟨⟨rest, rfl⟩, by simp only [step, hi]⟩

/-! ### Past the checks no error arises -/

/-- A phase in which no command is rejected (60 R190, R196): any but `CHECK`, and `O_INIT` of OPEN
(40 R121). -/
def Phase.pastCheck (p : Phase) : Bool := decide (p ≠ .check) && decide (p ≠ .oInit)

theorem Phase.pastCheck_of_eq {p q : Phase} (h : p = q) (hq : q.pastCheck = true) :
    p.pastCheck = true :=
  h ▸ hq

/-- The engine went from `s` to `t` without touching `ERR`, and `t` is past the checks. -/
abbrev KeepsError (s t : State) : Prop :=
  t.err = s.err ∧ t.params = s.params ∧ t.phase.pastCheck = true

theorem KeepsError.refl {s : State} (h : s.phase.pastCheck = true) : KeepsError s s :=
  ⟨rfl, rfl, h⟩

theorem KeepsError.trans {s t u : State} (h : KeepsError s t) (g : KeepsError t u) :
    KeepsError s u :=
  have ⟨herr, hparams, _⟩ := h
  have ⟨gerr, gparams, gpast⟩ := g
  ⟨gerr.trans herr, gparams.trans hparams, gpast⟩

/-- Under the pre-check an element of RDREGS is not checked again (42 R160). -/
theorem startElement_of_precheck {s : State} (h : s.params.rdregsPrecheck = true) :
    startElement s = s.goto .sLoad :=
  if_neg (by simp [h])

theorem doneRdReg_keepsError (s : State) : KeepsError s (doneRdReg s) := by
  unfold doneRdReg
  split <;> exact ⟨rfl, rfl, rfl⟩

theorem deliverConversion_keepsError (c : Word) (s : State) :
    KeepsError s (deliverConversion c s) := by
  unfold deliverConversion
  split <;> exact ⟨rfl, rfl, rfl⟩

theorem doneRdRegs_keepsError {s : State} (h : s.params.rdregsPrecheck = true) :
    KeepsError s (doneRdRegs s) := by
  unfold doneRdRegs
  split
  · exact ⟨rfl, rfl, rfl⟩
  · split
    · exact ⟨rfl, rfl, rfl⟩
    · rw [startElement_of_precheck (by exact h)]
      exact ⟨rfl, rfl, rfl⟩

/-- The disposal of a word rejects nothing, but for RDREGS without the pre-check (42 R160, R166). -/
theorem planOf_done_keepsError (i : Instr) {s : State}
    (h : i = .rdRegs → s.params.rdregsPrecheck = true) : KeepsError s ((planOf i).done s) := by
  cases i with
  | rdReg => exact doneRdReg_keepsError s
  | rdRegs => exact doneRdRegs_keepsError (h rfl)
  | rdConv => exact deliverConversion_keepsError _ s
  | _ => exact ⟨rfl, rfl, rfl⟩

theorem planOf_afterPoll_keepsError (i : Instr) (s : State) :
    KeepsError s ((planOf i).afterPoll s) := by
  cases i with
  | rdConv =>
    show KeepsError s (if s.lat.cnt = 0#32 then s.goto .finish else s.goto .sLoad)
    split <;> exact ⟨rfl, rfl, rfl⟩
  | _ => exact ⟨rfl, rfl, rfl⟩

theorem phaseSetup_keepsError {s : State} (h : s.phase = .oSetup) :
    KeepsError s (phaseSetup s) := by
  unfold phaseSetup
  split
  · exact ⟨setupEvent_err _ _ s, setupEvent_params _ _ s, rfl⟩
  · have hp : (setupEvent s.ostep.val (opnDual s.lat.opn) s).phase = .oSetup :=
      (setupEvent_phase _ _ s).trans h
    exact ⟨setupEvent_err _ _ s, setupEvent_params _ _ s, Phase.pastCheck_of_eq hp rfl⟩

theorem phasePoll_keepsError (i : Instr) {s : State} (h : s.phase = .hPoll) :
    KeepsError s (phasePoll (planOf i).afterPoll s) := by
  have hread : KeepsError s (s.pinRead .busy) :=
    ⟨rfl, rfl, Phase.pastCheck_of_eq h rfl⟩
  unfold phasePoll
  split
  · exact hread.trans (planOf_afterPoll_keepsError i _)
  · exact hread

theorem phaseSampleA_keepsError (s : State) : KeepsError s (phaseSampleA s) := by
  refine ⟨rfl, rfl, ?_⟩
  unfold phaseSampleA
  cases s.cfg.dual <;> rfl

theorem phaseClkHi_keepsError (s : State) : KeepsError s (phaseClkHi s) := by
  unfold phaseClkHi
  split <;> exact ⟨rfl, rfl, rfl⟩

/-- Past the checks, every phase of a command keeps `ERR` and stays past them (60 R190). -/
theorem phaseStep_keepsError (i : Instr) {s : State}
    (hpre : i = .rdRegs → s.params.rdregsPrecheck = true) (h : s.phase.pastCheck = true) :
    KeepsError s (phaseStep (planOf i) s) := by
  unfold phaseStep
  cases hp : s.phase with
  | check =>
    rw [hp] at h
    exact absurd h Bool.false_ne_true
  | oInit =>
    rw [hp] at h
    exact absurd h Bool.false_ne_true
  | idle => exact .refl h
  | oSetup => exact phaseSetup_keepsError hp
  | hPoll => exact phasePoll_keepsError i hp
  | sSampleA => exact phaseSampleA_keepsError s
  | sClkHi => exact phaseClkHi_keepsError s
  | wDone => exact planOf_done_keepsError i hpre
  | _ => exact ⟨rfl, rfl, rfl⟩

/-- Past the checks, no run of a command touches `ERR`, whatever the environment answers. -/
theorem runEngine_keepsError (stop : State → Bool) (i : Instr) (n : Nat) {s : State}
    (hpre : i = .rdRegs → s.params.rdregsPrecheck = true) (h : s.phase.pastCheck = true) :
    KeepsError s (runEngine stop (planOf i) n s) := by
  refine runEngine_keeps (K := KeepsError s) (fun t ht _ => ?_) n s (.refl h)
  obtain ⟨herr, hparams, hpast⟩ := ht
  have hturnParams : t.takeTurn.params = s.params := t.takeTurn_params.trans hparams
  have hturnPast : t.takeTurn.phase.pastCheck = true :=
    Phase.pastCheck_of_eq t.takeTurn_phase hpast
  have hturn : KeepsError s t.takeTurn := ⟨t.takeTurn_err.trans herr, hturnParams, hturnPast⟩
  exact hturn.trans (phaseStep_keepsError i (by rwa [hturnParams]) hturnPast)

/-! ### How a command can end -/

/-- A command whose run is known for its first micro-steps goes on from where they lead. -/
theorem runCommand_goes_on {p : Plan} {w : Word} {s t : State} {m : Nat} (hr : s.run = false)
    (h : Runs p m (s.issue w) t) (hm : m ≤ 400) :
    ∃ n, runCommand p w s = .next (runEngine atIdle p n t) := by
  have hf : commandFuel (s.issue w) = commandFuel (s.issue w) - m + m := by
    unfold commandFuel
    omega
  refine ⟨commandFuel (s.issue w) - m, ?_⟩
  have hrun := h (commandFuel (s.issue w) - m)
  rw [← hf] at hrun
  rw [runCommand, show s.begin w = s.issue w by simp [State.begin, hr], hrun]

/-- The micro-step `CHECK` of an issued command. -/
theorem Runs.check {p : Plan} {w : Word} {s t : State} (hi : s.inputs = [])
    (h : p.check (s.issue w) = t) : Runs p 1 (s.issue w) t :=
  Runs.phase hi (by simp) (by simp) (by simpa [phaseStep] using h)

theorem checkAddr_cases {first : Phase} (hf : first.pastCheck = true) (s : State) :
    (∃ e, checkAddr first s = s.reject e) ∨ KeepsError s (checkAddr first s) := by
  unfold checkAddr
  split
  · split
    · exact .inr ⟨rfl, rfl, hf⟩
    · exact .inl ⟨_, rfl⟩
  · exact .inl ⟨_, rfl⟩

theorem checkRdRegs_cases {s : State} (h : s.params.rdregsPrecheck = true) :
    (∃ e, checkRdRegs s = s.reject e) ∨ KeepsError s (checkRdRegs s) := by
  unfold checkRdRegs
  split
  · split
    · exact .inl ⟨_, rfl⟩
    · split
      · exact .inl ⟨_, rfl⟩
      · split
        · exact .inr ⟨rfl, rfl, rfl⟩
        · rw [startElement_of_precheck (by exact h)]
          exact .inr ⟨rfl, rfl, rfl⟩
  · exact .inl ⟨_, rfl⟩

theorem checkRdConv_cases (s : State) :
    (∃ e, checkRdConv s = s.reject e) ∨ KeepsError s (checkRdConv s) := by
  unfold checkRdConv
  split
  · split
    · exact .inl ⟨_, rfl⟩
    · exact .inr ⟨rfl, rfl, rfl⟩
  · exact .inl ⟨_, rfl⟩

/-- OPEN goes on to `O_INIT`, the one phase after `CHECK` that can still reject (40 R120, R121). -/
theorem checkOpen_cases (s : State) :
    (∃ e, checkOpen s = s.reject e) ∨ checkOpen s = s.goto .oInit := by
  unfold checkOpen
  split
  · exact .inl ⟨_, rfl⟩
  · split
    · exact .inr rfl
    · exact .inl ⟨_, rfl⟩

theorem checkClose_cases (s : State) :
    (∃ e, checkClose s = s.reject e) ∨ KeepsError s (checkClose s) := by
  unfold checkClose
  split
  · exact .inr ⟨rfl, rfl, rfl⟩
  · exact .inl ⟨_, rfl⟩

theorem checkSetDiag_cases (s : State) :
    (∃ e, checkSetDiag s = s.reject e) ∨ KeepsError s (checkSetDiag s) := by
  unfold checkSetDiag
  split
  · exact .inr ⟨rfl, rfl, rfl⟩
  · exact .inl ⟨_, rfl⟩

theorem checkShift_cases (s : State) :
    (∃ e, checkShift s = s.reject e) ∨ KeepsError s (checkShift s) := by
  unfold checkShift
  split
  · exact .inr ⟨rfl, rfl, rfl⟩
  · exact .inl ⟨_, rfl⟩

/-- The check of a command rejects it, or leads past the checks, or is that of OPEN, which leads to
`O_INIT` (60 R196). -/
theorem planOf_check_cases (i : Instr) {s : State}
    (hpre : i = .rdRegs → s.params.rdregsPrecheck = true) :
    (∃ e, (planOf i).check s = s.reject e) ∨
      (i = .openHandle ∧ checkOpen s = s.goto .oInit) ∨ KeepsError s ((planOf i).check s) := by
  cases i with
  | openHandle => exact (checkOpen_cases s).imp_right fun h => .inl ⟨rfl, h⟩
  | closeHandle => exact .imp_right .inr (checkClose_cases s)
  | setDiag => exact .imp_right .inr (checkSetDiag_cases s)
  | shift16 => exact .imp_right .inr (checkShift_cases s)
  | shift32 => exact .imp_right .inr (checkShift_cases s)
  | wrReg => exact .imp_right .inr (checkAddr_cases rfl s)
  | rdReg => exact .imp_right .inr (checkAddr_cases rfl s)
  | rdRegs => exact .imp_right .inr (checkRdRegs_cases (hpre rfl))
  | rdConv => exact .imp_right .inr (checkRdConv_cases s)
  | _ => exact .inr (.inr ⟨rfl, rfl, rfl⟩)

/-- A command that comes past its checks with `ERR = 0` answers a state with `ERR = 0`. -/
theorem runCommand_noError {i : Instr} {w : Word} {s t : State} {m : Nat} (hr : s.run = false)
    (hpre : i = .rdRegs → s.params.rdregsPrecheck = true) (h : Runs (planOf i) m (s.issue w) t)
    (hm : m ≤ 400) (hk : KeepsError (s.issue w) t) :
    ∃ u, runCommand (planOf i) w s = .next u ∧ u.err = 0#3 := by
  obtain ⟨n, hn⟩ := runCommand_goes_on hr h hm
  obtain ⟨herr, hparams, hpast⟩ := hk
  have ⟨hrunErr, _, _⟩ := runEngine_keepsError atIdle i n (by rwa [hparams]) hpast
  exact ⟨_, hn, hrunErr.trans herr⟩

/-- OPEN whose `PinInit` answers fail ends there: the rejection, after that one pin event (40
R121). -/
theorem runOpen_initFails {w : Word} {s : State} (hr : s.run = false) (hi : s.inputs = [])
    (hc : checkOpen (s.issue w) = (s.issue w).goto .oInit) (hn : s.nextReady = false) :
    runCommand openPlan w s = .next (rejectedFrom s.pinInit w .init) := by
  have hinit : Runs openPlan 1 ((s.issue w).goto .oInit)
      (((s.issue w).goto .oInit).pinInit.reject .init) :=
    Runs.phase hi (by simp) (by simp) (if_neg (by exact ne_true_of_eq_false hn))
  have hend : Runs openPlan 1 (((s.issue w).goto .oInit).pinInit.reject .init)
      (rejectedFrom s.pinInit w .init) :=
    Runs.phase hi (by simp) (by simp) rfl
  exact runCommand_of_runs hr (((Runs.check hi hc).trans hinit).trans hend) rfl (by omega)

/-- OPEN whose `PinInit` answers ready ends without an error. -/
theorem runOpen_initReady {w : Word} {s : State} (hr : s.run = false) (hi : s.inputs = [])
    (hc : checkOpen (s.issue w) = (s.issue w).goto .oInit) (hn : s.nextReady = true) :
    ∃ t, runCommand openPlan w s = .next t ∧ t.err = 0#3 := by
  have hinit : Runs openPlan 1 ((s.issue w).goto .oInit)
      { ((s.issue w).goto .oInit).pinInit with ostep := 0, phase := .oSetup } :=
    Runs.phase hi (by simp) (by simp) (if_pos (by exact hn))
  exact runCommand_noError (i := .openHandle) hr (fun h => absurd h (by decide))
    ((Runs.check hi hc).trans hinit) (by omega) ⟨rfl, rfl, rfl⟩

/-- A command is rejected before any pin event, or is an OPEN that fails at its one `PinInit`, or
ends without an error. -/
theorem runCommand_outcomes (i : Instr) (w : Word) {s : State} (hr : s.run = false)
    (hi : s.inputs = []) (hpre : i = .rdRegs → s.params.rdregsPrecheck = true) :
    (∃ e, runCommand (planOf i) w s = .next (rejectedFrom s w e)) ∨
      (i = .openHandle ∧ s.nextReady = false ∧
        runCommand (planOf i) w s = .next (rejectedFrom s.pinInit w .init)) ∨
      ∃ t, runCommand (planOf i) w s = .next t ∧ t.err = 0#3 := by
  rcases planOf_check_cases i (s := s.issue w) hpre with ⟨e, he⟩ | ⟨rfl, hc⟩ | hk
  · exact .inl ⟨e, runCommand_rejected hr hi he⟩
  · cases hn : s.nextReady with
    | false => exact .inr (.inl ⟨rfl, rfl, runOpen_initFails hr hi hc hn⟩)
    | true => exact .inr (.inr (runOpen_initReady hr hi hc hn))
  · exact .inr (.inr (runCommand_noError hr hpre (Runs.check hi rfl) (by omega) hk))

/-- Settles O42: an error comes from the check, before any pin event, or from the one `PinInit` of
OPEN; past both, `ERR` stays 0. -/
theorem rejectionTouchesNothing : Obligations.RejectionTouchesNothing := by
  unfold Obligations.RejectionTouchesNothing
  intro s t i hs hr hi hpre ht herr
  rw [exec_command i hs] at ht
  rcases runCommand_outcomes i i.encode hr hi hpre with
    ⟨e, he⟩ | ⟨hopen, hn, hfail⟩ | ⟨u, hu, hu0⟩
  · obtain rfl := Host.Outcome.next.inj (he.symm.trans ht)
    exact ⟨rfl, rfl, rfl, rfl, rfl, .inl ⟨rfl, rfl⟩⟩
  · obtain rfl := Host.Outcome.next.inj (hfail.symm.trans ht)
    exact ⟨rfl, rfl, rfl, rfl, rfl, .inr ⟨hopen, rfl, s.pinInit_trace.trans (by rw [hn])⟩⟩
  · obtain rfl := Host.Outcome.next.inj (hu.symm.trans ht)
    exact absurd hu0 herr

end Sys2Proof.Machine
end

section
/-! SUPPORT. What is fetched and what it decodes to: the frames of the register protocol as their
fields, the commands as the rows of their table, and the word fetched at each phase. -/

namespace Sys2Proof.Machine

-- Proof after proof: within the check's memory bound there is no room for the stacks of more
-- threads beside those that the tests hold. No `variable` stands here, so the option does only that.
set_option deprecated.oldSectionVars true

open Sys2Proof.Config

/-! ### Frames as their fields (30 R90, R91) -/

theorem frameAddr_frameBits (w : Bool) (a : BitVec 6) (d : BitVec 9) :
    frameAddr (frameBits w a d) = a := by
  refine BitVec.eq_of_getLsbD_eq fun i hi => ?_
  interval_cases i <;> simp [frameAddr, frameBits]

theorem frameData_frameBits (w : Bool) (a : BitVec 6) (d : BitVec 9) :
    frameData (frameBits w a d) = d := by
  refine BitVec.eq_of_getLsbD_eq fun i hi => ?_
  interval_cases i <;> simp [frameData, frameBits]

theorem decodeFrame_frameBits_write (a : BitVec 6) (d : BitVec 9) :
    decodeFrame (frameBits true a d) = .ok (.frame16Write a d) := by
  have hmask : frameBits true a d &&& 0x8000#16 = 0x8000#16 := by
    refine BitVec.eq_of_getLsbD_eq fun i hi => ?_
    interval_cases i <;> simp [frameBits]
  rw [decodeFrame, if_pos hmask, frameAddr_frameBits, frameData_frameBits]

theorem decodeFrame_frameBits_read (a : BitVec 6) :
    decodeFrame (frameBits false a 0#9) = .ok (.frame16Read a) := by
  have hwrite : frameBits false a 0#9 &&& 0x8000#16 ≠ 0x8000#16 := fun h => by
    have := congrArg (BitVec.getLsbD · 15) h
    simp [frameBits] at this
  have hmask : frameBits false a 0#9 &&& 0x81FF#16 = 0x0000#16 := by
    refine BitVec.eq_of_getLsbD_eq fun i hi => ?_
    interval_cases i <;> simp [frameBits]
  rw [decodeFrame, if_neg hwrite, if_pos hmask, frameAddr_frameBits]

theorem writeFrame_eq_frameBits (a v : Word) :
    writeFrame a v = frameBits true (a.extractLsb' 0 6) (v.extractLsb' 0 9) := by
  refine BitVec.eq_of_getLsbD_eq fun i hi => ?_
  interval_cases i <;> simp [writeFrame, frameBits, addrMask, writeBit, addrShift, valueMask]

theorem readFrame_eq_frameBits (a : Word) :
    readFrame a = frameBits false (a.extractLsb' 0 6) 0#9 := by
  refine BitVec.eq_of_getLsbD_eq fun i hi => ?_
  interval_cases i <;> simp [readFrame, frameBits, addrMask, addrShift]

/-! ### Commands as the rows of their table (30 R100, R103) -/

theorem cmdRows_are_commands :
    ∀ r ∈ cmdRows, r.instr.space = .hostCmd ∧ r.instr.encode = r.pattern := by
  decide

/-- What a `CMD` value decodes to is a command, and the value is its word. -/
theorem decodeCmd_eq_ok {w : Word} {c : Instr} (h : decodeCmd w = .ok c) :
    c.space = .hostCmd ∧ c.encode = w := by
  unfold decodeCmd at h
  split at h
  · rename_i r hr
    obtain rfl := Except.ok.inj h
    obtain ⟨hspace, hword⟩ := cmdRows_are_commands r (List.mem_of_find?_eq_some hr)
    have hw : w = r.pattern := by simpa using List.find?_some hr
    exact ⟨hspace, hword.trans hw.symm⟩
  · cases h

/-! ### The word fetched -/

/-- A latched word that is no command is fetched at every phase. -/
theorem fetch_of_error {s : State} {e : DecodeError} (h : decodeCmd s.lat.cmdWord = .error e) :
    fetch s = (.hostCmd, s.lat.cmdWord) := by
  simp [fetch, wireWord, h]

/-- The instruction of the word on its way at `S_LOAD`, for each command (30 R90 to R93). -/
def wireInstr (s : State) (c : Instr) : Instr :=
  match c with
  | .wrReg => .frame16Write (s.lat.a.extractLsb' 0 6) (s.lat.v.extractLsb' 0 9)
  | .rdReg => .frame16Read (s.lat.a.extractLsb' 0 6)
  | .rdRegs => .frame16Read ((currentAddr s).extractLsb' 0 6)
  | .rdConv => .word32Out
  | .shift16 => .raw16 (s.lat.txw.extractLsb' 0 16)
  | .shift32 => .raw32 s.lat.txw
  | _ => c

/-- The word at `S_LOAD` decodes to the wire word its command sends there. -/
theorem decodeIn_wireWord {s : State} {c : Instr} (h : decodeCmd s.lat.cmdWord = .ok c) :
    decodeIn (wireWord s).1 (wireWord s).2 = .ok (wireInstr s c) := by
  unfold wireWord
  rw [h]
  cases c with
  | wrReg =>
    simp [decodeIn, wrRegPlan, writeFrame_eq_frameBits, decodeFrame_frameBits_write, wireInstr]
  | rdReg =>
    simp [decodeIn, rdRegPlan, readFrame_eq_frameBits, decodeFrame_frameBits_read, wireInstr]
  | rdRegs =>
    simp [decodeIn, rdRegsPlan, readFrame_eq_frameBits, decodeFrame_frameBits_read, wireInstr]
  | rdConv => rfl
  | shift16 =>
    have htx : s.lat.txw.setWidth 16 = s.lat.txw.extractLsb' 0 16 :=
      BitVec.setWidth_eq_extractLsb' (by decide)
    simp [decodeIn, shift16Plan, wireInstr, htx]
  | shift32 => rfl
  | _ => exact h

/-- The word fetched while a command is latched: the wire word at `S_LOAD`, the capture at `W_DONE`
of RDCONV, else the command itself. -/
theorem decodeIn_fetch {s : State} {c : Instr} (h : decodeCmd s.lat.cmdWord = .ok c) :
    decodeIn (fetch s).1 (fetch s).2 = .ok
      (if s.phase = .sLoad then wireInstr s c
       else if s.phase = .wDone ∧ c = .rdConv then
        .word32In (s.sh.accA.extractLsb' 16 16) (s.sh.accA.extractLsb' 0 16)
       else c) := by
  have hc : decodeCmd s.lat.cmdWord = .ok .rdConv ↔ c = .rdConv := by
    rw [h, Except.ok.injEq]
  unfold fetch
  split
  · exact decodeIn_wireWord h
  · simp only [hc]
    split
    · rfl
    · exact h

/-- Settles O10, by the phase at which the word is fetched and the command that is latched. -/
theorem fetchedWordDecodes : Obligations.FetchedWordDecodes := by
  unfold Obligations.FetchedWordDecodes
  intro s c h
  rw [decodeIn_fetch h]
  cases c <;> rfl

/-- Settles O9: with the engine's turn first in the schedule, `step` is `engineTurn`, which executes
the word fetched. -/
theorem stepRunsTheFetchedWord : Obligations.StepRunsTheFetchedWord := by
  unfold Obligations.StepRunsTheFetchedWord
  intro s i hr hi hd
  have hturn : engineTurn s = exec i s := by simp [engineTurn, hr, hd]
  rcases hi with hi | ⟨rest, hi⟩ <;> simpa [step, hi] using hturn

end Sys2Proof.Machine
end

section
/-! SUPPORT. What one micro-step of the engine leaves unchanged, whatever the command: a command's own
part (its `Plan`) performs no pin event, and each phase performs at most one. -/

namespace Sys2Proof.Machine

-- Proof after proof: within the check's memory bound there is no room for the stacks of more
-- threads beside those that the tests hold. No `variable` stands here, so the option does only that.
set_option deprecated.oldSectionVars true

/-! ### A command's own part -/

/-- `t` differs from `s` in nothing but what a check, the end of a poll or the disposal of a word
may change: the phase, the words counted, the results and the error. -/
def OwnChange (s t : State) : Prop :=
  t = { s with phase := t.phase, wordIdx := t.wordIdx, res := t.res, err := t.err }

/-- A plan whose own parts perform no pin event and touch no pin, no latch and nothing of the host's;
its check may set the diagnostics flag (40_handle.md R124; 42_register_protocol.md R165). -/
def Plan.Quiet (p : Plan) : Prop :=
  ∀ s, (∃ d, OwnChange (s.withDiag d) (p.check s)) ∧ OwnChange s (p.afterPoll s) ∧
    OwnChange s (p.done s)

theorem checkOpen_own (s : State) : OwnChange s (checkOpen s) := by
  unfold checkOpen
  split
  · rfl
  · split <;> rfl

theorem checkClose_own (s : State) : OwnChange s (checkClose s) := by
  unfold checkClose
  split <;> rfl

/-- SETDIAG alone changes the handle in its check (40 R124). -/
theorem checkSetDiag_own (s : State) : ∃ d, OwnChange (s.withDiag d) (checkSetDiag s) := by
  unfold checkSetDiag
  split
  · exact ⟨opnDiag s.lat.opn, rfl⟩
  · exact ⟨s.cfg.diag, rfl⟩

theorem checkShift_own (s : State) : OwnChange s (checkShift s) := by
  unfold checkShift
  split <;> rfl

theorem checkAddr_own (first : Phase) (s : State) : OwnChange s (checkAddr first s) := by
  unfold checkAddr
  split
  · split <;> rfl
  · rfl

/-- The start of an element is a rejection or the way to its first word (42 R160). -/
theorem startElement_cases (s : State) :
    startElement s = s.reject .config ∨ startElement s = s.goto .sLoad := by
  unfold startElement
  split
  · exact .inl rfl
  · exact .inr rfl

theorem checkRdRegs_own (s : State) : OwnChange s (checkRdRegs s) := by
  unfold checkRdRegs
  split
  · split
    · rfl
    · split
      · rfl
      · split
        · rfl
        · rcases startElement_cases { s with wordIdx := 0#32 } with h | h <;> rw [h] <;> rfl
  · rfl

theorem checkRdConv_own (s : State) : OwnChange s (checkRdConv s) := by
  unfold checkRdConv
  split
  · split <;> rfl
  · rfl

theorem doneRdReg_own (s : State) : OwnChange s (doneRdReg s) := by
  unfold doneRdReg
  split <;> rfl

theorem doneRdRegs_own (s : State) : OwnChange s (doneRdRegs s) := by
  unfold doneRdRegs
  split
  · rfl
  · split
    · rfl
    · rcases startElement_cases
        { s.deliver (capture16 s.sh.accA) 0#32 with wordIdx := s.wordIdx + 1#32 } with h | h <;>
        rw [h] <;> rfl

theorem deliverConversion_own (c : Word) (s : State) : OwnChange s (deliverConversion c s) := by
  unfold deliverConversion
  split <;> rfl

theorem rdConv_afterPoll_own (s : State) : OwnChange s (rdConvPlan.afterPoll s) := by
  show OwnChange s (if s.lat.cnt = 0#32 then s.goto .finish else s.goto .sLoad)
  split <;> rfl

theorem planOf_check_own {c : Instr} (hc : c ≠ .setDiag) (s : State) :
    OwnChange s ((planOf c).check s) := by
  cases c with
  | openHandle => exact checkOpen_own s
  | closeHandle => exact checkClose_own s
  | setDiag => exact absurd rfl hc
  | shift16 | shift32 => exact checkShift_own s
  | wrReg | rdReg => exact checkAddr_own _ s
  | rdRegs => exact checkRdRegs_own s
  | rdConv => exact checkRdConv_own s
  | _ => rfl

theorem planOf_afterPoll_own (c : Instr) (s : State) : OwnChange s ((planOf c).afterPoll s) := by
  cases c with
  | rdConv => exact rdConv_afterPoll_own s
  | _ => rfl

theorem planOf_done_own (c : Instr) (s : State) : OwnChange s ((planOf c).done s) := by
  cases c with
  | rdReg => exact doneRdReg_own s
  | rdRegs => exact doneRdRegs_own s
  | rdConv => exact deliverConversion_own _ s
  | _ => rfl

/-- No command's own part performs a pin event. -/
theorem planOf_quiet (c : Instr) : (planOf c).Quiet := fun s =>
  ⟨by
    by_cases hc : c = .setDiag
    · subst hc
      exact checkSetDiag_own s
    · exact ⟨s.cfg.diag, planOf_check_own hc s⟩,
   planOf_afterPoll_own c s, planOf_done_own c s⟩

/-- A word of the wire has no part of its own but its bits. -/
theorem wordPlan_quiet (word : State → Bool × Word) : { Plan.none with word := word }.Quiet :=
  fun s => ⟨⟨s.cfg.diag, rfl⟩, rfl, rfl⟩

theorem takeIn_quiet (c : Word) : { Plan.none with done := deliverConversion c }.Quiet :=
  fun s => ⟨⟨s.cfg.diag, rfl⟩, rfl, deliverConversion_own c s⟩

theorem illegalPlan_quiet : illegalPlan.Quiet := fun s => ⟨⟨s.cfg.diag, rfl⟩, rfl, rfl⟩

/-! ### One micro-step -/

/-- What the host alone writes, the parameters, and the record of its reads (10 R29, R42, R43). -/
def State.hostSide (s : State) :
    Args × List Word × Word × Word × Config.Params × List (Word × Word) :=
  (s.args, s.list, s.resIdx, s.listIdx, s.params, s.reads)

/-- What the engine may do in one phase to what is not its own: append one pin event at most. -/
def PhaseFrame (s t : State) : Prop :=
  t.hostSide = s.hostSide ∧ t.lat = s.lat ∧ t.inputs = s.inputs ∧
    (t.trace = s.trace ∨ ∃ e, t.trace = s.trace ++ [e])

theorem phaseFrame_refl (s : State) : PhaseFrame s s := ⟨rfl, rfl, rfl, .inl rfl⟩

theorem phaseFrame_of_ownChange {s t u : State} (h : OwnChange t u) (g : PhaseFrame s t) :
    PhaseFrame s u := by
  unfold OwnChange at h
  rw [h]
  exact g

/-- A set-up event of OPEN is one pin event, or none at the skipped step 9 (40 R120). -/
theorem setupEvent_trace (k : Nat) (d : Bool) (s : State) :
    (setupEvent k d s).trace = s.trace ∨ ∃ e, (setupEvent k d s).trace = s.trace ++ [e] := by
  unfold setupEvent
  split
  case h_10 =>
    split
    · exact .inr ⟨_, rfl⟩
    · exact .inl rfl
  all_goals exact .inr ⟨_, rfl⟩

theorem phaseSetup_frame (s : State) : PhaseFrame s (phaseSetup s) := by
  have hsetup : ∀ k, PhaseFrame s (setupEvent k (opnDual s.lat.opn) s) := fun k =>
    ⟨by simp [State.hostSide], by simp, by simp, setupEvent_trace k _ s⟩
  unfold phaseSetup
  split
  · obtain ⟨hhost, hlat, hinputs, htrace⟩ := hsetup 10
    exact ⟨hhost, hlat, hinputs, htrace⟩
  · obtain ⟨hhost, hlat, hinputs, htrace⟩ := hsetup s.ostep.val
    exact ⟨hhost, hlat, hinputs, htrace⟩

theorem phaseInit_frame (s : State) : PhaseFrame s (phaseInit s) := by
  unfold phaseInit
  split <;> exact ⟨rfl, rfl, rfl, .inr ⟨_, rfl⟩⟩

theorem phaseClkHi_frame (s : State) : PhaseFrame s (phaseClkHi s) := by
  unfold phaseClkHi
  split <;> exact ⟨rfl, rfl, rfl, .inr ⟨_, rfl⟩⟩

theorem phasePoll_frame {p : Plan} (hp : p.Quiet) (s : State) :
    PhaseFrame s (phasePoll p.afterPoll s) := by
  have hread : PhaseFrame s (s.pinRead .busy) := ⟨rfl, rfl, rfl, .inr ⟨_, rfl⟩⟩
  obtain ⟨_, hafter, _⟩ := hp (s.pinRead .busy)
  unfold phasePoll
  split
  · exact phaseFrame_of_ownChange hafter hread
  · exact hread

/-- Every phase keeps what is not the engine's and performs at most one pin event (10 R36). -/
theorem phaseStep_frame {p : Plan} (hp : p.Quiet) (s : State) : PhaseFrame s (phaseStep p s) := by
  obtain ⟨⟨d, hcheck⟩, _, hdone⟩ := hp s
  unfold phaseStep
  cases s.phase with
  | idle => exact phaseFrame_refl s
  | check => exact phaseFrame_of_ownChange hcheck (phaseFrame_refl s)
  | oInit => exact phaseInit_frame s
  | oSetup => exact phaseSetup_frame s
  | hPoll => exact phasePoll_frame hp s
  | sClkHi => exact phaseClkHi_frame s
  | wDone => exact phaseFrame_of_ownChange hdone (phaseFrame_refl s)
  | sLoad => exact ⟨rfl, rfl, rfl, .inl rfl⟩
  | finish => exact ⟨rfl, rfl, rfl, .inl rfl⟩
  | _ => exact ⟨rfl, rfl, rfl, .inr ⟨_, rfl⟩⟩

theorem State.takeTurn_hostSide (s : State) : s.takeTurn.hostSide = s.hostSide := by
  simp [State.hostSide]

/-- No run of a command writes what the host alone writes. -/
theorem runEngine_hostSide {p : Plan} (hp : p.Quiet) (stop : State → Bool) (n : Nat) (s : State) :
    (runEngine stop p n s).hostSide = s.hostSide :=
  runEngine_keeps (K := fun t => t.hostSide = s.hostSide)
    (fun t ht _ => by
      obtain ⟨hhost, _⟩ := phaseStep_frame hp t.takeTurn
      exact (hhost.trans t.takeTurn_hostSide).trans ht)
    n s rfl

/-- Every instruction is a run of the engine with a quiet plan, from a state with the host's side
as it was. -/
theorem exec_eq_run (i : Instr) (s : State) :
    ∃ stop p n u, p.Quiet ∧ u.hostSide = s.hostSide ∧ exec i s = .next (runEngine stop p n u) := by
  have hbegin : (s.begin i.encode).hostSide = s.hostSide := by
    unfold State.begin
    split <;> rfl
  cases i with
  | frame16Write | frame16Read | word32Out | raw16 | raw32 =>
    exact ⟨_, _, _, s.goto .sLoad, wordPlan_quiet _, rfl, rfl⟩
  | word32In => exact ⟨_, _, _, s.goto .wDone, takeIn_quiet _, rfl, rfl⟩
  | _ => exact ⟨_, _, _, _, planOf_quiet _, hbegin, exec_command _ rfl s⟩

/-- Settles O44: every instruction is a run of micro-steps, and none of them writes what the host
alone writes. -/
theorem noInstructionWritesHostRegisters : Obligations.NoInstructionWritesHostRegisters := by
  unfold Obligations.NoInstructionWritesHostRegisters
  intro s t i ht
  obtain ⟨stop, p, n, u, hp, hu, hrun⟩ := exec_eq_run i s
  obtain rfl := Host.Outcome.next.inj (hrun.symm.trans ht)
  simpa [State.hostSide] using (runEngine_hostSide hp stop n u).trans hu

end Sys2Proof.Machine
end

section
/-! SUPPORT. The engine's turn as one run: whatever word is fetched, the turn runs the plan of the
latched command on from the phase reached. A word of the wire is a stretch of that run (10 R36). -/

namespace Sys2Proof.Machine

-- Proof after proof: within the check's memory bound there is no room for the stacks of more
-- threads beside those that the tests hold. No `variable` stands here, so the option does only that.
set_option deprecated.oldSectionVars true

/-- The plan of a `CMD` value: that of its command, or the rejection of a word that is none (30
R104, 60 R195). -/
def planOfWord (w : Word) : Plan :=
  match decodeCmd w with
  | .ok c => planOf c
  | .error _ => illegalPlan

theorem planOfWord_ok {w : Word} {c : Instr} (h : decodeCmd w = .ok c) :
    planOfWord w = planOf c := by
  simp [planOfWord, h]

theorem planOfWord_error {w : Word} {e : DecodeError} (h : decodeCmd w = .error e) :
    planOfWord w = illegalPlan := by
  simp [planOfWord, h]

theorem planOfWord_quiet (w : Word) : (planOfWord w).Quiet := by
  unfold planOfWord
  split
  · exact planOf_quiet _
  · exact illegalPlan_quiet

/-- A word written to an idle block's `CMD` issues its command and runs its plan (30 R101). -/
theorem runIssued_eq_run {w : Word} {s : State} (hr : s.run = false) :
    runIssued w s =
      .next (runEngine atIdle (planOfWord w) (commandFuel (s.issue w)) (s.issue w)) := by
  have hbegin : s.begin w = s.issue w := by simp [State.begin, hr]
  unfold runIssued
  cases hd : decodeCmd w with
  | ok c =>
    obtain ⟨hspace, hword⟩ := decodeCmd_eq_ok hd
    show exec c s = _
    rw [exec_command c hspace, runCommand, hword, hbegin, planOfWord_ok hd]
  | error e =>
    show execIllegal w s = _
    rw [execIllegal, runCommand, hbegin, planOfWord_error hd]

/-! ### A word of the wire within its command -/

/-- A phase of a word that has been loaded (41 R131, R132). -/
def Phase.wordLoaded (p : Phase) : Bool :=
  match p with
  | .sCsLo | .sDout | .sClkLo | .sSampleA | .sSampleB | .sClkHi | .sCsHi | .wDone => true
  | _ => false

theorem phaseSampleA_wordLoaded (s : State) : (phaseSampleA s).phase.wordLoaded = true := by
  unfold phaseSampleA
  cases s.cfg.dual <;> rfl

theorem phaseClkHi_wordLoaded (s : State) : (phaseClkHi s).phase.wordLoaded = true := by
  unfold phaseClkHi
  split <;> rfl

/-- Inside a loaded word a phase is the same for every plan, and leads to the next one of the word. -/
theorem phaseStep_wordLoaded (p q : Plan) {s : State} (h : s.phase.wordLoaded = true)
    (hdone : s.phase ≠ .wDone) :
    phaseStep p s = phaseStep q s ∧ (phaseStep p s).phase.wordLoaded = true := by
  unfold phaseStep
  cases hp : s.phase with
  | wDone => exact absurd hp hdone
  | sSampleA => exact ⟨rfl, phaseSampleA_wordLoaded s⟩
  | sClkHi => exact ⟨rfl, phaseClkHi_wordLoaded s⟩
  | sCsLo | sDout | sClkLo | sSampleB | sCsHi => exact ⟨rfl, rfl⟩
  | _ => simp [hp, Phase.wordLoaded] at h

/-- A loaded word runs to its `W_DONE` alike under every plan. -/
theorem runEngine_wordLoaded (p q : Plan) (n : Nat) {s : State}
    (h : s.phase.wordLoaded = true) :
    runEngine atWordDone p n s = runEngine atWordDone q n s := by
  induction n generalizing s with
  | zero => rfl
  | succ n ih =>
    by_cases hdone : s.phase = .wDone
    · rw [runEngine_stopped _ (decide_eq_true hdone), runEngine_stopped _ (decide_eq_true hdone)]
    · obtain ⟨heq, hnext⟩ := phaseStep_wordLoaded p q (s := s.takeTurn) (by simpa using h)
        (by simpa using hdone)
      unfold runEngine microStep
      rw [← heq, ih hnext]

/-- From `S_LOAD` to `W_DONE` plans that load the same word run alike. -/
theorem runEngine_same_word {p q : Plan} {s : State} (hp : s.phase = .sLoad)
    (hw : p.word s.takeTurn = q.word s.takeTurn) (n : Nat) :
    runEngine atWordDone p n s = runEngine atWordDone q n s := by
  cases n with
  | zero => rfl
  | succ n =>
    have hload : ∀ r : Plan, microStep r s =
        phaseLoad (r.word s.takeTurn).1 (r.word s.takeTurn).2 s.takeTurn := fun r => by
      simp [microStep, phaseStep, hp]
    unfold runEngine
    rw [hload p, hload q, hw, runEngine_wordLoaded p q n rfl]

/-- The word a command loads is read from the latches and the list (41 R131). -/
theorem planOf_word_takeTurn (c : Instr) (s : State) :
    (planOf c).word s.takeTurn = (planOf c).word s := by
  cases c <;> simp [planOf, Plan.none, openPlan, closePlan, setDiagPlan, shift16Plan, shift32Plan,
    wrRegPlan, rdRegPlan, rdRegsPlan, rdConvPlan, currentAddr]

/-- What a command executes at `S_LOAD`: itself, if it shifts no words, else the transport of the word
of its plan. -/
theorem wireInstr_cases (s : State) (c : Instr) :
    wireInstr s c = c ∨
      exec (wireInstr s c) s = transmit ((planOf c).word s).1 ((planOf c).word s).2 s := by
  cases c with
  | wrReg =>
    right
    simp [wireInstr, exec, execFrame16Write, Instr.encode, planOf, wrRegPlan, writeFrame_eq_frameBits]
  | rdReg =>
    right
    simp [wireInstr, exec, execFrame16Read, Instr.encode, planOf, rdRegPlan, readFrame_eq_frameBits]
  | rdRegs =>
    right
    simp [wireInstr, exec, execFrame16Read, Instr.encode, planOf, rdRegsPlan, readFrame_eq_frameBits]
  | rdConv => exact .inr rfl
  | shift16 =>
    right
    have htx : s.lat.txw.setWidth 16 = s.lat.txw.extractLsb' 0 16 :=
      BitVec.setWidth_eq_extractLsb' (by decide)
    simp [wireInstr, exec, execRaw16, Instr.encode, planOf, shift16Plan, htx]
  | shift32 => exact .inr rfl
  | _ => exact .inl rfl

theorem goto_phase_self {s : State} {p : Phase} (h : s.phase = p) : s.goto p = s := by
  subst h
  rfl

/-- At `S_LOAD` the transport runs the command on to the `W_DONE` of its word. -/
theorem transmit_eq_run {s : State} (hp : s.phase = .sLoad) (c : Instr) :
    transmit ((planOf c).word s).1 ((planOf c).word s).2 s =
      .next (runEngine atWordDone (planOf c) wordFuel s) := by
  rw [transmit, goto_phase_self hp]
  exact congrArg _ (runEngine_same_word hp (planOf_word_takeTurn c s).symm _)

/-- At `W_DONE` of RDCONV the capture taken in is the one disposed of (42 R165). -/
theorem takeIn_eq_run {s : State} (hp : s.phase = .wDone) :
    execWord32In (s.sh.accA.extractLsb' 16 16) (s.sh.accA.extractLsb' 0 16) s =
      .next (runEngine (fun _ => false) rdConvPlan 1 s) := by
  have hword : (Instr.word32In (s.sh.accA.extractLsb' 16 16) (s.sh.accA.extractLsb' 0 16)).encode =
      s.sh.accA := by
    refine BitVec.eq_of_getLsbD_eq fun i hi => ?_
    simp only [Instr.encode, BitVec.getLsbD_append, BitVec.getLsbD_extractLsb']
    split
    · simp [*]
    · rw [show 16 + (i - 16) = i by omega]
      simp; omega
  rw [execWord32In, hword, takeIn, goto_phase_self hp]
  simp [runEngine, microStep, phaseStep, hp, rdConvPlan]

/-- A command that runs already goes on, by at least one micro-step. -/
theorem runCommand_goes_on_running (p : Plan) (w : Word) {s : State} (hr : s.run = true) :
    ∃ n, runCommand p w s = .next (runEngine atIdle p (n + 1) s) := by
  have hfuel : commandFuel s - 1 + 1 = commandFuel s := by
    unfold commandFuel
    omega
  refine ⟨commandFuel s - 1, ?_⟩
  rw [hfuel, runCommand, State.begin, if_pos hr]

/-- The engine's turn in a running block is a run of the latched command's plan, of at least one
micro-step where no input is due. -/
theorem engineTurn_eq_run {s : State} (hr : s.run = true) (hidle : s.phase ≠ .idle) :
    ∃ stop n, stop s = false ∧
      engineTurn s = .next (runEngine stop (planOfWord s.lat.cmdWord) (n + 1) s) := by
  have hstop : atIdle s = false := by simpa [atIdle] using hidle
  have hcommand : ∀ c : Instr, c.space = .hostCmd → planOfWord s.lat.cmdWord = planOf c →
      ∃ stop n, stop s = false ∧
        exec c s = .next (runEngine stop (planOfWord s.lat.cmdWord) (n + 1) s) := by
    intro c hspace hplan
    obtain ⟨n, hn⟩ := runCommand_goes_on_running (planOf c) c.encode hr
    exact ⟨atIdle, n, hstop, by rw [exec_command c hspace, hplan, hn]⟩
  cases hd : decodeCmd s.lat.cmdWord with
  | error e =>
    obtain ⟨n, hn⟩ := runCommand_goes_on_running illegalPlan s.lat.cmdWord hr
    have hturn : engineTurn s = execIllegal s.lat.cmdWord s := by
      simp [engineTurn, hr, fetch_of_error hd, decodeIn, hd]
    exact ⟨atIdle, n, hstop, by rw [hturn, execIllegal, planOfWord_error hd, hn]⟩
  | ok c =>
    obtain ⟨hspace, hword⟩ := decodeCmd_eq_ok hd
    have hplan := planOfWord_ok hd
    have hturn : engineTurn s = exec (if s.phase = .sLoad then wireInstr s c
        else if s.phase = .wDone ∧ c = .rdConv then
          .word32In (s.sh.accA.extractLsb' 16 16) (s.sh.accA.extractLsb' 0 16)
        else c) s := by
      simp [engineTurn, hr, decodeIn_fetch hd]
    rw [hturn]
    split
    · rename_i hload
      rcases wireInstr_cases s c with hown | hwire
      · rw [hown]
        exact hcommand c hspace hplan
      · refine ⟨atWordDone, wordFuel - 1, by simp [atWordDone, hload], ?_⟩
        rw [hwire, transmit_eq_run hload, hplan]
        rfl
    · split
      · rename_i hconv
        obtain ⟨hdone, rfl⟩ := hconv
        refine ⟨fun _ => false, 0, rfl, ?_⟩
        rw [hplan]
        exact takeIn_eq_run hdone
      · exact hcommand c hspace hplan

/-! ### One turn -/

/-- With a turn first and another input after it, a run of the engine is one micro-step. -/
theorem runEngine_one_turn {stop : State → Bool} {p : Plan} (hp : p.Quiet) {s : State} {x : Input}
    {rest : List Input} (hi : s.inputs = .turn :: x :: rest) (hx : x ≠ .turn)
    (hs : stop s = false) (n : Nat) : runEngine stop p (n + 1) s = microStep p s := by
  obtain ⟨_, _, hinputs, _⟩ := phaseStep_frame hp s.takeTurn
  have hin : (microStep p s).inputs = x :: rest := hinputs.trans (by simp [State.takeTurn, hi])
  have hdue : (microStep p s).inputDue = true := by
    unfold State.inputDue
    rw [hin]
    cases x with
    | turn => exact absurd rfl hx
    | _ => rfl
  have hnow : s.inputDue = false := by simp [State.inputDue, hi]
  have hstop : runEngine stop p n (microStep p s) = microStep p s := by
    cases n <;> simp [runEngine, hdue]
  rw [runEngine, hstop, ite_self, hnow, hs]
  rfl

/-- Settles O13: the turn is one micro-step of the latched command's plan, and a micro-step performs
at most one pin event. -/
theorem oneTurnIsAtMostOnePinEvent : Obligations.OneTurnIsAtMostOnePinEvent := by
  unfold Obligations.OneTurnIsAtMostOnePinEvent
  intro s t x rest hinv hi hx ht
  have hturn : engineTurn s = .next t := by simpa only [step, hi] using ht
  have htake : s.takeTurn.inputs = x :: rest := by simp [State.takeTurn, hi]
  cases hr : s.run with
  | false =>
    obtain rfl : s.takeTurn = t := by simpa [engineTurn, hr] using hturn
    exact ⟨htake, .inl s.takeTurn_trace⟩
  | true =>
    have hidle : s.phase ≠ .idle := by simpa [hr] using hinv.running
    obtain ⟨stop, n, hs, hrun⟩ := engineTurn_eq_run hr hidle
    have hquiet := planOfWord_quiet s.lat.cmdWord
    rw [runEngine_one_turn hquiet hi hx hs] at hrun
    obtain rfl := Host.Outcome.next.inj (hrun.symm.trans hturn)
    obtain ⟨_, _, hinputs, htrace⟩ := phaseStep_frame hquiet s.takeTurn
    exact ⟨hinputs.trans htake, by simpa [microStep] using htrace⟩

end Sys2Proof.Machine
end

section
/-! SUPPORT. The invariant of the block, kept phase by phase: first what the invariant reads, then one
lemma for each phase, then the checks and disposals of the nine commands, then the host's inputs. -/

namespace Sys2Proof.Machine

-- Proof after proof: within the check's memory bound there is no room for the stacks of more
-- threads beside those that the tests hold. No `variable` stands here, so the option does only that.
set_option deprecated.oldSectionVars true

/-! ### What the invariant reads -/

/-- Everything the invariant reads. -/
def State.watched (s : State) :
    Cfg × OutLatches × List Word × Latches × Phase × Word × Fin 11 × List ResRec × BitVec 3 × Bool ×
      Config.Params :=
  (s.cfg, s.out, s.list, s.lat, s.phase, s.wordIdx, s.ostep, s.res, s.err, s.run, s.params)

/-- What is not watched takes no part in the invariant. -/
theorem State.Inv.of_watched {s t : State} (h : s.Inv) (hw : t.watched = s.watched) : t.Inv := by
  simp only [State.watched, Prod.mk.injEq] at hw
  obtain ⟨hcfg, hout, hlist, hlat, hphase, hword, hostep, hres, herr, hrun, hparams⟩ := hw
  exact
    { pins := by simpa only [pinsOk, hphase, hcfg, hout, hostep] using h.pins
      running := by simpa only [hrun, hphase] using h.running
      errors := by simpa only [errOk, hphase, herr, hres] using h.errors
      results := by
        rw [resultsOk, maxRecords, progressOk, hphase, hres, hparams, hlat, hword]
        exact h.results
      phases := by simpa only [hlat, hphase] using h.phases
      listLength := by simpa only [hlist, hparams] using h.listLength
      paramsFit := by simpa only [hparams] using h.paramsFit }

/-- A phase between the check of a command and its end. -/
def Phase.midway (p : Phase) : Bool :=
  decide (p ≠ .idle) && decide (p ≠ .check) && decide (p ≠ .finish)

/-- What every micro-step but the last of a command keeps, rejection aside. -/
def State.course (s : State) : Bool × BitVec 3 × List Word × Config.Params :=
  (s.run, s.err, s.list, s.params)

theorem params_eq_of_course {s t : State} (h : t.course = s.course) : t.params = s.params := by
  simp only [State.course, Prod.mk.injEq] at h
  obtain ⟨_, _, _, hparams⟩ := h
  exact hparams

theorem State.Inv.run_eq_true {s : State} (h : s.Inv) (hp : s.phase ≠ .idle) : s.run = true := by
  simpa [hp] using h.running

theorem State.Inv.err_eq_zero {s : State} (h : s.Inv) (hi : s.phase ≠ .idle)
    (hf : s.phase ≠ .finish) : s.err = 0#3 := by
  simpa [errOk, hi, hf] using h.errors

theorem State.Inv.progress {s : State} (h : s.Inv) (hm : s.phase.midway = true) :
    progressOk s = true := by
  simp only [Phase.midway, Bool.and_eq_true, decide_eq_true_eq] at hm
  obtain ⟨⟨hi, hc⟩, hf⟩ := hm
  simpa [resultsOk, hi, hc, hf] using h.results

theorem State.Inv.course_eq {s : State} (h : s.Inv) (hi : s.phase ≠ .idle) (hf : s.phase ≠ .finish) :
    s.course = (true, 0#3, s.list, s.params) := by
  rw [State.course, h.run_eq_true hi, h.err_eq_zero hi hf]

/-- A command on its way goes to a phase between its check and its end. -/
theorem State.Inv.toMidway {s t : State} (h : s.Inv) (hi : s.phase ≠ .idle) (hf : s.phase ≠ .finish)
    (ht : t.phase.midway = true) (hcourse : t.course = s.course) (hpins : pinsOk t = true)
    (hprogress : progressOk t = true)
    (hfits : phaseFits (decodeCmd t.lat.cmdWord) t.phase = true) : t.Inv := by
  rw [h.course_eq hi hf] at hcourse
  simp only [State.course, Prod.mk.injEq] at hcourse
  obtain ⟨hrun, herr, hlist, hparams⟩ := hcourse
  simp only [Phase.midway, Bool.and_eq_true, decide_eq_true_eq] at ht
  obtain ⟨⟨hti, htc⟩, htf⟩ := ht
  exact
    { pins := hpins
      running := by simp [hrun, hti]
      errors := by simp [errOk, hti, htf, herr]
      results := by simpa [resultsOk, hti, htc, htf] using hprogress
      phases := hfits
      listLength := by rw [hlist, hparams, h.listLength]
      paramsFit := by rw [hparams, h.paramsFit] }

/-- A command on its way comes to its end without an error. -/
theorem State.Inv.toFinish {s t : State} (h : s.Inv) (hi : s.phase ≠ .idle) (hf : s.phase ≠ .finish)
    (ht : t.phase = .finish) (hcourse : t.course = s.course)
    (hpins : (!t.cfg.isOpen || t.out.resting) = true)
    (hres : t.res.length ≤ maxRecords s) : t.Inv := by
  rw [h.course_eq hi hf] at hcourse
  simp only [State.course, Prod.mk.injEq] at hcourse
  obtain ⟨hrun, herr, hlist, hparams⟩ := hcourse
  exact
    { pins := by simpa [pinsOk, ht] using hpins
      running := by simp [hrun, ht]
      errors := by simp [errOk, ht, herr]
      results := by
        rw [resultsOk, if_pos (.inr ht), maxRecords, hparams]
        exact decide_eq_true hres
      phases := by rw [ht]; rfl
      listLength := by rw [hlist, hparams, h.listLength]
      paramsFit := by rw [hparams, h.paramsFit] }

/-- A rejection of a command on its way, where the pins rest or no handle is open (60 R190). -/
theorem State.Inv.reject {s t : State} (h : s.Inv) (hi : s.phase ≠ .idle) (hf : s.phase ≠ .finish)
    (hcourse : t.course = s.course) (e : ErrorKind)
    (hpins : (!t.cfg.isOpen || t.out.resting) = true) : (t.reject e).Inv := by
  rw [h.course_eq hi hf] at hcourse
  simp only [State.course, Prod.mk.injEq] at hcourse
  obtain ⟨hrun, _, hlist, hparams⟩ := hcourse
  exact
    { pins := hpins
      running := hrun
      errors := by cases e <;> rfl
      results := by simp [resultsOk]
      phases := rfl
      listLength := by rw [State.reject_list, State.reject_params, hlist, hparams, h.listLength]
      paramsFit := by rw [State.reject_params, hparams, h.paramsFit] }

/-- Two phases of the same stretch of a command: neither starts its words, and the same commands
come by them (10 R36). -/
def Phase.SameStretch (p q : Phase) : Prop :=
  p.inHandshake = q.inHandshake ∧ ∀ d, phaseFits d p = phaseFits d q

/-- Along one stretch only the pins are to be looked at. -/
theorem State.Inv.along {s t : State} (h : s.Inv) (hs : s.phase.midway = true)
    (ht : t.phase.midway = true) (hstretch : s.phase.SameStretch t.phase)
    (hcourse : t.course = s.course) (hlat : t.lat = s.lat) (hres : t.res = s.res)
    (hword : t.wordIdx = s.wordIdx) (hpins : pinsOk t = true) : t.Inv := by
  obtain ⟨hhandshake, hfits⟩ := hstretch
  have hparams := params_eq_of_course hcourse
  have hmid := hs
  simp only [Phase.midway, Bool.and_eq_true, decide_eq_true_eq] at hmid
  obtain ⟨⟨hi, _⟩, hf⟩ := hmid
  refine h.toMidway hi hf ht hcourse hpins ?_ ?_
  · rw [progressOk, hlat, hres, hword, hparams, ← hhandshake]
    exact h.progress hs
  · rw [hlat, ← hfits]
    exact h.phases

/-! ### The phases -/

/-- Where the handshake and the word go by one pin write (41 R131, R132; 42 R151): the write and the
next phase. `DOUT` is written with any level. -/
def Phase.pinMove (p : Phase) (o : OutPin) (b : Level) (q : Phase) : Bool :=
  match p, o, q with
  | .hTrigHi, .trig, .hTrigLo => b
  | .hTrigLo, .trig, .hPoll => !b
  | .sCsLo, .cs, .sDout => !b
  | .sDout, .dout, .sClkLo => true
  | .sClkLo, .clk, .sSampleA => !b
  | .sClkHi, .clk, .sDout => b
  | .sClkHi, .clk, .sCsHi => b
  | .sCsHi, .cs, .wDone => b
  | _, _, _ => false

/-- The phases of the handshake and of a word keep the invariant. -/
theorem State.Inv.pinMove {s : State} (h : s.Inv) {o : OutPin} {b : Level} {q : Phase}
    (hm : s.phase.pinMove o b q = true) : ((s.pinWrite o b).goto q).Inv := by
  have hpins := h.pins
  generalize hp : s.phase = p at hm
  unfold Phase.pinMove at hm
  split at hm
  case h_9 => cases hm
  all_goals
    refine h.along (by rw [hp]; rfl) rfl (by rw [hp]; exact ⟨rfl, fun _ => rfl⟩) rfl rfl rfl rfl ?_
    simp_all [pinsOk, OutLatches.put, OutLatches.resting]

theorem phaseLoad_inv {s : State} (h : s.Inv) (hp : s.phase = .sLoad) (wide : Bool) (w : Word) :
    (phaseLoad wide w s).Inv :=
  h.along (by rw [hp]; rfl) rfl (by rw [hp]; exact ⟨rfl, fun _ => rfl⟩) rfl rfl rfl rfl
    (by simpa [pinsOk, hp, phaseLoad] using h.pins)

theorem phaseSampleA_inv {s : State} (h : s.Inv) (hp : s.phase = .sSampleA) :
    (phaseSampleA s).Inv := by
  have hpins := h.pins
  rw [pinsOk, hp] at hpins
  have hs : s.phase.midway = true := by rw [hp]; rfl
  unfold phaseSampleA
  cases s.cfg.dual with
  | true => exact h.along hs rfl (by rw [hp]; exact ⟨rfl, fun _ => rfl⟩) rfl rfl rfl rfl hpins
  | false => exact h.along hs rfl (by rw [hp]; exact ⟨rfl, fun _ => rfl⟩) rfl rfl rfl rfl hpins

theorem phaseSampleB_inv {s : State} (h : s.Inv) (hp : s.phase = .sSampleB) :
    (phaseSampleB s).Inv :=
  h.along (by rw [hp]; rfl) rfl (by rw [hp]; exact ⟨rfl, fun _ => rfl⟩) rfl rfl rfl rfl
    (by simpa [pinsOk, hp, phaseSampleB] using h.pins)

theorem phaseClkHi_inv {s : State} (h : s.Inv) (hp : s.phase = .sClkHi) : (phaseClkHi s).Inv := by
  unfold phaseClkHi
  split
  · exact h.pinMove (by rw [hp]; rfl)
  · exact (h.pinMove (o := .clk) (b := true) (q := .sDout) (by rw [hp]; rfl)).of_watched rfl

/-- A command that delivers nothing on its way has no result in the phases of OPEN and CLOSE (40
R120, R122). -/
theorem State.Inv.res_eq_nil {s : State} (h : s.Inv)
    (hp : s.phase = .oInit ∨ s.phase = .oSetup ∨ s.phase = .cTerm) : s.res = [] := by
  have hphases := h.phases
  have hprogress := h.progress (by rcases hp with hp | hp | hp <;> rw [hp] <;> rfl)
  have hd : decodeCmd s.lat.cmdWord = .ok .openHandle ∨
      decodeCmd s.lat.cmdWord = .ok .closeHandle := by
    rcases hp with hp | hp | hp <;> rw [hp] at hphases
    · exact .inl (of_decide_eq_true hphases)
    · exact .inl (of_decide_eq_true hphases)
    · exact .inr (of_decide_eq_true hphases)
  rcases hd with hd | hd <;> simpa [progressOk, hd, progressFor] using hprogress

theorem phaseInit_inv {s : State} (h : s.Inv) (hp : s.phase = .oInit) : (phaseInit s).Inv := by
  have hclosed : s.cfg.isOpen = false := by simpa [pinsOk, hp] using h.pins
  unfold phaseInit
  split
  · exact h.along (by rw [hp]; rfl) rfl (by rw [hp]; exact ⟨rfl, fun _ => rfl⟩) rfl rfl rfl rfl
      (by simp [pinsOk, hclosed])
  · exact h.reject (t := s.pinInit) (by simp [hp]) (by simp [hp]) rfl .init (by simp [hclosed])

/-- The set-up events leave the levels that their steps have passed (40 R120). -/
theorem setupEvent_pins {s : State} (hp : s.phase = .oSetup) (h : pinsOk s = true)
    (hk : s.ostep.val ≠ 10) (d : Bool) :
    pinsOk { setupEvent s.ostep.val d s with ostep := s.ostep + 1 } = true := by
  simp only [pinsOk, hp, setupEvent_phase, setupEvent_cfg] at h ⊢
  generalize s.ostep = o at h hk ⊢
  cases d <;> fin_cases o <;> simp_all [setupEvent, OutLatches.put]

theorem phaseSetup_inv {s : State} (h : s.Inv) (hp : s.phase = .oSetup) : (phaseSetup s).Inv := by
  have hi : s.phase ≠ .idle := by simp [hp]
  have hf : s.phase ≠ .finish := by simp [hp]
  unfold phaseSetup
  split
  · rename_i hlast
    have hrest : s.out.resting = true := by
      have hpins := h.pins
      simp only [pinsOk, hp, hlast] at hpins
      simp_all [OutLatches.resting]
    exact h.toFinish hi hf rfl rfl (by simp [setupEvent, hrest])
      (by simp [h.res_eq_nil (.inr (.inl hp))])
  · rename_i hk
    refine h.along (by rw [hp]; rfl) ?_ ?_ ?_ (setupEvent_lat _ _ s) (setupEvent_res _ _ s)
      (setupEvent_wordIdx _ _ s) (setupEvent_pins hp h.pins hk _)
    · simp [hp, Phase.midway]
    · simp [hp, Phase.SameStretch]
    · simp [State.course]

theorem phaseTerm_inv {s : State} (h : s.Inv) (hp : s.phase = .cTerm) : (phaseTerm s).Inv :=
  h.toFinish (by simp [hp]) (by simp [hp]) rfl rfl rfl
    (by simp [phaseTerm, h.res_eq_nil (.inr (.inr hp))])

/-- The end of a command (30 R102). -/
theorem finish_inv {s : State} (h : s.Inv) (hp : s.phase = .finish) : s.finish.Inv where
  pins := by simpa [pinsOk, hp, State.finish] using h.pins
  running := rfl
  errors := by
    have herr := h.errors
    rw [errOk, if_pos (.inr hp)] at herr
    exact herr
  results := by
    have hres := h.results
    rw [resultsOk, if_pos (.inr hp)] at hres
    exact hres
  phases := rfl
  listLength := h.listLength
  paramsFit := h.paramsFit

theorem phasePoll_inv {s : State} (h : s.Inv) {after : State → State}
    (hafter : (after (s.pinRead .busy)).Inv) : (phasePoll after s).Inv := by
  unfold phasePoll
  split
  · exact hafter
  · exact h.of_watched rfl

/-- Every phase keeps the invariant, if the command's own part does where the phase calls it. -/
theorem phaseStep_inv {p : Plan} {s : State} (h : s.Inv)
    (hcheck : s.phase = .check → (p.check s).Inv)
    (hpoll : s.phase = .hPoll → (p.afterPoll (s.pinRead .busy)).Inv)
    (hdone : s.phase = .wDone → (p.done s).Inv) : (phaseStep p s).Inv := by
  unfold phaseStep
  cases hp : s.phase with
  | idle => exact h
  | check => exact hcheck hp
  | oInit => exact phaseInit_inv h hp
  | oSetup => exact phaseSetup_inv h hp
  | cTerm => exact phaseTerm_inv h hp
  | hPoll => exact phasePoll_inv h (hpoll hp)
  | sLoad => exact phaseLoad_inv h hp _ _
  | sSampleA => exact phaseSampleA_inv h hp
  | sSampleB => exact phaseSampleB_inv h hp
  | sClkHi => exact phaseClkHi_inv h hp
  | wDone => exact hdone hp
  | finish => exact finish_inv h hp
  | hTrigHi | hTrigLo | sCsLo | sDout | sClkLo | sCsHi => exact h.pinMove (by rw [hp]; rfl)

/-! ### The checks -/

theorem State.Inv.pins_at_check {s : State} (h : s.Inv) (hp : s.phase = .check) :
    (!s.cfg.isOpen || s.out.resting) = true := by
  have hpins := h.pins
  rwa [pinsOk, hp] at hpins

theorem State.Inv.res_at_check {s : State} (h : s.Inv) (hp : s.phase = .check) : s.res = [] := by
  simpa [resultsOk, hp] using h.results

theorem State.Inv.reject_at_check {s : State} (h : s.Inv) (hp : s.phase = .check) (e : ErrorKind) :
    (s.reject e).Inv :=
  h.reject (by simp [hp]) (by simp [hp]) rfl e (h.pins_at_check hp)

/-- A check that passes with a handle open goes to the first phase of its command, no word counted
that the command could not count (60 R196). -/
theorem State.Inv.enter {s : State} (h : s.Inv) (hp : s.phase = .check) (ho : s.cfg.isOpen = true)
    {q : Phase} {w : Word} (hq : q = .cTerm ∨ q = .hTrigHi ∨ q = .sLoad)
    (hfits : phaseFits (decodeCmd s.lat.cmdWord) q = true)
    (hprogress : progressFor (decodeCmd s.lat.cmdWord) q.inHandshake s.lat.cnt.toNat s.params 0
      w.toNat = true) : ({ s with wordIdx := w, phase := q } : State).Inv := by
  have hrest : (s.cfg.isOpen && s.out.resting) = true := by
    simpa [ho] using h.pins_at_check hp
  refine h.toMidway (by simp [hp]) (by simp [hp]) ?_ rfl ?_ ?_ hfits
  · rcases hq with rfl | rfl | rfl <;> rfl
  · rcases hq with rfl | rfl | rfl <;> exact hrest
  · rw [progressOk, h.res_at_check hp]
    exact hprogress

/-- A check that is all of its command. -/
theorem State.Inv.finish_at_check {s t : State} (h : s.Inv) (hp : s.phase = .check)
    (ht : t.phase = .finish) (hcourse : t.course = s.course) (hopen : t.cfg.isOpen = s.cfg.isOpen)
    (hout : t.out = s.out) (hres : t.res = s.res) : t.Inv :=
  h.toFinish (by simp [hp]) (by simp [hp]) ht hcourse (by rw [hopen, hout, h.pins_at_check hp])
    (by rw [hres, h.res_at_check hp]; exact Nat.zero_le _)

theorem checkOpen_inv {s : State} (h : s.Inv) (hp : s.phase = .check)
    (hd : decodeCmd s.lat.cmdWord = .ok .openHandle) : (checkOpen s).Inv := by
  unfold checkOpen
  split
  · exact h.reject_at_check hp _
  · rename_i hclosed
    split
    · refine h.toMidway (by simp [hp]) (by simp [hp]) rfl rfl (by simpa [pinsOk] using hclosed) ?_ ?_
      · simp [progressOk, progressFor, hd, h.res_at_check hp]
      · simp [phaseFits, hd]
    · exact h.reject_at_check hp _

theorem checkClose_inv {s : State} (h : s.Inv) (hp : s.phase = .check)
    (hd : decodeCmd s.lat.cmdWord = .ok .closeHandle) : (checkClose s).Inv := by
  unfold checkClose
  split
  · rename_i ho
    exact h.enter (w := s.wordIdx) hp ho (.inl rfl) (by rw [hd]; rfl) (by rw [hd]; rfl)
  · exact h.reject_at_check hp _

theorem checkSetDiag_inv {s : State} (h : s.Inv) (hp : s.phase = .check) : (checkSetDiag s).Inv := by
  unfold checkSetDiag
  split
  · exact h.finish_at_check hp rfl rfl rfl rfl rfl
  · exact h.reject_at_check hp _

theorem checkShift_inv {s : State} (h : s.Inv) (hp : s.phase = .check)
    (hd : decodeCmd s.lat.cmdWord = .ok .shift16 ∨ decodeCmd s.lat.cmdWord = .ok .shift32) :
    (checkShift s).Inv := by
  unfold checkShift
  split
  · rename_i ho
    exact h.enter hp ho (.inr (.inr rfl)) (by rcases hd with hd | hd <;> rw [hd] <;> rfl)
      (by rcases hd with hd | hd <;> rw [hd] <;> rfl)
  · exact h.reject_at_check hp _

theorem checkAddr_inv {s : State} {first : Phase} (h : s.Inv) (hp : s.phase = .check)
    (hd : decodeCmd s.lat.cmdWord = .ok .wrReg ∧ first = .hTrigHi ∨
      decodeCmd s.lat.cmdWord = .ok .rdReg ∧ first = .sLoad) : (checkAddr first s).Inv := by
  unfold checkAddr
  split
  · rename_i ho
    split
    · rcases hd with ⟨hd, rfl⟩ | ⟨hd, rfl⟩
      · exact h.enter hp ho (.inr (.inl rfl)) (by rw [hd]; rfl) (by rw [hd]; rfl)
      · exact h.enter hp ho (.inr (.inr rfl)) (by rw [hd]; rfl) (by rw [hd]; rfl)
    · exact h.reject_at_check hp _
  · exact h.reject_at_check hp _

theorem checkRdConv_inv {s : State} (h : s.Inv) (hp : s.phase = .check)
    (hd : decodeCmd s.lat.cmdWord = .ok .rdConv) : (checkRdConv s).Inv := by
  unfold checkRdConv
  split
  · rename_i ho
    split
    · exact h.reject_at_check hp _
    · rename_i hcnt
      refine h.enter hp ho (.inr (.inl rfl)) (by rw [hd]; rfl) ?_
      rw [hd]
      simpa [progressFor, Phase.inHandshake] using hcnt
  · exact h.reject_at_check hp _

theorem checkRdRegs_inv {s : State} (h : s.Inv) (hp : s.phase = .check)
    (hd : decodeCmd s.lat.cmdWord = .ok .rdRegs) : (checkRdRegs s).Inv := by
  unfold checkRdRegs
  split
  · rename_i ho
    split
    · exact h.reject_at_check hp _
    · rename_i hmax
      split
      · exact h.reject_at_check hp _
      · split
        · exact h.finish_at_check hp rfl rfl rfl rfl rfl
        · rename_i hcnt
          rcases startElement_cases { s with wordIdx := 0#32 } with hstart | hstart
          · rw [hstart]
            exact h.reject (t := { s with wordIdx := 0#32 }) (by simp [hp]) (by simp [hp]) rfl _
              (h.pins_at_check hp)
          · rw [hstart]
            refine h.enter hp ho (.inr (.inr rfl)) (by rw [hd]; rfl) ?_
            have hpos : 0 < s.lat.cnt.toNat := by
              rw [Nat.pos_iff_ne_zero]
              exact fun h0 => hcnt (BitVec.eq_of_toNat_eq h0)
            rw [hd]
            simpa [progressFor, hpos] using hmax
  · exact h.reject_at_check hp _

/-! ### The end of the poll, and the disposal of a word -/

theorem State.Inv.pins_at_done {s : State} (h : s.Inv) (hp : s.phase = .wDone) :
    (s.cfg.isOpen && s.out.resting) = true := by
  have hpins := h.pins
  rwa [pinsOk, hp] at hpins

/-- From `W_DONE` to the next word (42 R165). -/
theorem State.Inv.nextWord {s t : State} (h : s.Inv) (hp : s.phase = .wDone) (ht : t.phase = .sLoad)
    (hcourse : t.course = s.course) (hopen : t.cfg.isOpen = s.cfg.isOpen) (hout : t.out = s.out)
    (hlat : t.lat = s.lat)
    (hprogress : progressFor (decodeCmd s.lat.cmdWord) false s.lat.cnt.toNat s.params t.res.length
      t.wordIdx.toNat = true) : t.Inv := by
  have hfits := h.phases
  have hparams := params_eq_of_course hcourse
  refine h.toMidway (by simp [hp]) (by simp [hp]) (by rw [ht]; rfl) hcourse ?_ ?_ ?_
  · rw [pinsOk, ht, hopen, hout]
    exact h.pins_at_done hp
  · rw [progressOk, ht, hlat, hparams]
    exact hprogress
  · rw [hp] at hfits
    rw [hlat, ht]
    exact hfits

/-- From `W_DONE` to the end of the command (41 R141, 42 R165). -/
theorem State.Inv.lastWord {s t : State} (h : s.Inv) (hp : s.phase = .wDone) (ht : t.phase = .finish)
    (hcourse : t.course = s.course) (hopen : t.cfg.isOpen = s.cfg.isOpen) (hout : t.out = s.out)
    (hres : t.res.length ≤ maxRecords s) : t.Inv := by
  refine h.toFinish (by simp [hp]) (by simp [hp]) ht hcourse ?_ hres
  have hpins := h.pins_at_done hp
  simp_all

theorem one_le_maxRecords (s : State) : 1 ≤ maxRecords s := Nat.le_max_right _ _

theorem countMax_le_maxRecords (s : State) : s.params.countMax ≤ maxRecords s := by
  simp [maxRecords]

theorem listMax_le_maxRecords (s : State) : s.params.listMax ≤ maxRecords s := by
  simp [maxRecords]

/-- A command of one word has delivered nothing before its `W_DONE`. -/
theorem State.Inv.res_eq_nil_of_single {s : State} (h : s.Inv) (hp : s.phase = .wDone)
    (hd : decodeCmd s.lat.cmdWord = .ok .shift16 ∨ decodeCmd s.lat.cmdWord = .ok .shift32 ∨
      decodeCmd s.lat.cmdWord = .ok .wrReg ∨ decodeCmd s.lat.cmdWord = .ok .rdReg) : s.res = [] := by
  have hprogress := h.progress (by rw [hp]; rfl)
  rcases hd with hd | hd | hd | hd <;>
    simp [progressOk, hd, progressFor] at hprogress <;> simp [hprogress]

theorem doneRdReg_inv {s : State} (h : s.Inv) (hp : s.phase = .wDone)
    (hd : decodeCmd s.lat.cmdWord = .ok .rdReg) : (doneRdReg s).Inv := by
  have hnil := h.res_eq_nil_of_single hp (.inr (.inr (.inr hd)))
  unfold doneRdReg
  split
  · refine h.nextWord hp rfl rfl rfl rfl rfl ?_
    rw [hd]
    simp [progressFor, hnil]
  · exact h.lastWord hp rfl rfl rfl rfl (by simpa [hnil] using one_le_maxRecords s)

/-- Where words are left to count, `WORDIDX` counts on without wrapping. -/
theorem toNat_add_one_of_lt {w : Word} {n : Nat} (h : w.toNat + 1 < n) (hn : n ≤ 2 ^ 32) :
    (w + 1#32).toNat = w.toNat + 1 := by
  simp only [BitVec.toNat_add, BitVec.toNat_ofNat]
  omega

/-- What the invariant says of RDCONV at `W_DONE`: one word counted for each record delivered, and
some left to count (42 R165). -/
theorem State.Inv.progress_rdConv {s : State} (h : s.Inv) (hp : s.phase = .wDone)
    (hd : decodeCmd s.lat.cmdWord = .ok .rdConv) :
    s.lat.cnt.toNat ≤ s.params.countMax ∧ s.res.length = s.wordIdx.toNat ∧
      s.wordIdx.toNat < s.lat.cnt.toNat := by
  have hprogress := h.progress (by rw [hp]; rfl)
  have hlater : s.phase.inHandshake = false := by rw [hp]; rfl
  simp only [progressOk, hd, progressFor, hlater, Bool.and_eq_true, decide_eq_true_eq] at hprogress
  obtain ⟨⟨hmax, hlen⟩, hlt⟩ := hprogress
  exact ⟨hmax, hlen, by simpa using hlt⟩

theorem deliverConversion_inv {s : State} (h : s.Inv) (hp : s.phase = .wDone)
    (hd : decodeCmd s.lat.cmdWord = .ok .rdConv) (c : Word) : (deliverConversion c s).Inv := by
  obtain ⟨hmax, hlen, hlt⟩ := h.progress_rdConv hp hd
  have hnext : (s.wordIdx + 1#32).toNat = s.wordIdx.toNat + 1 :=
    toNat_add_one_of_lt (n := 2 ^ 32) (by have := s.lat.cnt.isLt; omega) le_rfl
  unfold deliverConversion
  split
  · refine h.lastWord hp rfl rfl rfl rfl ?_
    have := countMax_le_maxRecords s
    simp only [State.deliver_res, List.length_append, List.length_singleton]
    omega
  · rename_i hmore
    refine h.nextWord hp rfl rfl rfl rfl rfl ?_
    have hne : s.wordIdx.toNat + 1 ≠ s.lat.cnt.toNat := fun e =>
      hmore (BitVec.eq_of_toNat_eq (hnext.trans e))
    have hleft : s.wordIdx.toNat + 1 < s.lat.cnt.toNat := by omega
    rw [hd]
    simp [progressFor, State.deliver_res, hnext, hmax, hlen, hleft]

/-- What the invariant says of RDREGS at `W_DONE`: two words counted for each record delivered, and
some left to count, on 32 bits that suffice (42 R165, R167). -/
theorem State.Inv.progress_rdRegs {s : State} (h : s.Inv) (hp : s.phase = .wDone)
    (hd : decodeCmd s.lat.cmdWord = .ok .rdRegs) :
    s.lat.cnt.toNat ≤ s.params.listMax ∧ s.params.listMax ≤ 2 ^ 31 ∧
      s.res.length = s.wordIdx.toNat / 2 ∧ s.wordIdx.toNat < 2 * s.lat.cnt.toNat := by
  have hprogress := h.progress (by rw [hp]; rfl)
  simp only [progressOk, hd, progressFor, Bool.and_eq_true, decide_eq_true_eq] at hprogress
  obtain ⟨⟨hmax, hlen⟩, hlt⟩ := hprogress
  have hwf := h.paramsFit
  simp only [Config.Params.wf, Bool.and_eq_true, decide_eq_true_eq] at hwf
  obtain ⟨_, hfit⟩ := hwf
  exact ⟨hmax, hfit, hlen, hlt⟩

/-- Bit 0 of `WORDIDX` is its parity. -/
theorem getLsbD_zero_eq_false_iff (w : Word) : w.getLsbD 0 = false ↔ w.toNat % 2 = 0 := by
  simp [BitVec.getLsbD]

theorem doneRdRegs_inv {s : State} (h : s.Inv) (hp : s.phase = .wDone)
    (hd : decodeCmd s.lat.cmdWord = .ok .rdRegs) : (doneRdRegs s).Inv := by
  obtain ⟨hmax, hfit, hlen, hlt⟩ := h.progress_rdRegs hp hd
  unfold doneRdRegs
  split
  · rename_i hfirst
    rw [getLsbD_zero_eq_false_iff] at hfirst
    have hleft : s.wordIdx.toNat + 1 < 2 * s.lat.cnt.toNat := by omega
    refine h.nextWord hp rfl rfl rfl rfl rfl ?_
    rw [hd]
    simp only [progressFor, toNat_add_one_of_lt hleft (by omega), Bool.and_eq_true,
      decide_eq_true_eq]
    omega
  · rename_i hsecond
    rw [getLsbD_zero_eq_false_iff] at hsecond
    split
    · refine h.lastWord hp rfl rfl rfl rfl ?_
      have := listMax_le_maxRecords s
      simp only [State.deliver_res, List.length_append, List.length_singleton]
      omega
    · rename_i hmore
      have hne : s.wordIdx.toNat + 1 ≠ 2 * s.lat.cnt.toNat := fun e =>
        hmore (BitVec.eq_of_toNat_eq (by
          simp only [BitVec.toNat_add, BitVec.toNat_mul, BitVec.toNat_ofNat]
          omega))
      have hleft : s.wordIdx.toNat + 1 < 2 * s.lat.cnt.toNat := by omega
      have hpins : (!s.cfg.isOpen || s.out.resting) = true := by
        have := h.pins_at_done hp
        simp_all
      rcases startElement_cases
        { s.deliver (capture16 s.sh.accA) 0#32 with wordIdx := s.wordIdx + 1#32 } with hs | hs
      · rw [hs]
        refine h.reject (by simp [hp]) (by simp [hp]) ?_ _ ?_
        · rfl
        · exact hpins
      · rw [hs]
        refine h.nextWord hp rfl rfl rfl rfl rfl ?_
        rw [hd]
        simp only [progressFor, State.goto_res, State.goto_wordIdx, State.deliver_res,
          List.length_append, List.length_singleton, toNat_add_one_of_lt hleft (by omega),
          Bool.and_eq_true, decide_eq_true_eq]
        omega

theorem rdConv_afterPoll_inv {s : State} (h : s.Inv) (hp : s.phase = .hPoll)
    (hd : decodeCmd s.lat.cmdWord = .ok .rdConv) : (rdConvPlan.afterPoll s).Inv := by
  have hprogress := h.progress (by rw [hp]; rfl)
  simp only [progressOk, hd, progressFor, hp, Phase.inHandshake, Bool.and_eq_true, Bool.or_eq_true,
    decide_eq_true_eq, or_true, if_true] at hprogress
  obtain ⟨⟨hmax, hlen⟩, hzero⟩ := hprogress
  have hpins := h.pins
  rw [pinsOk, hp] at hpins
  show (if s.lat.cnt = 0#32 then s.goto .finish else s.goto .sLoad).Inv
  split
  · refine h.toFinish (by simp [hp]) (by simp [hp]) rfl rfl ?_ (by simp [hlen, hzero])
    simp_all
  · rename_i hcnt
    have hpos : 0 < s.lat.cnt.toNat := by
      rw [Nat.pos_iff_ne_zero]
      exact fun h0 => hcnt (BitVec.eq_of_toNat_eq h0)
    refine h.toMidway (by simp [hp]) (by simp [hp]) rfl rfl hpins ?_ (by rw [State.goto_lat, hd]; rfl)
    simp only [progressOk, State.goto_lat, State.goto_params, State.goto_res, State.goto_wordIdx, hd,
      progressFor, hlen, hzero]
    simp [Phase.inHandshake, hmax, hpos]

theorem wrReg_afterPoll_inv {s : State} (h : s.Inv) (hp : s.phase = .hPoll)
    (hd : decodeCmd s.lat.cmdWord = .ok .wrReg) : (s.goto .sLoad).Inv := by
  have hprogress := h.progress (by rw [hp]; rfl)
  have hpins := h.pins
  rw [pinsOk, hp] at hpins
  refine h.toMidway (by simp [hp]) (by simp [hp]) rfl rfl hpins ?_ (by rw [State.goto_lat, hd]; rfl)
  simpa [progressOk, hd, progressFor] using hprogress

/-! ### The commands -/

theorem planOf_check_inv (c : Instr) {s : State} (h : s.Inv) (hp : s.phase = .check)
    (hd : decodeCmd s.lat.cmdWord = .ok c) : ((planOf c).check s).Inv := by
  cases c with
  | openHandle => exact checkOpen_inv h hp hd
  | closeHandle => exact checkClose_inv h hp hd
  | setDiag => exact checkSetDiag_inv h hp
  | shift16 => exact checkShift_inv h hp (.inl hd)
  | shift32 => exact checkShift_inv h hp (.inr hd)
  | wrReg => exact checkAddr_inv h hp (.inl ⟨hd, rfl⟩)
  | rdReg => exact checkAddr_inv h hp (.inr ⟨hd, rfl⟩)
  | rdRegs => exact checkRdRegs_inv h hp hd
  | rdConv => exact checkRdConv_inv h hp hd
  | _ => exact h.finish_at_check hp rfl rfl rfl rfl rfl

/-- Only WRREG and RDCONV poll (42 R155, R162). -/
theorem planOf_afterPoll_inv (c : Instr) {s : State} (h : s.Inv) (hp : s.phase = .hPoll)
    (hd : decodeCmd s.lat.cmdWord = .ok c) : ((planOf c).afterPoll s).Inv := by
  have hfits := h.phases
  simp only [phaseFits, hp, hd, Bool.or_eq_true, decide_eq_true_eq, Except.ok.injEq] at hfits
  rcases hfits with rfl | rfl
  · exact wrReg_afterPoll_inv h hp hd
  · exact rdConv_afterPoll_inv h hp hd

/-- Six commands shift words (41 R139, R140; 42 R155, R157, R160, R162). -/
theorem planOf_done_inv (c : Instr) {s : State} (h : s.Inv) (hp : s.phase = .wDone)
    (hd : decodeCmd s.lat.cmdWord = .ok c) : ((planOf c).done s).Inv := by
  have hfits := h.phases
  simp only [phaseFits, phaseFits.shifts, hp, hd, Bool.or_eq_true, decide_eq_true_eq,
    Except.ok.injEq] at hfits
  have hsingle : ∀ a b, s.res = [] → ((s.deliver a b).goto .finish).Inv := fun a b hnil =>
    h.lastWord hp rfl rfl rfl rfl (by simpa [hnil] using one_le_maxRecords s)
  rcases hfits with ((((rfl | rfl) | rfl) | rfl) | rfl) | rfl
  · exact hsingle _ _ (h.res_eq_nil_of_single hp (.inl hd))
  · exact hsingle _ _ (h.res_eq_nil_of_single hp (.inr (.inl hd)))
  · have hnil := h.res_eq_nil_of_single hp (.inr (.inr (.inl hd)))
    exact h.lastWord hp rfl rfl rfl rfl (by simp [planOf, wrRegPlan, hnil])
  · exact doneRdReg_inv h hp hd
  · exact doneRdRegs_inv h hp hd
  · exact deliverConversion_inv h hp hd _

/-- Every micro-step of the latched command keeps the invariant. -/
theorem phaseStep_planOfWord_inv {s : State} (h : s.Inv) :
    (phaseStep (planOfWord s.lat.cmdWord) s).Inv := by
  cases hd : decodeCmd s.lat.cmdWord with
  | ok c =>
    rw [planOfWord_ok hd]
    exact phaseStep_inv h (fun hp => planOf_check_inv c h hp hd)
      (fun hp => planOf_afterPoll_inv c (h.of_watched (t := s.pinRead .busy) rfl) hp hd)
      (fun hp => planOf_done_inv c h hp hd)
  | error e =>
    rw [planOfWord_error hd]
    have hfits := h.phases
    refine phaseStep_inv h (fun hp => h.reject_at_check hp _) (fun hp => ?_) (fun hp => ?_) <;>
      simp [hp, hd, phaseFits, phaseFits.shifts] at hfits

/-- A run of the latched command keeps the invariant. -/
theorem runEngine_planOfWord_inv (stop : State → Bool) (n : Nat) {s : State} (h : s.Inv) :
    (runEngine stop (planOfWord s.lat.cmdWord) n s).Inv := by
  have hquiet := planOfWord_quiet s.lat.cmdWord
  refine (runEngine_keeps (K := fun t => t.Inv ∧ t.lat = s.lat) (fun t ht _ => ?_) n s ⟨h, rfl⟩).1
  obtain ⟨hinv, hlat⟩ := ht
  have hturn : t.takeTurn.Inv := hinv.of_watched (by simp [State.watched])
  have hturnLat : t.takeTurn.lat = s.lat := t.takeTurn_lat.trans hlat
  obtain ⟨_, hstepLat, _⟩ := phaseStep_frame hquiet t.takeTurn
  refine ⟨?_, hstepLat.trans hturnLat⟩
  have hstep := phaseStep_planOfWord_inv hturn
  rwa [hturnLat] at hstep

/-! ### The inputs -/

theorem issue_inv {s : State} (h : s.Inv) (hr : s.run = false) (w : Word) : (s.issue w).Inv where
  pins := by
    have hidle : s.phase = .idle := by simpa [hr] using h.running
    simpa [pinsOk, hidle] using h.pins
  running := rfl
  errors := rfl
  results := rfl
  phases := rfl
  listLength := h.listLength
  paramsFit := h.paramsFit

theorem runIssued_inv {s t : State} (h : s.Inv) (hr : s.run = false) {w : Word}
    (ht : runIssued w s = .next t) : t.Inv := by
  rw [runIssued_eq_run hr] at ht
  obtain rfl := Host.Outcome.next.inj ht
  have hrun := runEngine_planOfWord_inv atIdle (commandFuel (s.issue w)) (issue_inv h hr w)
  rwa [State.issue_lat, cmdWord_latched] at hrun

theorem engineTurn_inv {s t : State} (h : s.Inv) (ht : engineTurn s = .next t) : t.Inv := by
  cases hr : s.run with
  | false =>
    obtain rfl : s.takeTurn = t := by simpa [engineTurn, hr] using ht
    exact h.of_watched (by simp [State.watched])
  | true =>
    have hidle : s.phase ≠ .idle := by simpa [hr] using h.running
    obtain ⟨stop, n, _, hrun⟩ := engineTurn_eq_run hr hidle
    obtain rfl := Host.Outcome.next.inj (hrun.symm.trans ht)
    exact runEngine_planOfWord_inv stop (n + 1) h

/-- A host write reaches no register that the invariant reads but `LIST`, whose length it keeps. -/
theorem writeReg_inv {s : State} (h : s.Inv) (v : Word) (r : HostReg) : (writeReg s v r).Inv := by
  cases r with
  | listData =>
    show State.Inv (if s.listIdx.toNat < s.params.listMax then
      { s with list := s.list.set s.listIdx.toNat v } else s)
    split
    · exact { h with listLength := List.length_set.trans h.listLength }
    · exact h
  | _ => exact h.of_watched rfl

theorem hostWrite_inv {s : State} (h : s.Inv) (offset v : Word) : (hostWrite s offset v).Inv := by
  unfold hostWrite
  split
  · exact h
  · split
    · exact writeReg_inv h v _
    · exact h

theorem resetBlock_inv {s : State} (h : s.Inv) : s.resetBlock.Inv where
  pins := rfl
  running := rfl
  errors := rfl
  results := by simp [resultsOk, State.resetBlock, State.resetWith]
  phases := rfl
  listLength := List.length_replicate
  paramsFit := h.paramsFit

/-- Settles O48, by the input that stands first: RESET starts afresh, a host access touches nothing
but `LIST`, and an issue or a turn of the engine is a run of micro-steps, each of which keeps the
invariant at its phase. -/
theorem everyStepKeepsTheInvariant : Obligations.EveryStepKeepsTheInvariant := by
  unfold Obligations.EveryStepKeepsTheInvariant
  intro s t h ht
  cases hi : s.inputs with
  | nil => exact engineTurn_inv h (by simpa only [step, hi] using ht)
  | cons x rest =>
    have hrest : ({ s with inputs := rest } : State).Inv := h.of_watched rfl
    simp only [step, hi] at ht
    cases x with
    | turn => exact engineTurn_inv h ht
    | reset =>
      obtain rfl := Host.Outcome.next.inj ht
      exact resetBlock_inv hrest
    | read offset =>
      obtain rfl := Host.Outcome.next.inj ht
      exact hrest.of_watched rfl
    | write offset v =>
      dsimp only at ht
      split at ht
      · rename_i hissue
        have hr : s.run = false := by
          simp only [issues, Bool.and_eq_true, Bool.not_eq_true'] at hissue
          exact hissue.1
        exact runIssued_inv hrest hr ht
      · obtain rfl := Host.Outcome.next.inj ht
        exact hostWrite_inv hrest offset v
    | secondAgent => cases ht

/-! ### What the invariant says -/

theorem State.Inv.err_le {s : State} (h : s.Inv) : s.err.toNat ≤ 4 := by
  by_cases hend : s.phase = .idle ∨ s.phase = .finish
  · have herr := h.errors
    simp only [errOk, if_pos hend, Bool.and_eq_true, decide_eq_true_eq] at herr
    exact herr.1
  · rw [not_or] at hend
    rw [h.err_eq_zero hend.1 hend.2]
    decide

/-- On its way no command has delivered more than it may (10 R37). -/
theorem progressFor_bounds {d : Except DecodeError Instr} {handshake : Bool} {cnt n k : Nat}
    {q : Config.Params} (h : progressFor d handshake cnt q n k = true) :
    n ≤ max (max q.countMax q.listMax) 1 := by
  unfold progressFor at h
  split at h
  · split at h <;> simp only [Bool.and_eq_true, decide_eq_true_eq] at h <;> omega
  · simp only [Bool.and_eq_true, decide_eq_true_eq] at h
    omega
  · simp only [Bool.and_eq_true, decide_eq_true_eq] at h
    omega
  · simp only [decide_eq_true_eq] at h
    omega

theorem State.Inv.res_le {s : State} (h : s.Inv) : s.res.length ≤ maxRecords s := by
  have hres := h.results
  unfold resultsOk at hres
  split at hres
  · exact of_decide_eq_true hres
  · split at hres
    · simp [List.isEmpty_iff.mp hres]
    · exact progressFor_bounds hres

/-- Settles O49, by reading the invariant at the phase `IDLE` and at any other. -/
theorem invariantGivesTheRules : Obligations.InvariantGivesTheRules := by
  unfold Obligations.InvariantGivesTheRules
  intro s h
  have hidle : s.run = false ↔ s.phase = .idle := by simp [h.running]
  refine ⟨fun hopen hr => ?_, h.err_le, h.res_le, hidle⟩
  have hpins := h.pins
  simp only [pinsOk, hidle.mp hr, hopen, OutLatches.resting, Bool.not_true, Bool.false_or,
    Bool.and_eq_true, Bool.not_eq_true'] at hpins
  obtain ⟨⟨hcs, hclk⟩, htrig⟩ := hpins
  exact ⟨hcs, hclk, htrig⟩

end Sys2Proof.Machine
end

section
/-! SUPPORT. Who writes the handle: a command stays at phases of its own, and of these only the phases
of OPEN and CLOSE touch `CFG` or a direction (40_handle.md R120, R122). -/

namespace Sys2Proof.Machine

-- Proof after proof: within the check's memory bound there is no room for the stacks of more
-- threads beside those that the tests hold. No `variable` stands here, so the option does only that.
set_option deprecated.oldSectionVars true

/-! ### A command stays at phases of its own -/

theorem checkAddr_fits {c : Instr} {first : Phase} (h : phaseFits (.ok c) first = true) (s : State) :
    phaseFits (.ok c) (checkAddr first s).phase = true := by
  unfold checkAddr
  split
  · split
    · exact h
    · rfl
  · rfl

theorem checkShift_fits {c : Instr} (h : phaseFits (.ok c) .sLoad = true) (s : State) :
    phaseFits (.ok c) (checkShift s).phase = true := by
  unfold checkShift
  split
  · exact h
  · rfl

theorem startElement_fits (s : State) :
    phaseFits (.ok .rdRegs) (startElement s).phase = true := by
  rcases startElement_cases s with h | h <;> rw [h] <;> rfl

theorem checkRdRegs_fits (s : State) : phaseFits (.ok .rdRegs) (checkRdRegs s).phase = true := by
  unfold checkRdRegs
  split
  · split
    · rfl
    · split
      · rfl
      · split
        · rfl
        · exact startElement_fits _
  · rfl

theorem checkOpen_fits (s : State) : phaseFits (.ok .openHandle) (checkOpen s).phase = true := by
  rcases checkOpen_cases s with ⟨e, h⟩ | h <;> rw [h] <;> rfl

theorem checkClose_fits (s : State) : phaseFits (.ok .closeHandle) (checkClose s).phase = true := by
  unfold checkClose
  split <;> rfl

theorem checkSetDiag_fits (s : State) : phaseFits (.ok .setDiag) (checkSetDiag s).phase = true := by
  unfold checkSetDiag
  split <;> rfl

theorem checkRdConv_fits (s : State) : phaseFits (.ok .rdConv) (checkRdConv s).phase = true := by
  unfold checkRdConv
  split
  · split <;> rfl
  · rfl

theorem planOf_check_fits (c : Instr) (s : State) :
    phaseFits (.ok c) ((planOf c).check s).phase = true := by
  cases c with
  | openHandle => exact checkOpen_fits s
  | closeHandle => exact checkClose_fits s
  | setDiag => exact checkSetDiag_fits s
  | shift16 | shift32 => exact checkShift_fits rfl s
  | wrReg | rdReg => exact checkAddr_fits rfl s
  | rdRegs => exact checkRdRegs_fits s
  | rdConv => exact checkRdConv_fits s
  | _ => rfl

theorem planOf_afterPoll_fits {c : Instr} (h : phaseFits (.ok c) .hPoll = true) (s : State) :
    phaseFits (.ok c) ((planOf c).afterPoll s).phase = true := by
  simp only [phaseFits, Bool.or_eq_true, decide_eq_true_eq, Except.ok.injEq] at h
  rcases h with rfl | rfl
  · rfl
  · show phaseFits _ (if s.lat.cnt = 0#32 then s.goto .finish else s.goto .sLoad).phase = true
    split <;> rfl

theorem planOf_done_fits (c : Instr) (s : State) :
    phaseFits (.ok c) ((planOf c).done s).phase = true := by
  cases c with
  | rdReg =>
    show phaseFits _ (doneRdReg s).phase = true
    unfold doneRdReg
    split <;> rfl
  | rdRegs =>
    show phaseFits _ (doneRdRegs s).phase = true
    unfold doneRdRegs
    split
    · rfl
    · split
      · rfl
      · exact startElement_fits _
  | rdConv =>
    show phaseFits _ (deliverConversion _ s).phase = true
    unfold deliverConversion
    split <;> rfl
  | _ => rfl

theorem phaseInit_fits (s : State) : phaseFits (.ok .openHandle) (phaseInit s).phase = true := by
  unfold phaseInit
  split <;> rfl

theorem phaseSetup_fits {s : State} (hp : s.phase = .oSetup) :
    phaseFits (.ok .openHandle) (phaseSetup s).phase = true := by
  unfold phaseSetup
  split
  · rfl
  · rw [show _ = Phase.oSetup from (setupEvent_phase _ _ s).trans hp]
    rfl

theorem phasePoll_fits {c : Instr} {s : State} (h : phaseFits (.ok c) .hPoll = true)
    (hp : s.phase = .hPoll) : phaseFits (.ok c) (phasePoll (planOf c).afterPoll s).phase = true := by
  unfold phasePoll
  split
  · exact planOf_afterPoll_fits h _
  · rw [State.pinRead_phase, hp]
    exact h

theorem phaseSampleA_fits {c : Instr} (h : phaseFits (.ok c) .sSampleA = true) (s : State) :
    phaseFits (.ok c) (phaseSampleA s).phase = true := by
  unfold phaseSampleA
  cases s.cfg.dual <;> exact h

theorem phaseClkHi_fits {c : Instr} (h : phaseFits (.ok c) .sClkHi = true) (s : State) :
    phaseFits (.ok c) (phaseClkHi s).phase = true := by
  unfold phaseClkHi
  split <;> exact h

/-- A phase of a command leads to a phase of the same command (10 R36). -/
theorem phaseStep_fits {c : Instr} {s : State} (h : phaseFits (.ok c) s.phase = true) :
    phaseFits (.ok c) (phaseStep (planOf c) s).phase = true := by
  unfold phaseStep
  cases hp : s.phase <;> rw [hp] at h
  case idle => simp [hp, phaseFits]
  case check => exact planOf_check_fits c s
  case oInit =>
    obtain rfl : c = .openHandle := by simpa [phaseFits] using h
    exact phaseInit_fits s
  case oSetup =>
    obtain rfl : c = .openHandle := by simpa [phaseFits] using h
    exact phaseSetup_fits hp
  case hPoll => exact phasePoll_fits h hp
  case sSampleA => exact phaseSampleA_fits h s
  case sClkHi => exact phaseClkHi_fits h s
  case wDone => exact planOf_done_fits c s
  case cTerm | finish => rfl
  case hTrigHi | hTrigLo | sLoad | sCsLo | sDout | sClkLo | sSampleB | sCsHi => exact h

/-! ### Who writes the handle -/

/-- What the command `c` may have done to the handle and the directions between `s` and `t`. -/
def HandleKept (c : Instr) (s t : State) : Prop :=
  (c ≠ .openHandle → c ≠ .closeHandle → t.dir = s.dir) ∧
    (c ≠ .openHandle → c ≠ .closeHandle → c ≠ .setDiag → t.cfg = s.cfg) ∧
    (c ≠ .openHandle → t.cfg.bus = s.cfg.bus ∧ t.cfg.dev = s.cfg.dev ∧ t.cfg.dual = s.cfg.dual)

theorem handleKept_of_eq {c : Instr} {s t : State} (hdir : t.dir = s.dir) (hcfg : t.cfg = s.cfg) :
    HandleKept c s t :=
  ⟨fun _ _ => hdir, fun _ _ _ => hcfg, fun _ => by simp [hcfg]⟩

theorem handleKept_trans {c : Instr} {s t u : State} (h : HandleKept c s t) (g : HandleKept c t u) :
    HandleKept c s u := by
  obtain ⟨hdir, hcfg, hpair⟩ := h
  obtain ⟨gdir, gcfg, gpair⟩ := g
  refine ⟨fun h1 h2 => (gdir h1 h2).trans (hdir h1 h2),
    fun h1 h2 h3 => (gcfg h1 h2 h3).trans (hcfg h1 h2 h3), fun h1 => ?_⟩
  obtain ⟨hbus, hdev, hdual⟩ := hpair h1
  obtain ⟨gbus, gdev, gdual⟩ := gpair h1
  exact ⟨gbus.trans hbus, gdev.trans hdev, gdual.trans hdual⟩

theorem handleKept_of_ownChange {c : Instr} {s t : State} (h : OwnChange s t) :
    HandleKept c s t := by
  unfold OwnChange at h
  rw [h]
  exact handleKept_of_eq rfl rfl

/-- OPEN may write all of it (40 R120). -/
theorem handleKept_open (s t : State) : HandleKept .openHandle s t :=
  ⟨fun h => absurd rfl h, fun h => absurd rfl h, fun h => absurd rfl h⟩

theorem planOf_check_handleKept (c : Instr) (s : State) :
    HandleKept c s ((planOf c).check s) := by
  by_cases hc : c = .setDiag
  · subst hc
    obtain ⟨d, hown⟩ := checkSetDiag_own s
    have hdiag : HandleKept .setDiag s (s.withDiag d) :=
      ⟨fun _ _ => rfl, fun _ _ h => absurd rfl h, fun _ => ⟨rfl, rfl, rfl⟩⟩
    exact handleKept_trans hdiag (handleKept_of_ownChange hown)
  · exact handleKept_of_ownChange (planOf_check_own hc s)

theorem phasePoll_handleKept (c : Instr) (s : State) :
    HandleKept c s (phasePoll (planOf c).afterPoll s) := by
  have hread : HandleKept c s (s.pinRead .busy) := handleKept_of_eq rfl rfl
  unfold phasePoll
  split
  · exact handleKept_trans hread (handleKept_of_ownChange (planOf_afterPoll_own c _))
  · exact hread

theorem phaseClkHi_handleKept (c : Instr) (s : State) : HandleKept c s (phaseClkHi s) := by
  unfold phaseClkHi
  split <;> exact handleKept_of_eq rfl rfl

/-- At a phase of its own a command touches the handle only as it may. -/
theorem phaseStep_handleKept {c : Instr} {s : State} (h : phaseFits (.ok c) s.phase = true) :
    HandleKept c s (phaseStep (planOf c) s) := by
  unfold phaseStep
  cases hp : s.phase with
  | check => exact planOf_check_handleKept c s
  | oInit | oSetup =>
    obtain rfl : c = .openHandle := by simpa [phaseFits, hp] using h
    exact handleKept_open _ _
  | cTerm =>
    obtain rfl : c = .closeHandle := by simpa [phaseFits, hp] using h
    exact ⟨fun _ h => absurd rfl h, fun _ h => absurd rfl h, fun _ => ⟨rfl, rfl, rfl⟩⟩
  | hPoll => exact phasePoll_handleKept c s
  | sClkHi => exact phaseClkHi_handleKept c s
  | wDone => exact handleKept_of_ownChange (planOf_done_own c s)
  | _ => exact handleKept_of_eq rfl rfl

/-- Settles O45: the command runs from a phase of its own, every micro-step leads to another such
phase, and at each of them the handle is touched only as the command may. -/
theorem onlyHandleCommandsWriteTheHandle : Obligations.OnlyHandleCommandsWriteTheHandle := by
  unfold Obligations.OnlyHandleCommandsWriteTheHandle
  intro s t c hspace hexec ht
  rw [exec_command c hspace, runCommand] at ht
  obtain rfl := Host.Outcome.next.inj ht
  have hbegin : phaseFits (.ok c) (s.begin c.encode).phase = true ∧
      HandleKept c s (s.begin c.encode) := by
    unfold State.begin
    split
    · rename_i hr
      obtain ⟨hd, hfits⟩ := hexec hr
      exact ⟨hd ▸ hfits, handleKept_of_eq rfl rfl⟩
    · exact ⟨rfl, handleKept_of_eq rfl rfl⟩
  refine (runEngine_keeps (K := fun u => phaseFits (.ok c) u.phase = true ∧ HandleKept c s u)
    (fun u hu _ => ?_) _ _ hbegin).2
  obtain ⟨hfits, hkept⟩ := hu
  have hturn : phaseFits (.ok c) u.takeTurn.phase = true := by simpa using hfits
  have hkeptTurn : HandleKept c u u.takeTurn := handleKept_of_eq (by simp) (by simp)
  exact ⟨phaseStep_fits hturn,
    handleKept_trans (handleKept_trans hkept hkeptTurn) (phaseStep_handleKept hturn)⟩

end Sys2Proof.Machine
end

section
/-! SUPPORT. The host port: what a read shows, what a write reaches, and the view right after reset
(10_state.md R42, R43). -/

namespace Sys2Proof.Machine

-- Proof after proof: within the check's memory bound there is no room for the stacks of more
-- threads beside those that the tests hold. No `variable` stands here, so the option does only that.
set_option deprecated.oldSectionVars true

/-- Settles O50: a read at the head of the schedule is recorded with its value. -/
theorem hostReadsChangeNothing : Obligations.HostReadsChangeNothing := by
  unfold Obligations.HostReadsChangeNothing
  intro s offset rest hi
  simp only [step, hi]
  rfl

/-! ### The registers at their offsets -/

/-- The offset of a register (10 R42). -/
def HostReg.offset (r : HostReg) : Word :=
  match r with
  | .cmd => 0x00#32
  | .status => 0x04#32
  | .argAddr => 0x08#32
  | .argValue => 0x0C#32
  | .argCount => 0x10#32
  | .argTx => 0x14#32
  | .argOpen => 0x18#32
  | .cfg => 0x1C#32
  | .pins => 0x20#32
  | .resLen => 0x24#32
  | .resIdx => 0x28#32
  | .resA => 0x2C#32
  | .resB => 0x30#32
  | .listIdx => 0x34#32
  | .listData => 0x38#32

@[simp] theorem hostReg_offset (r : HostReg) : hostReg r.offset = some r := by
  cases r <;> rfl

/-- Every register is found at its own offset and nowhere else. -/
theorem hostReg_eq_some {offset : Word} {r : HostReg} :
    hostReg offset = some r → offset = r.offset := by
  have row : ∀ {c : Word} {q : HostReg} {x : Option HostReg}, q.offset = c →
      (x = some r → offset = r.offset) →
      (if offset = c then some q else x) = some r → offset = r.offset := by
    intro c q x hq hx h
    split at h
    · rename_i hc
      rw [hc, ← hq, Option.some.inj h]
    · exact hx h
  unfold hostReg
  repeat refine row rfl ?_
  exact nofun

theorem hostRead_offset (s : State) (r : HostReg) : hostRead s r.offset = regValue s r := by
  simp [hostRead]

/-- The offsets of the table are the multiples of 4 up to 0x38. -/
theorem HostReg.offset_in_table (r : HostReg) : r.offset.toNat ≤ 0x38 ∧ r.offset.toNat % 4 = 0 := by
  cases r <;> decide

theorem hostRead_outside_table {s : State} {offset : Word}
    (h : 0x38 < offset.toNat ∨ offset.toNat % 4 ≠ 0) : hostRead s offset = 0#32 := by
  unfold hostRead
  split
  · rename_i r hr
    obtain rfl := hostReg_eq_some hr
    have := r.offset_in_table
    omega
  · rfl

/-! ### What a read shows -/

theorem statusWord_eq (s : State) : statusWord s = BitVec.ofNat 32
    ((if s.run then 1 else 0) + (if s.cfg.isOpen then 2 else 0) + 16 * s.err.toNat) := by
  unfold statusWord
  generalize s.run = run, s.cfg.isOpen = isOpen, s.err = err
  revert run isOpen err
  decide

theorem cfgWord_eq (s : State) : cfgWord s = BitVec.ofNat 32
    (s.cfg.bus.toNat + 2 * s.cfg.dev.toNat + (if s.cfg.dual then 8 else 0) +
      (if s.cfg.diag then 16 else 0) + (if s.cfg.isOpen then 32 else 0)) := by
  unfold cfgWord
  generalize s.cfg.bus = bus, s.cfg.dev = dev, s.cfg.dual = dual, s.cfg.diag = diag,
    s.cfg.isOpen = isOpen
  revert bus dev dual diag isOpen
  decide

theorem pinsWord_eq (s : State) : pinsWord s = BitVec.ofNat 32
    ((if s.out.cs then 1 else 0) + (if s.out.clk then 2 else 0) + (if s.out.dout then 4 else 0) +
      (if s.out.trig then 8 else 0)) := by
  unfold pinsWord
  generalize s.out.cs = cs, s.out.clk = clk, s.out.dout = dout, s.out.trig = trig
  revert cs clk dout trig
  decide

theorem indexedRes_of_some {s : State} {r : ResRec} (h : s.res[s.resIdx.toNat]? = some r) :
    indexedRes s = r := by
  simp [indexedRes, List.getD_eq_getElem?_getD, h]

theorem indexedRes_of_le {s : State} (h : s.res.length ≤ s.resIdx.toNat) :
    indexedRes s = ⟨0#32, 0#32⟩ := by
  simp [indexedRes, List.getD_eq_getElem?_getD, List.getElem?_eq_none h]

/-- `ARG_OPEN` reads its five bits, and 0 above them. -/
theorem extractLsb'_setWidth_argOpen (o : BitVec 5) :
    (o.setWidth 32).extractLsb' 0 5 = o ∧ (o.setWidth 32).extractLsb' 5 27 = 0#27 := by
  revert o
  decide

theorem regValue_listData_of_lt {s : State} {v : Word} (h : s.listIdx.toNat < s.params.listMax)
    (hv : s.list[s.listIdx.toNat]? = some v) : regValue s .listData = v := by
  simp [regValue, h, listAt, List.getD_eq_getElem?_getD, hv]

theorem regValue_listData_of_le {s : State} (h : s.params.listMax ≤ s.listIdx.toNat) :
    regValue s .listData = 0#32 :=
  if_neg (Nat.not_lt.mpr h)

/-- Settles O53: each register is read at its offset, where it shows its fields. -/
theorem hostReadsShowTheirFields : Obligations.HostReadsShowTheirFields := by
  unfold Obligations.HostReadsShowTheirFields
  intro s
  have hread := hostRead_offset s
  obtain ⟨hopenLow, hopenHigh⟩ := extractLsb'_setWidth_argOpen s.args.opn
  refine ⟨hread .argAddr, hread .argValue, hread .argCount, hread .argTx,
    (congrArg _ (hread .argOpen)).trans hopenLow, (congrArg _ (hread .argOpen)).trans hopenHigh,
    hread .resIdx, hread .listIdx,
    fun hlt v hv => (hread .listData).trans (regValue_listData_of_lt hlt hv),
    (hread .status).trans (statusWord_eq s), (hread .cfg).trans (cfgWord_eq s),
    (hread .pins).trans (pinsWord_eq s), hread .resLen,
    fun r hr => ?_, fun hle => ?_,
    fun hle => (hread .listData).trans (regValue_listData_of_le hle),
    hread .cmd, fun offset h => hostRead_outside_table h⟩
  · exact ⟨(hread .resA).trans (congrArg ResRec.a (indexedRes_of_some hr)),
      (hread .resB).trans (congrArg ResRec.b (indexedRes_of_some hr))⟩
  · exact ⟨(hread .resA).trans (congrArg ResRec.a (indexedRes_of_le hle)),
      (hread .resB).trans (congrArg ResRec.b (indexedRes_of_le hle))⟩

/-! ### What a write reaches -/

theorem offset_ne_of_none {offset : Word} (h : hostReg offset = none) (r : HostReg) :
    offset ≠ r.offset := by
  rintro rfl
  simp at h

/-- Settles O52: the offset is that of one register, which the write reaches as the table says, or
of none, and then nothing changes. -/
theorem hostWritesReachTheirRegister : Obligations.HostWritesReachTheirRegister := by
  unfold Obligations.HostWritesReachTheirRegister
  intro s offset v hr hi ho
  rw [step_writes hi (by simpa [hostReg_eq_cmd] using ho), hostWrite, if_neg (by simp [hr])]
  congr 1
  cases h : hostReg offset with
  | none =>
    have hne := offset_ne_of_none h
    simp only [HostReg.offset] at hne
    rw [if_neg (hne .argAddr), if_neg (hne .argValue), if_neg (hne .argCount), if_neg (hne .argTx),
      if_neg (hne .argOpen), if_neg (hne .resIdx), if_neg (hne .listIdx),
      if_neg fun hlist => hne .listData hlist.1]
  | some r =>
    obtain rfl := hostReg_eq_some h
    cases r with
    | cmd => exact absurd rfl ho
    | listData =>
      show (if s.listIdx.toNat < s.params.listMax then _ else _) = _
      simp [HostReg.offset]
    | _ => simp [writeReg, HostReg.offset]

/-- Settles O57, by evaluating the reset state. -/
theorem hostViewAfterReset : Obligations.HostViewAfterReset := by
  unfold Obligations.HostViewAfterReset
  refine ⟨rfl, rfl, rfl, rfl, rfl, fun p => ?_⟩
  cases p <;> rfl

end Sys2Proof.Machine
end

section
/-! SUPPORT. What a command carries over from the command before: nothing (00_scope.md R9, 10_state.md
R41). Two runs from states that differ in scratch registers alone differ, phase by phase, in no
register that a later phase reads. -/

namespace Sys2Proof.Machine

-- Proof after proof: within the check's memory bound there is no room for the stacks of more
-- threads beside those that the tests hold. No `variable` stands here, so the option does only that.
set_option deprecated.oldSectionVars true

/-- A phase from which `WORDIDX` is read before it is loaded: past the check of a command that shifts
(10 R34, R41). -/
def Phase.countsWords (p : Phase) : Bool :=
  p.inHandshake || decide (p = .sLoad) || p.wordLoaded

/-- `t` is `s` but for scratch registers that are loaded before they are read (10 R41). -/
def SameButScratch (s t : State) : Prop :=
  t = s.withScratch s.lat t.sh t.wordIdx t.ostep ∧
    (s.phase.wordLoaded = true → t.sh = s.sh) ∧
    (s.phase.countsWords = true → t.wordIdx = s.wordIdx) ∧
    (s.phase = .oSetup → t.ostep = s.ostep)

/-- At a phase that reads no scratch register all of them may differ. -/
theorem sameButScratch_free {s t : State} (ht : t = s.withScratch s.lat t.sh t.wordIdx t.ostep)
    (hcount : s.phase.countsWords = false) (hp : s.phase ≠ .oSetup) : SameButScratch s t := by
  have hword : s.phase.wordLoaded = false := by
    simp only [Phase.countsWords, Bool.or_eq_false_iff] at hcount
    exact hcount.2
  exact ⟨ht, fun h => by simp [hword] at h, fun h => by simp [hcount] at h, fun h => absurd h hp⟩

/-- Before its first word is loaded a command reads only `WORDIDX`. -/
theorem sameButScratch_counting {s t : State} (ht : t = s.withScratch s.lat t.sh s.wordIdx t.ostep)
    (hword : s.phase.wordLoaded = false) (hp : s.phase ≠ .oSetup) : SameButScratch s t := by
  have hw : t.wordIdx = s.wordIdx := by rw [ht]; rfl
  exact ⟨by rw [hw]; exact ht, fun h => by simp [hword] at h, fun _ => hw, fun h => absurd h hp⟩

/-- In a loaded word `OSTEP` may differ (40 R120). -/
theorem sameButScratch_atStep {s : State} (hp : s.phase.wordLoaded = true) (o : Fin 11) :
    SameButScratch s (s.atStep o) := by
  refine ⟨rfl, fun _ => rfl, fun _ => rfl, fun h => ?_⟩
  rw [h] at hp
  cases hp

/-- In `O_SETUP` only `OSTEP` is read (40 R120). -/
theorem sameButScratch_setup {s t : State} (hp : s.phase = .oSetup)
    (ht : t = s.withScratch s.lat t.sh t.wordIdx s.ostep) : SameButScratch s t := by
  have ho : t.ostep = s.ostep := by rw [ht]; rfl
  have hcount : s.phase.countsWords = false := by rw [hp]; rfl
  have hword : s.phase.wordLoaded = false := by rw [hp]; rfl
  exact ⟨by rw [ho]; exact ht, fun h => by simp [hword] at h, fun h => by simp [hcount] at h,
    fun _ => ho⟩

/-- Two branches taken alike (the two tests read the same registers). -/
theorem sameButScratch_ite {c : Prop} {i j : Decidable c} {s s' t t' : State}
    (hthen : c → SameButScratch s t) (helse : ¬ c → SameButScratch s' t') :
    SameButScratch (@ite State c i s s') (@ite State c j t t') := by
  by_cases hc : c
  · rw [if_pos hc, if_pos hc]
    exact hthen hc
  · rw [if_neg hc, if_neg hc]
    exact helse hc

/-! ### The checks read no scratch register -/

theorem sameButScratch_reject (s : State) (g : Shifter) (w : Word) (o : Fin 11) (e : ErrorKind) :
    SameButScratch (s.reject e) ((s.withScratch s.lat g w o).reject e) :=
  sameButScratch_free rfl rfl nofun

theorem checkOpen_scratch (s : State) (g : Shifter) (w : Word) (o : Fin 11) :
    SameButScratch (checkOpen s) (checkOpen (s.withScratch s.lat g w o)) := by
  unfold checkOpen
  refine sameButScratch_ite (fun _ => sameButScratch_reject s g w o _) fun _ => ?_
  exact sameButScratch_ite (fun _ => sameButScratch_free rfl rfl nofun)
    fun _ => sameButScratch_reject s g w o _

theorem checkClose_scratch (s : State) (g : Shifter) (w : Word) (o : Fin 11) :
    SameButScratch (checkClose s) (checkClose (s.withScratch s.lat g w o)) :=
  sameButScratch_ite (fun _ => sameButScratch_free rfl rfl nofun)
    fun _ => sameButScratch_reject s g w o _

theorem checkSetDiag_scratch (s : State) (g : Shifter) (w : Word) (o : Fin 11) :
    SameButScratch (checkSetDiag s) (checkSetDiag (s.withScratch s.lat g w o)) :=
  sameButScratch_ite (fun _ => sameButScratch_free rfl rfl nofun)
    fun _ => sameButScratch_reject s g w o _

theorem checkShift_scratch (s : State) (g : Shifter) (w : Word) (o : Fin 11) :
    SameButScratch (checkShift s) (checkShift (s.withScratch s.lat g w o)) :=
  sameButScratch_ite (fun _ => sameButScratch_counting rfl rfl nofun)
    fun _ => sameButScratch_reject s g w o _

theorem checkAddr_scratch {first : Phase} (hf : first.wordLoaded = false) (ho : first ≠ .oSetup)
    (s : State) (g : Shifter) (w : Word) (o : Fin 11) :
    SameButScratch (checkAddr first s) (checkAddr first (s.withScratch s.lat g w o)) := by
  unfold checkAddr
  refine sameButScratch_ite (fun _ => ?_) fun _ => sameButScratch_reject s g w o _
  exact sameButScratch_ite (fun _ => sameButScratch_counting rfl hf ho)
    fun _ => sameButScratch_reject s g w o _

theorem checkRdConv_scratch (s : State) (g : Shifter) (w : Word) (o : Fin 11) :
    SameButScratch (checkRdConv s) (checkRdConv (s.withScratch s.lat g w o)) := by
  unfold checkRdConv
  refine sameButScratch_ite (fun _ => ?_) fun _ => sameButScratch_reject s g w o _
  exact sameButScratch_ite (fun _ => sameButScratch_reject s g w o _)
    fun _ => sameButScratch_counting rfl rfl nofun

/-- The start of an element reads `WORDIDX` and the list, no other scratch register (42 R160). -/
theorem startElement_scratch (s : State) (g : Shifter) (o : Fin 11) :
    SameButScratch (startElement s) (startElement (s.withScratch s.lat g s.wordIdx o)) :=
  sameButScratch_ite (fun _ => sameButScratch_reject s g s.wordIdx o _)
    fun _ => sameButScratch_counting rfl rfl nofun

theorem checkRdRegs_scratch (s : State) (g : Shifter) (w : Word) (o : Fin 11) :
    SameButScratch (checkRdRegs s) (checkRdRegs (s.withScratch s.lat g w o)) := by
  unfold checkRdRegs
  refine sameButScratch_ite (fun _ => ?_) fun _ => sameButScratch_reject s g w o _
  refine sameButScratch_ite (fun _ => sameButScratch_reject s g w o _) fun _ => ?_
  refine sameButScratch_ite (fun _ => sameButScratch_reject s g w o _) fun _ => ?_
  exact sameButScratch_ite (fun _ => sameButScratch_free rfl rfl nofun)
    fun _ => startElement_scratch { s with wordIdx := 0#32 } g o

theorem planOf_check_scratch (c : Instr) (s : State) (g : Shifter) (w : Word) (o : Fin 11) :
    SameButScratch ((planOf c).check s) ((planOf c).check (s.withScratch s.lat g w o)) := by
  cases c with
  | openHandle => exact checkOpen_scratch s g w o
  | closeHandle => exact checkClose_scratch s g w o
  | setDiag => exact checkSetDiag_scratch s g w o
  | shift16 | shift32 => exact checkShift_scratch s g w o
  | wrReg => exact checkAddr_scratch (first := .hTrigHi) rfl nofun s g w o
  | rdReg => exact checkAddr_scratch (first := .sLoad) rfl nofun s g w o
  | rdRegs => exact checkRdRegs_scratch s g w o
  | rdConv => exact checkRdConv_scratch s g w o
  | _ => exact sameButScratch_free rfl rfl nofun

/-! ### The phases that read some -/

/-- The end of the poll reads no scratch register. -/
theorem planOf_afterPoll_scratch (c : Instr) (s : State) (g : Shifter) (o : Fin 11) :
    SameButScratch ((planOf c).afterPoll s)
      ((planOf c).afterPoll (s.withScratch s.lat g s.wordIdx o)) := by
  cases c with
  | rdConv =>
    exact sameButScratch_ite (fun _ => sameButScratch_free rfl rfl nofun)
      fun _ => sameButScratch_counting rfl rfl nofun
  | _ => exact sameButScratch_counting rfl rfl nofun

theorem phasePoll_scratch (c : Instr) {s : State} (hp : s.phase = .hPoll) (g : Shifter)
    (o : Fin 11) :
    SameButScratch (phasePoll (planOf c).afterPoll s)
      (phasePoll (planOf c).afterPoll (s.withScratch s.lat g s.wordIdx o)) :=
  sameButScratch_ite (fun _ => planOf_afterPoll_scratch c (s.pinRead .busy) g o)
    fun _ => sameButScratch_counting rfl (by rw [State.pinRead_phase, hp]; rfl) (by simp [hp])

/-- The word loaded is read from the latches, the list and `WORDIDX` (41 R131). -/
theorem phaseLoad_scratch (c : Instr) (s : State) (g : Shifter) (o : Fin 11) :
    SameButScratch (phaseLoad ((planOf c).word s).1 ((planOf c).word s).2 s)
      (phaseLoad ((planOf c).word (s.withScratch s.lat g s.wordIdx o)).1
        ((planOf c).word (s.withScratch s.lat g s.wordIdx o)).2
        (s.withScratch s.lat g s.wordIdx o)) := by
  have hword : (planOf c).word (s.withScratch s.lat g s.wordIdx o) = (planOf c).word s := by
    cases c <;> rfl
  rw [hword]
  exact sameButScratch_atStep (s := phaseLoad ((planOf c).word s).1 ((planOf c).word s).2 s) rfl o

/-- The disposal of a word does not read `OSTEP`. -/
theorem planOf_done_scratch (c : Instr) (s : State) (o : Fin 11) :
    SameButScratch ((planOf c).done s) ((planOf c).done (s.atStep o)) := by
  cases c with
  | rdReg =>
    exact sameButScratch_ite (fun _ => sameButScratch_counting rfl rfl nofun)
      fun _ => sameButScratch_free rfl rfl nofun
  | rdRegs =>
    refine sameButScratch_ite (fun _ => sameButScratch_counting rfl rfl nofun) fun _ => ?_
    exact sameButScratch_ite (fun _ => sameButScratch_free rfl rfl nofun) fun _ =>
      startElement_scratch
        { s.deliver (capture16 s.sh.accA) 0#32 with wordIdx := s.wordIdx + 1#32 } s.sh o
  | rdConv =>
    exact sameButScratch_ite (fun _ => sameButScratch_free rfl rfl nofun)
      fun _ => sameButScratch_counting rfl rfl nofun
  | _ => exact sameButScratch_free rfl rfl nofun

theorem phaseSampleA_scratch (s : State) (o : Fin 11) :
    SameButScratch (phaseSampleA s) (phaseSampleA (s.atStep o)) :=
  sameButScratch_atStep (phaseSampleA_wordLoaded s) o

theorem phaseClkHi_scratch (s : State) (o : Fin 11) :
    SameButScratch (phaseClkHi s) (phaseClkHi (s.atStep o)) := by
  refine sameButScratch_ite (fun _ => ?_) fun _ => ?_
  · exact sameButScratch_atStep (s := (s.pinWrite .clk true).goto .sCsHi) rfl o
  · exact sameButScratch_atStep (s := { s.pinWrite .clk true with
      sh := { s.sh with bitIdx := s.sh.bitIdx - 1#5 }, phase := .sDout }) rfl o

/-- No phase of a loaded word reads `OSTEP`. -/
theorem phaseStep_wordLoaded_scratch (c : Instr) {s : State} (hp : s.phase.wordLoaded = true)
    (o : Fin 11) :
    SameButScratch (phaseStep (planOf c) s) (phaseStep (planOf c) (s.atStep o)) := by
  unfold phaseStep
  rw [show (s.atStep o).phase = s.phase from rfl]
  cases h : s.phase with
  | sSampleA => exact phaseSampleA_scratch s o
  | sClkHi => exact phaseClkHi_scratch s o
  | wDone => exact planOf_done_scratch c s o
  | sCsLo | sDout | sClkLo | sSampleB | sCsHi => exact sameButScratch_atStep rfl o
  | _ => simp [h, Phase.wordLoaded] at hp

/-! ### A whole command -/

/-- `PinInit` loads `OSTEP`, and a failure ends OPEN (40 R120, R121). -/
theorem phaseInit_scratch (s : State) (g : Shifter) (w : Word) (o : Fin 11) :
    SameButScratch (phaseInit s) (phaseInit (s.withScratch s.lat g w o)) :=
  sameButScratch_ite (fun _ => ⟨rfl, nofun, nofun, fun _ => rfl⟩)
    fun _ => sameButScratch_reject s.pinInit g w o _

theorem setupEvent_withScratch (k : Nat) (d : Bool) (s : State) (l : Latches) (g : Shifter)
    (w : Word) (o : Fin 11) :
    setupEvent k d (s.withScratch l g w o) = (setupEvent k d s).withScratch l g w o := by
  unfold setupEvent
  split <;> (try split) <;> rfl

/-- The set-up of OPEN reads `OSTEP` only (40 R120). -/
theorem phaseSetup_scratch {s : State} (hp : s.phase = .oSetup) (g : Shifter) (w : Word) :
    SameButScratch (phaseSetup s) (phaseSetup (s.withScratch s.lat g w s.ostep)) := by
  refine sameButScratch_ite (fun _ => sameButScratch_free rfl rfl nofun) fun _ => ?_
  have hevent := setupEvent_withScratch s.ostep.val (opnDual s.lat.opn) s s.lat g w s.ostep
  refine sameButScratch_setup ((setupEvent_phase _ _ s).trans hp) ?_
  show ({ setupEvent s.ostep.val (opnDual s.lat.opn) (s.withScratch s.lat g w s.ostep) with
    ostep := s.ostep + 1 } : State) = _
  rw [hevent]
  simp [State.withScratch]

/-- Every phase leads from states that differ in unread scratch registers to such states. -/
theorem phaseStep_scratch (c : Instr) {s t : State} (h : SameButScratch s t) :
    SameButScratch (phaseStep (planOf c) s) (phaseStep (planOf c) t) := by
  obtain ⟨ht, hsh, hword, hostep⟩ := h
  by_cases hloaded : s.phase.wordLoaded = true
  · have hcount : s.phase.countsWords = true := by simp [Phase.countsWords, hloaded]
    rw [hsh hloaded, hword hcount] at ht
    rw [ht]
    exact phaseStep_wordLoaded_scratch c hloaded t.ostep
  · generalize t.sh = g, t.wordIdx = w, t.ostep = o at ht hword hostep
    subst ht
    unfold phaseStep
    rw [show (s.withScratch s.lat g w o).phase = s.phase from rfl]
    cases hp : s.phase <;> rw [hp] at hloaded hword hostep
    case idle => exact sameButScratch_free rfl (by rw [hp]; rfl) (by simp [hp])
    case check => exact planOf_check_scratch c s g w o
    case oInit => exact phaseInit_scratch s g w o
    case oSetup =>
      obtain rfl := hostep rfl
      exact phaseSetup_scratch hp g w
    case cTerm | finish => exact sameButScratch_free rfl rfl nofun
    case hTrigHi | hTrigLo =>
      obtain rfl := hword rfl
      exact sameButScratch_counting rfl rfl nofun
    case hPoll =>
      obtain rfl := hword rfl
      exact phasePoll_scratch c hp g o
    case sLoad =>
      obtain rfl := hword rfl
      exact phaseLoad_scratch c s g o
    all_goals exact absurd rfl hloaded

/-- The schedule is the same on both sides. -/
theorem takeTurn_scratch {s t : State} (h : SameButScratch s t) :
    SameButScratch s.takeTurn t.takeTurn := by
  obtain ⟨ht, hrest⟩ := h
  have hturn : t.takeTurn = s.takeTurn.withScratch s.takeTurn.lat t.sh t.wordIdx t.ostep := by
    rw [ht]
    unfold State.takeTurn
    rw [show (s.withScratch s.lat t.sh t.wordIdx t.ostep).inputs = s.inputs from rfl]
    split <;> rfl
  exact ⟨by simpa using hturn, by simpa using hrest⟩

/-- Runs from states that differ in unread scratch registers end in such states. -/
theorem runEngine_scratch (c : Instr) (n : Nat) {s t : State} (h : SameButScratch s t) :
    SameButScratch (runEngine atIdle (planOf c) n s) (runEngine atIdle (planOf c) n t) := by
  induction n generalizing s t with
  | zero => exact h
  | succ n ih =>
    have hstep : SameButScratch (microStep (planOf c) s) (microStep (planOf c) t) :=
      phaseStep_scratch c (takeTurn_scratch h)
    have hphase : ∀ {u v : State}, SameButScratch u v → v.phase = u.phase :=
      fun ⟨hv, _⟩ => by rw [hv]; rfl
    have hdue : t.inputDue = s.inputDue := by
      obtain ⟨ht, _⟩ := h
      rw [ht]
      rfl
    unfold runEngine
    rw [hdue, atIdle, atIdle, hphase h, hphase hstep]
    split
    · exact h
    · split
      · exact hstep
      · exact ih hstep

/-- A command issued in an idle block runs its plan from its issue. -/
theorem exec_of_idle {c : Instr} (hspace : c.space = .hostCmd) {s : State} (hr : s.run = false) :
    exec c s = .next
      (runEngine atIdle (planOf c) (commandFuel (s.issue c.encode)) (s.issue c.encode)) := by
  simp [exec_command c hspace, runCommand, State.begin, hr]

/-- Settles O59: an issue latches the same operands whatever stood in the registers, and no phase
reads a scratch register that the command has not loaded. -/
theorem scratchCarriesNothingOver : Obligations.ScratchCarriesNothingOver := by
  unfold Obligations.ScratchCarriesNothingOver
  intro s t u c l g w o hspace hr ht hu
  have hissue : SameButScratch (s.issue c.encode) ((s.withScratch l g w o).issue c.encode) :=
    sameButScratch_free rfl rfl nofun
  have hrun : SameButScratch t u := by
    obtain rfl := Host.Outcome.next.inj ((exec_of_idle hspace hr).symm.trans ht)
    obtain rfl := Host.Outcome.next.inj
      ((exec_of_idle hspace (s := s.withScratch l g w o) hr).symm.trans hu)
    exact runEngine_scratch c (commandFuel (s.issue c.encode)) hissue
  obtain ⟨heq, _⟩ := hrun
  rw [heq]
  exact ⟨rfl, rfl, rfl, rfl, rfl, rfl, rfl, rfl, rfl⟩

end Sys2Proof.Machine
end

section
/-! SUPPORT. The memory side (20_memory.md): which addresses are valid and how they are framed, what
becomes of a host write while a command runs, and the trace, which every step only extends. -/

namespace Sys2Proof.Machine

-- Proof after proof: within the check's memory bound there is no room for the stacks of more
-- threads beside those that the tests hold. No `variable` stands here, so the option does only that.
set_option deprecated.oldSectionVars true

/-! ### Host writes while a command runs (R80) -/

theorem issues_of_run {s : State} (hr : s.run = true) (offset : Word) : issues s offset = false := by
  simp [issues, hr]

theorem hostWrite_of_run {s : State} (hr : s.run = true) (offset v : Word) :
    hostWrite s offset v = s :=
  if_pos hr

/-- Settles O51: while a command runs no write issues another, and a write that issues none changes
no register. -/
theorem hostWritesWhileRunningAreIgnored : Obligations.HostWritesWhileRunningAreIgnored := by
  unfold Obligations.HostWritesWhileRunningAreIgnored
  intro s offset v rest hr hi
  have hrest : ({ s with inputs := rest } : State).run = true := hr
  simp [step, hi, issues_of_run hr, hostWrite_of_run hrest]

/-! ### Valid addresses (R62) -/

theorem validAddr_iff (a : Word) :
    validAddr a = true ↔ (2 ≤ a.toNat ∧ a.toNat ≤ 7) ∨ (32 ≤ a.toNat ∧ a.toNat ≤ 64) := by
  simp [validAddr]

theorem producedField_iff (f : BitVec 6) :
    producedField f = true ↔ f.toNat = 0 ∨ (2 ≤ f.toNat ∧ f.toNat ≤ 7) ∨ 32 ≤ f.toNat := by
  simp [producedField, or_assoc]

/-- A valid address is framed as itself but for 64, which is framed as 0 (30_encoding.md R94). -/
theorem producedField_of_validAddr {a : Word} (h : validAddr a = true) :
    producedField (a.extractLsb' 0 6) = true := by
  have hfield : (a.extractLsb' 0 6).toNat = a.toNat % 64 := by simp [BitVec.extractLsb'_toNat]
  rw [validAddr_iff] at h
  rw [producedField_iff, hfield]
  omega

/-- Settles O6: the test is the two ranges, and the address field of either frame is the low six
bits of the address. -/
theorem validAddressesAreTheTwoRanges : Obligations.ValidAddressesAreTheTwoRanges := by
  unfold Obligations.ValidAddressesAreTheTwoRanges
  refine ⟨validAddr_iff, by decide, fun a v h => ⟨?_, ?_⟩⟩
  · rw [writeFrame_eq_frameBits, frameAddr_frameBits]
    exact producedField_of_validAddr h
  · rw [readFrame_eq_frameBits, frameAddr_frameBits]
    exact producedField_of_validAddr h

/-! ### The trace only grows (R74) -/

theorem microStep_extends_trace {p : Plan} (hp : p.Quiet) (s : State) :
    s.trace <+: (microStep p s).trace := by
  obtain ⟨_, _, _, htrace⟩ := phaseStep_frame hp s.takeTurn
  rw [State.takeTurn_trace] at htrace
  rcases htrace with hsame | ⟨e, happend⟩
  · exact ⟨[], (List.append_nil _).trans hsame.symm⟩
  · exact ⟨[e], happend.symm⟩

theorem runEngine_extends_trace {p : Plan} (hp : p.Quiet) (stop : State → Bool) (n : Nat)
    (s : State) : s.trace <+: (runEngine stop p n s).trace :=
  runEngine_keeps (K := fun t => s.trace <+: t.trace)
    (fun t ht _ => ht.trans (microStep_extends_trace hp t)) n s List.prefix_rfl

theorem State.begin_trace (s : State) (w : Word) : (s.begin w).trace = s.trace := by
  unfold State.begin
  split <;> rfl

theorem runCommand_extends_trace {p : Plan} (hp : p.Quiet) {w : Word} {s t : State}
    (h : runCommand p w s = .next t) : s.trace <+: t.trace := by
  obtain rfl := Host.Outcome.next.inj h
  have hrun := runEngine_extends_trace hp atIdle (commandFuel (s.begin w)) (s.begin w)
  rwa [State.begin_trace] at hrun

theorem transmit_extends_trace {wide : Bool} {w : Word} {s t : State}
    (h : transmit wide w s = .next t) : s.trace <+: t.trace := by
  obtain rfl := Host.Outcome.next.inj h
  exact runEngine_extends_trace (wordPlan_quiet _) atWordDone wordFuel (s.goto .sLoad)

/-- Every instruction is a run of micro-steps, and each of them appends one pin event at most. -/
theorem exec_extends_trace {i : Instr} {s t : State} (h : exec i s = .next t) :
    s.trace <+: t.trace := by
  cases i with
  | frame16Write | frame16Read | word32Out | raw16 | raw32 => exact transmit_extends_trace h
  | word32In =>
    obtain rfl := Host.Outcome.next.inj h
    exact runEngine_extends_trace (takeIn_quiet _) _ 1 (s.goto .wDone)
  | _ => exact runCommand_extends_trace (planOf_quiet _) ((exec_command _ rfl s).symm.trans h)

theorem runIssued_extends_trace {w : Word} {s t : State} (h : runIssued w s = .next t) :
    s.trace <+: t.trace := by
  unfold runIssued at h
  split at h
  · exact exec_extends_trace h
  · exact runCommand_extends_trace illegalPlan_quiet h

theorem engineTurn_extends_trace {s t : State} (h : engineTurn s = .next t) :
    s.trace <+: t.trace := by
  unfold engineTurn at h
  split at h
  · split at h
    · exact exec_extends_trace h
    · exact runCommand_extends_trace illegalPlan_quiet h
  · obtain rfl := Host.Outcome.next.inj h
    rw [State.takeTurn_trace]

theorem writeReg_trace (s : State) (v : Word) (r : HostReg) : (writeReg s v r).trace = s.trace := by
  cases r with
  | listData =>
    show (if s.listIdx.toNat < s.params.listMax then
      { s with list := s.list.set s.listIdx.toNat v } else s).trace = s.trace
    split <;> rfl
  | _ => rfl

theorem hostWrite_trace (s : State) (offset v : Word) : (hostWrite s offset v).trace = s.trace := by
  unfold hostWrite
  split
  · rfl
  · split
    · exact writeReg_trace s v _
    · rfl

/-- Settles O14, by the input that stands first: RESET and a host access keep the trace, and an issue
or a turn of the engine is a run of micro-steps, which extends it. -/
theorem stepOnlyAppendsPinEvents : Obligations.StepOnlyAppendsPinEvents := by
  unfold Obligations.StepOnlyAppendsPinEvents
  intro s t ht
  cases hi : s.inputs with
  | nil => exact engineTurn_extends_trace (by simpa only [step, hi] using ht)
  | cons x rest =>
    simp only [step, hi] at ht
    cases x with
    | turn => exact engineTurn_extends_trace ht
    | reset | read =>
      obtain rfl := Host.Outcome.next.inj ht
      exact List.prefix_rfl
    | write offset v =>
      dsimp only at ht
      split at ht
      · exact runIssued_extends_trace (s := { s with inputs := rest }) ht
      · obtain rfl := Host.Outcome.next.inj ht
        rw [hostWrite_trace]
    | secondAgent => cases ht

end Sys2Proof.Machine
end

section
/-! SUPPORT. The encoder beside the decoder (30_encoding.md R90 to R93, R100): a frame is its three
fields put together, and in every space decoding and encoding undo each other. -/

namespace Sys2Proof.Machine

-- Proof after proof: within the check's memory bound there is no room for the stacks of more
-- threads beside those that the tests hold. No `variable` stands here, so the option does only that.
set_option deprecated.oldSectionVars true

/-! ### Decode of encode -/

/-- A conversion word is its two halves, side B above side A (20_memory.md R69). -/
theorem sideB_append_sideA (c : Word) : sideB c ++ sideA c = c :=
  BitVec.extractLsb'_append_extractLsb'

theorem sideB_append (b a : BitVec 16) : sideB (b ++ a) = b :=
  BitVec.extractLsb'_append_eq_left

theorem sideA_append (b a : BitVec 16) : sideA (b ++ a) = a :=
  BitVec.extractLsb'_append_eq_right

/-- Settles O1, by the space of the instruction's word: a command stands in its row, a frame in its
fields, a conversion capture in its halves, and a raw word as it is. -/
theorem encodeThenDecodeGivesTheInstruction : Obligations.EncodeThenDecodeGivesTheInstruction := by
  unfold Obligations.EncodeThenDecodeGivesTheInstruction
  intro i
  cases i with
  | frame16Write a d =>
    simp [Instr.space, Instr.encode, decodeIn, decodeFrame_frameBits_write]
  | frame16Read a =>
    simp [Instr.space, Instr.encode, decodeIn, decodeFrame_frameBits_read]
  | word32Out => rfl
  | word32In b a =>
    show Except.ok (Instr.word32In (sideB (b ++ a)) (sideA (b ++ a))) = _
    rw [sideB_append, sideA_append]
  | raw16 t => simp [Instr.space, Instr.encode, decodeIn]
  | raw32 t => rfl
  | _ => rfl

/-- A command's word is issued as that command. -/
theorem decodeCmd_encode {c : Instr} (h : c.space = .hostCmd) : decodeCmd c.encode = .ok c := by
  have hdecode := encodeThenDecodeGivesTheInstruction c
  rwa [h] at hdecode

/-! ### Encode of decode -/

/-- A 16-bit word is its bit 15, its address field and its data field (R90, R91). -/
theorem frameBits_fields (f : BitVec 16) :
    frameBits (f.getLsbD 15) (frameAddr f) (frameData f) = f := by
  refine BitVec.eq_of_getLsbD_eq fun i hi => ?_
  interval_cases i <;> simp [frameBits, frameAddr, frameData]

/-- The mask of a write frame is its bit `W`. -/
theorem getLsbD_of_write_mask {f : BitVec 16} (h : f &&& 0x8000#16 = 0x8000#16) :
    f.getLsbD 15 = true := by
  simpa using congrArg (BitVec.getLsbD · 15) h

/-- The mask of a read frame is its bit `W` and its data field. -/
theorem fields_of_read_mask {f : BitVec 16} (h : f &&& 0x81FF#16 = 0x0000#16) :
    f.getLsbD 15 = false ∧ frameData f = 0#9 := by
  have hbit : ∀ i, (f &&& 0x81FF#16).getLsbD i = (0x0000#16).getLsbD i :=
    fun i => congrArg (BitVec.getLsbD · i) h
  refine ⟨by simpa using hbit 15, BitVec.eq_of_getLsbD_eq fun i hi => ?_⟩
  have := hbit i
  interval_cases i <;> simpa [frameData] using this

/-- What a 16-bit word decodes to is a frame, and the word is that frame's. -/
theorem decodeFrame_eq_ok {f : BitVec 16} {i : Instr} (h : decodeFrame f = .ok i) :
    i.space = .frameOut ∧ i.encode = f.setWidth 32 := by
  have hfields := frameBits_fields f
  unfold decodeFrame at h
  split at h
  · rename_i hmask
    obtain rfl := Except.ok.inj h
    rw [getLsbD_of_write_mask hmask] at hfields
    exact ⟨rfl, congrArg (BitVec.setWidth 32) hfields⟩
  · split at h
    · rename_i hmask
      obtain rfl := Except.ok.inj h
      obtain ⟨hbit, hdata⟩ := fields_of_read_mask hmask
      rw [hbit, hdata] at hfields
      exact ⟨rfl, congrArg (BitVec.setWidth 32) hfields⟩
    · cases h

theorem decodeConvOut_eq_ok {w : Word} {i : Instr} (h : decodeConvOut w = .ok i) :
    i = .word32Out ∧ w = 0#32 := by
  unfold decodeConvOut at h
  split at h
  · rename_i hw
    exact ⟨(Except.ok.inj h).symm, hw⟩
  · cases h

/-- Settles O2, by the space. -/
theorem decodedWordIsTheEncodedOne : Obligations.DecodedWordIsTheEncodedOne := by
  unfold Obligations.DecodedWordIsTheEncodedOne
  intro sp w i h
  cases sp with
  | hostCmd => exact decodeCmd_eq_ok h
  | frameOut => exact decodeFrame_eq_ok h
  | convOut =>
    obtain ⟨rfl, rfl⟩ := decodeConvOut_eq_ok h
    exact ⟨rfl, rfl⟩
  | convIn =>
    obtain rfl := Except.ok.inj h
    exact ⟨rfl, sideB_append_sideA w⟩
  | raw16Out | raw32Out =>
    obtain rfl := Except.ok.inj h
    exact ⟨rfl, rfl⟩

/-- Settles O3, by decoding each word. -/
theorem wordsOfTheTablesDecode : Obligations.WordsOfTheTablesDecode := by
  unfold Obligations.WordsOfTheTablesDecode
  exact ⟨by decide, by decide, by decide, by decide, by decide, by decide⟩

/-! ### The frames of the formulas (R94, R96) -/

/-- A read frame is its address field at bit 9. -/
theorem toNat_frameBits_read (a : BitVec 6) : (frameBits false a 0#9).toNat = a.toNat * 2 ^ 9 := by
  have := a.isLt
  simp [frameBits, Nat.shiftLeft_eq]
  omega

/-- Settles O4: bit by bit the formulas are the fields, and the largest field is `0x3F`. -/
theorem framesAreTheirFields : Obligations.FramesAreTheirFields := by
  unfold Obligations.FramesAreTheirFields
  intro a v
  refine ⟨writeFrame_eq_frameBits a v, readFrame_eq_frameBits a, ?_⟩
  have := (a.extractLsb' 0 6).isLt
  rw [readFrame_eq_frameBits, toNat_frameBits_read]
  omega

theorem frameAddr_writeFrame (a v : Word) : frameAddr (writeFrame a v) = a.extractLsb' 0 6 := by
  rw [writeFrame_eq_frameBits, frameAddr_frameBits]

theorem frameAddr_readFrame (a : Word) : frameAddr (readFrame a) = a.extractLsb' 0 6 := by
  rw [readFrame_eq_frameBits, frameAddr_frameBits]

theorem frameData_writeFrame (a v : Word) : frameData (writeFrame a v) = v.extractLsb' 0 9 := by
  rw [writeFrame_eq_frameBits, frameData_frameBits]

/-- Of the valid addresses only 64 has a bit above the six that are framed. -/
theorem toNat_framed_of_validAddr {a : Word} (h : validAddr a = true) (ha : a ≠ 64#32) :
    (a.extractLsb' 0 6).toNat = a.toNat := by
  have hne : a.toNat ≠ 64 := fun e => ha (BitVec.eq_of_toNat_eq e)
  rw [validAddr_iff] at h
  rw [BitVec.extractLsb'_toNat, Nat.shiftRight_zero]
  omega

/-- Settles O5: both frames carry the low six bits of the address and nothing else of it. -/
theorem framedAddressIsTheLowSixBits : Obligations.FramedAddressIsTheLowSixBits := by
  unfold Obligations.FramedAddressIsTheLowSixBits
  intro a b v
  refine ⟨frameAddr_writeFrame a v, frameAddr_readFrame a, fun hab => ?_, fun ha => ?_⟩
  · simp only [writeFrame_eq_frameBits, readFrame_eq_frameBits, hab, and_self]
  · rw [frameAddr_writeFrame, frameAddr_readFrame]
    split
    · rename_i h64
      subst h64
      exact ⟨rfl, rfl⟩
    · rename_i h64
      exact ⟨toNat_framed_of_validAddr ha h64, toNat_framed_of_validAddr ha h64⟩

end Sys2Proof.Machine
end

section
/-! SUPPORT. Captures (30_encoding.md R97, R98): the accumulator after a word bit by bit, the capture
RDREG returns, and the disposal of a conversion capture. -/

namespace Sys2Proof.Machine

-- Proof after proof: within the check's memory bound there is no room for the stacks of more
-- threads beside those that the tests hold. No `variable` stands here, so the option does only that.
set_option deprecated.oldSectionVars true

/-! ### The bits of a capture (R97) -/

/-- The answer goes in at bit 0 and every other bit moves up by one (10_state.md R32). -/
theorem getLsbD_shiftIn (acc : Word) (b : Level) {i : Nat} (hi : i < 32) :
    (shiftIn acc b).getLsbD i = if i = 0 then b else acc.getLsbD (i - 1) := by
  rw [shiftIn, BitVec.getLsbD_append]
  rcases Nat.eq_zero_or_pos i with rfl | hpos
  · simp
  · have hne : i ≠ 0 := by omega
    have hlow : ¬ i < 1 := by omega
    have hlt : i - 1 < 31 := by omega
    simp [hne, hlow, hlt]

/-- Settles O7, by induction on the number of answers: the latest is bit 0, and the ones before it
stand one bit higher than they did. -/
theorem capturedBitsStandInOrder : Obligations.CapturedBitsStandInOrder := by
  unfold Obligations.CapturedBitsStandInOrder
  intro f n
  induction n with
  | zero => simp [captured]
  | succ n ih =>
    intro i hn hi
    rw [captured, getLsbD_shiftIn _ _ hi]
    split
    · rename_i h0
      simp [h0]
    · rename_i h0
      have hle : i - 1 < n ↔ i < n + 1 := by omega
      have hindex : n - 1 - (i - 1) = n + 1 - 1 - i := by omega
      rw [ih (i - 1) (by omega) (by omega), hindex, decide_eq_decide.mpr hle]

/-! ### RDREG (42 R157, R158) -/

/-- The coming answers of `DINA` after a word: those past the ones it sampled. -/
theorem comingLevel_dina_afterWord (wide : Bool) (w : Word) (s : State) :
    (afterWord wide w s).comingLevel .dina =
      fun k => s.comingLevel .dina (bitCount wide + k) := by
  funext k
  simp [State.comingLevel, afterWord, Env.afterWord]

/-- A word from `S_LOAD`, and then its disposal (41 R131, 42 R165). -/
theorem Runs.wordDone {p : Plan} {s t : State} {wide : Bool} {w : Word} (hi : s.inputs = [])
    (h1 : s.phase = .sLoad) (hw : p.word s = (wide, w))
    (ht : p.done ((afterWord wide w s).goto .wDone) = t) :
    Runs p (wordSteps wide s.cfg.dual + 1) s t :=
  (Runs.word hi h1 rfl hw).trans (Runs.phase hi (by simp) (by simp) ht)

/-- The state at the `S_LOAD` of word `k` of its command. -/
def State.atWord (s : State) (k : Word) : State := { s with wordIdx := k, phase := .sLoad }

/-- A command that stands at its `FINISH` has one micro-step to go (30 R102). -/
theorem runCommand_of_runs_finish {p : Plan} {w : Word} {s t : State} {m : Nat}
    (hr : s.run = false) (h : Runs p m (s.issue w) t) (hi : t.inputs = []) (ht : t.phase = .finish)
    (hm : m < 400) : runCommand p w s = .next t.finish :=
  have hend : Runs p 1 t t.finish :=
    Runs.phase hi (by simp [ht]) (by simp [ht]) (by simp [phaseStep, ht])
  runCommand_of_runs hr (h.trans hend) rfl (by omega)

/-- RDREG of a valid address, from its check to its `FINISH`: the first capture discarded, the
second delivered (42 R157, R165). -/
theorem rdReg_runs {s : State} {w : Word} (hi : s.inputs = []) (ho : s.cfg.isOpen = true)
    (ha : validAddr s.args.addr = true) (hw : (readFrame s.args.addr).setWidth 32 = w) :
    Runs rdRegPlan (1 + (wordSteps false s.cfg.dual + 1) + (wordSteps false s.cfg.dual + 1))
      (s.issue 0x21#32)
      { (afterWord false w (afterWord false w s)).issue 0x21#32 with
        phase := .finish, wordIdx := 1#32
        res := [⟨captured ((afterWord false w s).comingLevel .dina) 16, 0#32⟩] } := by
  have hcheck : Runs rdRegPlan 1 (s.issue 0x21#32) ((s.issue 0x21#32).atWord 0#32) :=
    Runs.check hi (by simp [rdRegPlan, checkAddr, ho, latched, ha, State.atWord])
  have hdiscard : Runs rdRegPlan (wordSteps false s.cfg.dual + 1) ((s.issue 0x21#32).atWord 0#32)
      (((afterWord false w s).issue 0x21#32).atWord 1#32) :=
    Runs.wordDone hi rfl (congrArg (Prod.mk false) hw) rfl
  refine (hcheck.trans hdiscard).trans ?_
  rw [← capture16_captured]
  exact Runs.wordDone hi rfl (congrArg (Prod.mk false) hw) rfl

/-- RDREG of a valid address in an open, idle block: what it leaves, written out (42 R157, R163). -/
theorem exec_rdReg_of_valid {s : State} (hr : s.run = false) (hi : s.inputs = [])
    (ho : s.cfg.isOpen = true) (ha : validAddr s.args.addr = true) :
    exec .rdReg s = .next
      { afterWord false ((readFrame s.args.addr).setWidth 32)
          (afterWord false ((readFrame s.args.addr).setWidth 32) s) with
        run := false, phase := .idle, err := 0#3, wordIdx := 1#32
        lat := latched 0x21#32 s.args
        res := [⟨captured (fun k => s.comingLevel .dina (16 + k)) 16, 0#32⟩] } := by
  have hsteps := wordSteps_le false s.cfg.dual
  have hsecond : (afterWord false ((readFrame s.args.addr).setWidth 32) s).comingLevel .dina =
      fun k => s.comingLevel .dina (16 + k) := comingLevel_dina_afterWord false _ s
  rw [exec_command .rdReg rfl, ← hsecond]
  exact runCommand_of_runs_finish hr (rdReg_runs hi ho ha rfl) hi rfl (by omega)

/-- A chip that answers 16 bits with those of a word is captured as that word (R97, R98). -/
theorem captured_of_bits {f : Nat → Level} {x : BitVec 16}
    (h : ∀ k, k < 16 → f k = x.getLsbD (15 - k)) : captured f 16 = x.setWidth 32 := by
  refine BitVec.eq_of_getLsbD_eq fun i hi => ?_
  rw [capturedBitsStandInOrder f 16 i (by decide) hi]
  by_cases hlt : i < 16
  · have hindex : 15 - (16 - 1 - i) = i := by omega
    rw [h _ (by omega), hindex]
    simp [hlt, hi]
  · simp [hlt, BitVec.getLsbD_of_ge x i (by omega)]

/-- The data field of a write frame, widened, is the value under the 9-bit mask (R95). -/
theorem frameData_writeFrame_widened (a v : Word) :
    ((frameData (writeFrame a v)).setWidth 16).setWidth 32 = v &&& 0x1FF#32 := by
  rw [frameData_writeFrame]
  refine BitVec.eq_of_getLsbD_eq fun i hi => ?_
  interval_cases i <;> simp

/-- Settles O29: RDREG returns its second capture, and that capture is the word the chip answers. -/
theorem maskingRoundTrip : Obligations.MaskingRoundTrip := by
  unfold Obligations.MaskingRoundTrip
  intro s v hr hi ho ha hecho
  refine ⟨_, exec_rdReg_of_valid hr hi ho ha, ?_⟩
  rw [captured_of_bits hecho, frameData_writeFrame_widened]

/-! ### The disposal of a conversion capture (42 R165) -/

/-- Whether or not the count is reached, the capture is delivered and the word counted. -/
theorem deliverConversion_eq (c : Word) (s : State) :
    deliverConversion c s =
      { s.deliver c s.sh.accB with
        wordIdx := s.wordIdx + 1#32
        phase := if s.wordIdx + 1#32 = s.lat.cnt then .finish else .sLoad } := by
  unfold deliverConversion
  by_cases hlast : s.wordIdx + 1#32 = s.lat.cnt
  · simp only [if_pos hlast]
  · simp only [if_neg hlast]

/-- The disposal of a word is one micro-step (41 R132). -/
theorem takeIn_eq {done : State → State} {s : State} (hi : s.inputs = []) :
    takeIn done s = .next (done (s.goto .wDone)) :=
  congrArg Host.Outcome.next (runEngine_phase hi rfl nofun)

/-- Settles O38: the one micro-step `W_DONE` of RDCONV delivers the capture and counts the word. -/
theorem conversionCaptureIsDelivered : Obligations.ConversionCaptureIsDelivered := by
  unfold Obligations.ConversionCaptureIsDelivered
  intro s b a hi
  refine ⟨?_, sideA_append b a, sideB_append b a⟩
  have hdone : exec (.word32In b a) s = .next (deliverConversion (b ++ a) (s.goto .wDone)) :=
    takeIn_eq hi
  rw [hdone, deliverConversion_eq]
  rfl

end Sys2Proof.Machine
end

section
/-! SUPPORT. The listing lines (30_encoding.md R107): a host write puts its value into its register,
a list is written entry by entry, and the write to `CMD` at the end of a line issues its command. -/

namespace Sys2Proof.Machine

-- Proof after proof: within the check's memory bound there is no room for the stacks of more
-- threads beside those that the tests hold. No `variable` stands here, so the option does only that.
set_option deprecated.oldSectionVars true

/-- Settles O8: the write is an issue, and the decoder of the space `hostCmd` is that of commands. -/
theorem stepRunsTheIssuedCommand : Obligations.StepRunsTheIssuedCommand := by
  unfold Obligations.StepRunsTheIssuedCommand
  intro s w i rest hr hi hd
  exact step_issues hr hi hd

/-! ### The writes of a line -/

/-- A write to a register other than `CMD`, in an idle block, is one step. -/
theorem step_writeReg {s : State} {r : HostReg} {v : Word} {rest : List Input}
    (hr : s.run = false) (hi : s.inputs = .write r.offset v :: rest) (hcmd : r ≠ .cmd) :
    step s = .next (writeReg { s with inputs := rest } v r) := by
  have hother : hostReg r.offset ≠ some .cmd := by simpa using hcmd
  rw [step_writes hi hother]
  simp [hostWrite, hr]

/-- A last write, to `CMD`, is its command executed (R101). -/
theorem core_run_issue {s : State} {c : Instr} (hc : c.space = .hostCmd) (hr : s.run = false)
    (hi : s.inputs = [.write 0#32 c.encode]) :
    Sys2Proof.core.run 1 s = exec c { s with inputs := [] } :=
  core_run_one (step_issues hr hi (decodeCmd_encode hc))

theorem writeReg_run (s : State) (v : Word) (r : HostReg) : (writeReg s v r).run = s.run := by
  cases r with
  | listData =>
    simp only [writeReg]
    split <;> rfl
  | _ => rfl

/-- A host write does not look at the schedule and does not change it. -/
theorem writeReg_withInputs (s : State) (v : Word) (r : HostReg) (l : List Input) :
    writeReg { s with inputs := l } v r = { writeReg s v r with inputs := l } := by
  cases r with
  | listData =>
    simp only [writeReg]
    split <;> rfl
  | _ => rfl

/-- A line of one operand: its register is written, then its command is issued (R107). -/
theorem core_run_operand (c : Instr) (r : HostReg) (v : Word) {s : State}
    (hc : c.space = .hostCmd) (hr : s.run = false)
    (hi : s.inputs = [.write r.offset v, .write 0#32 c.encode]) (hcmd : r ≠ .cmd) :
    Sys2Proof.core.run 2 s = exec c { writeReg s v r with inputs := [] } := by
  have hstep := step_writeReg hr hi hcmd
  rw [writeReg_withInputs] at hstep
  exact (core_run_succ hstep).trans (core_run_issue hc ((writeReg_run s v r).trans hr) rfl)

/-- `ARG_OPEN` put together from the operands of OPEN (40 R120). -/
def openOperand (bus : BitVec 1) (dev : BitVec 2) (dual diag : Bool) : BitVec 5 :=
  BitVec.ofBool diag ++ BitVec.ofBool dual ++ dev ++ bus

theorem openOperand_fields (bus : BitVec 1) (dev : BitVec 2) (dual diag : Bool) :
    opnBus (openOperand bus dev dual diag) = bus ∧ opnDev (openOperand bus dev dual diag) = dev ∧
      opnDual (openOperand bus dev dual diag) = dual ∧
      opnDiag (openOperand bus dev dual diag) = diag := by
  revert bus dev dual diag
  decide

/-- `ARG_OPEN` takes in the five bits that a line writes. -/
theorem writeReg_argOpen (s : State) (o : BitVec 5) :
    writeReg s (o.setWidth 32) .argOpen = { s with args := { s.args with opn := o } } := by
  simp [writeReg]

/-- Settles O54: the writes before the last put the operands into their registers, and the last one
issues the command. -/
theorem commandLinesIssueTheirCommands : Obligations.CommandLinesIssueTheirCommands := by
  unfold Obligations.CommandLinesIssueTheirCommands
  intro s hr
  refine ⟨fun bus dev dual diag hi => ?_, fun hi => ?_, fun o hi => ?_, fun w hi => ?_,
    fun w hi => ?_, fun a v hi => ?_, fun a hi => ?_, fun n hi => ?_⟩
  · obtain ⟨hbus, hdev, hdual, hdiag⟩ := openOperand_fields bus dev dual diag
    refine ⟨openOperand bus dev dual diag, hbus, hdev, hdual, hdiag, ?_⟩
    rw [core_run_operand .openHandle .argOpen ((openOperand bus dev dual diag).setWidth 32) rfl hr
      hi nofun, writeReg_argOpen]
  · exact core_run_issue rfl hr hi
  · rw [core_run_operand .setDiag .argOpen _ rfl hr hi nofun, writeReg_argOpen]
  · exact core_run_operand .shift16 .argTx w rfl hr hi nofun
  · exact core_run_operand .shift32 .argTx w rfl hr hi nofun
  · exact (core_run_succ (step_writeReg (r := .argAddr) hr hi nofun)).trans
      (core_run_operand .wrReg .argValue v rfl hr rfl nofun)
  · exact core_run_operand .rdReg .argAddr a rfl hr hi nofun
  · exact core_run_operand .rdConv .argCount n rfl hr hi nofun

/-! ### The list of RDREGS -/

/-- The state after a list has been written: `LIST` is `l`, `LISTIDX` the last index written, and
`rest` is to come. -/
def State.listed (s : State) (l : List Word) (k : Word) (rest : List Input) : State :=
  { s with list := l, listIdx := k, inputs := rest }

/-- The two writes of a list entry put it at its index (10 R42). -/
theorem core_run_entry {s : State} {k : Nat} {a : Word} {rest : List Input} (hr : s.run = false)
    (hi : s.inputs = .write 0x34#32 (BitVec.ofNat 32 k) :: .write 0x38#32 a :: rest)
    (hk : k < s.params.listMax) (hmax : s.params.listMax < 2 ^ 32) :
    Sys2Proof.core.run 2 s = .next (s.listed (s.list.set k a) (BitVec.ofNat 32 k) rest) := by
  have hindex : (BitVec.ofNat 32 k).toNat = k := Nat.mod_eq_of_lt (by omega)
  have hentry : writeReg (s.listed s.list (BitVec.ofNat 32 k) rest) a .listData =
      s.listed (s.list.set k a) (BitVec.ofNat 32 k) rest := by
    simp [writeReg, State.listed, hindex, hk]
  rw [← hentry]
  exact (core_run_succ (step_writeReg (r := .listIdx) hr hi nofun)).trans
    (core_run_succ (step_writeReg (r := .listData) hr rfl nofun))

/-- Setting entry `k` and going on at `k + 1` is the same list as going on at `k` with that entry in
front. -/
theorem take_set_append_drop {l : List Word} {k : Nat} (a : Word) (addrs : List Word)
    (hk : k < l.length) :
    (l.set k a).take (k + 1) ++ addrs ++ (l.set k a).drop (k + 1 + addrs.length) =
      l.take k ++ a :: addrs ++ l.drop (k + (addrs.length + 1)) := by
  have htake : (l.set k a).take (k + 1) = l.take k ++ [a] := by
    rw [List.take_succ_eq_append_getElem (by simpa using hk), List.take_set_of_le (Nat.le_refl k),
      List.getElem_set_self]
  have hdrop : (l.set k a).drop (k + 1 + addrs.length) = l.drop (k + (addrs.length + 1)) := by
    rw [List.drop_set_of_lt (by omega), Nat.add_assoc, Nat.add_comm 1]
  simp [htake, hdrop]

/-- The writes of a list put its entries at `k`, `k + 1`, … in order and leave the entries before and
after them (R107). -/
theorem core_run_listWrites (addrs : List Word) {s : State} {k : Nat} {rest : List Input}
    (hr : s.run = false) (hi : s.inputs = listWrites k addrs ++ rest)
    (hk : k + addrs.length ≤ s.params.listMax) (hlen : s.list.length = s.params.listMax)
    (hmax : s.params.listMax < 2 ^ 32) :
    ∃ x, Sys2Proof.core.run (2 * addrs.length) s = .next
      (s.listed (s.list.take k ++ addrs ++ s.list.drop (k + addrs.length)) x rest) := by
  induction addrs generalizing s k with
  | nil =>
    refine ⟨s.listIdx, congrArg Host.Outcome.next ?_⟩
    rw [List.append_nil, List.length_nil, Nat.add_zero, List.take_append_drop,
      show rest = s.inputs from hi.symm]
    rfl
  | cons a addrs ih =>
    rw [List.length_cons] at hk
    have hfirst : s.inputs = .write 0x34#32 (BitVec.ofNat 32 k) :: .write 0x38#32 a ::
        (listWrites (k + 1) addrs ++ rest) := hi
    have hentry := core_run_entry hr hfirst (by omega) hmax
    obtain ⟨x, hx⟩ := ih (s := s.listed (s.list.set k a) (BitVec.ofNat 32 k) _) (k := k + 1) hr rfl
      (by show k + 1 + addrs.length ≤ s.params.listMax; omega)
      ((List.length_set ..).trans hlen) hmax
    refine ⟨x, ?_⟩
    have hlt : k < s.list.length := by omega
    rw [List.length_cons, ← take_set_append_drop a addrs hlt, Nat.mul_succ, Nat.add_comm]
    exact (core_run_add hentry).trans hx

/-- Settles O55: the list is written from index 0 on, then its length, and the last write issues the
command. -/
theorem rdRegsLineIssuesItsCommand : Obligations.RdRegsLineIssuesItsCommand := by
  unfold Obligations.RdRegsLineIssuesItsCommand
  intro s addrs hr hi hfit hlen hmax
  obtain ⟨x, hx⟩ := core_run_listWrites addrs hr hi (by omega) hlen hmax
  refine ⟨_, (core_run_add hx).trans (core_run_operand .rdRegs .argCount _ rfl hr rfl nofun),
    ?_, ?_, hr, rfl, rfl, rfl, rfl⟩
  · show s.list.take 0 ++ addrs ++ s.list.drop (0 + addrs.length) = _
    rw [List.take_zero, List.nil_append, Nat.zero_add]
  · exact Nat.mod_eq_of_lt (by omega)

end Sys2Proof.Machine
end

section
/-! SUPPORT. The handle commands (40_handle.md): OPEN phase by phase, from its check over `PinInit`
and the set-up to the commit, and CLOSE and SETDIAG, which have one phase of their own at most. -/

namespace Sys2Proof.Machine

-- Proof after proof: within the check's memory bound there is no room for the stacks of more
-- threads beside those that the tests hold. No `variable` stands here: the option does only that.
set_option deprecated.oldSectionVars true

/-! ### The check of OPEN (R120, R126) -/

theorem checkOpen_of_legal {s : State} (ho : s.cfg.isOpen = false)
    (hpair : legalPair (opnBus s.lat.opn) (opnDev s.lat.opn) = true) :
    checkOpen s = s.goto .oInit := by
  simp [checkOpen, ho, hpair]

theorem checkOpen_of_illegal {s : State} (ho : s.cfg.isOpen = false)
    (hpair : legalPair (opnBus s.lat.opn) (opnDev s.lat.opn) = false) :
    checkOpen s = s.reject .config := by
  simp [checkOpen, ho, hpair]

/-- The eight pairs that `OPN` can express, three of them illegal (R126). -/
theorem legalPair_eq_false_iff (b : BitVec 1) (d : BitVec 2) :
    legalPair b d = false ↔ (b = 0#1 ∧ d = 2#2) ∨ (b = 0#1 ∧ d = 3#2) ∨ (b = 1#1 ∧ d = 3#2) := by
  revert b d
  decide

/-! ### OPEN past its check (R120, R121) -/

/-- A ready `PinInit` leads to the first set-up event. -/
theorem Runs.initReady {s : State} (hi : s.inputs = []) (hp : s.phase = .oInit)
    (hn : s.nextReady = true) :
    Runs openPlan 1 s { s.pinInit with ostep := 0, phase := .oSetup } :=
  Runs.phase hi (by simp [hp]) (by simp [hp]) (by simp [phaseStep, hp, phaseInit, hn])

/-- OPEN of a legal pair with `PinInit` ready: what it leaves, written out. -/
theorem exec_openHandle_of_ready {s : State} (hr : s.run = false) (hi : s.inputs = [])
    (ho : s.cfg.isOpen = false)
    (hpair : legalPair (opnBus s.args.opn) (opnDev s.args.opn) = true)
    (hn : s.nextReady = true) :
    exec .openHandle s = .next
      { s with
        run := false, phase := .idle, err := 0#3, res := [], ostep := 10
        lat := latched 0x01#32 s.args
        cfg := openedCfg s.args.opn
        out := idlePins
        dir := openedDirections (opnDual s.args.opn) s.dir.dinb
        env := { s.env with init := s.env.init.drop1 }
        trace := s.trace ++ [.init true] ++ setupEvents (opnDual s.args.opn) } := by
  have hcheck : Runs openPlan 1 (s.issue 0x01#32) ((s.issue 0x01#32).goto .oInit) :=
    Runs.check hi (checkOpen_of_legal ho hpair)
  have hinit : Runs openPlan 1 ((s.issue 0x01#32).goto .oInit)
      { ((s.issue 0x01#32).goto .oInit).pinInit with ostep := 0, phase := .oSetup } :=
    Runs.initReady hi rfl hn
  have hsetup := Runs.setup
    (s := { ((s.issue 0x01#32).goto .oInit).pinInit with ostep := 0, phase := .oSetup }) hi rfl rfl
  rw [exec_command .openHandle rfl, ← hn]
  exact runCommand_of_runs_finish hr ((hcheck.trans hinit).trans hsetup) hi rfl (by omega)

/-- OPEN of a legal pair with `PinInit` failing: what it leaves, written out. -/
theorem exec_openHandle_of_initFails {s : State} (hr : s.run = false) (hi : s.inputs = [])
    (ho : s.cfg.isOpen = false)
    (hpair : legalPair (opnBus s.args.opn) (opnDev s.args.opn) = true)
    (hn : s.nextReady = false) :
    exec .openHandle s = .next
      { rejectedFrom s 0x01#32 .init with
        env := { s.env with init := s.env.init.drop1 }, trace := s.trace ++ [.init false] } := by
  rw [exec_command .openHandle rfl, ← hn]
  exact runOpen_initFails hr hi (checkOpen_of_legal ho hpair) hn

/-- Settles O15: check, `PinInit`, set-up and commit, one after another. The pins resolve through
the operands in `O_SETUP`, and through the handle, which holds the same pair, after the commit. -/
theorem openCompletes : Obligations.OpenCompletes := by
  unfold Obligations.OpenCompletes
  refine ⟨fun s hr hi ho hpair hn => ?_, fun s hp => State.pinId_setup hp⟩
  have hopen := exec_openHandle_of_ready hr hi ho hpair hn
  refine ⟨hopen, fun t ht => ?_⟩
  obtain rfl := Host.Outcome.next.inj (hopen.symm.trans ht)
  exact State.pinId_handle nofun

/-- Settles O16: the second micro-step ends OPEN, after its one pin event. -/
theorem openFailsAtPinInit : Obligations.OpenFailsAtPinInit := by
  unfold Obligations.OpenFailsAtPinInit
  intro s hr hi ho hpair hn
  exact exec_openHandle_of_initFails hr hi ho hpair hn

/-- Settles O17: an illegal pair is rejected in the check; a legal one ends with `ERR` 0 or 2, as
`PinInit` answers. -/
theorem openRejectsIllegalPairs : Obligations.OpenRejectsIllegalPairs := by
  unfold Obligations.OpenRejectsIllegalPairs
  refine ⟨legalPair_eq_false_iff, fun s hr hi ho => ⟨fun hpair => ?_, fun hpair => ?_⟩⟩
  · rw [exec_command .openHandle rfl]
    exact runCommand_rejected hr hi (checkOpen_of_illegal ho hpair)
  · cases hn : s.nextReady with
    | true => exact ⟨_, exec_openHandle_of_ready hr hi ho hpair hn, rfl, nofun⟩
    | false => exact ⟨_, exec_openHandle_of_initFails hr hi ho hpair hn, rfl, nofun⟩

/-! ### CLOSE and SETDIAG (R122, R124) -/

/-- Settles O19: the check leads to the one phase that terminates the pins and releases the
handle. -/
theorem closeCompletes : Obligations.CloseCompletes := by
  unfold Obligations.CloseCompletes
  intro s hr hi ho
  have hcheck : Runs closePlan 1 (s.issue 0x02#32) ((s.issue 0x02#32).goto .cTerm) :=
    Runs.check hi (if_pos ho)
  have hterm : Runs closePlan 1 ((s.issue 0x02#32).goto .cTerm)
      (phaseTerm ((s.issue 0x02#32).goto .cTerm)) :=
    Runs.phase hi (by simp) (by simp) rfl
  rw [exec_command .closeHandle rfl]
  exact runCommand_of_runs_finish hr (hcheck.trans hterm) hi rfl (by omega)

/-- Settles O20: the check does all of it, and leads to the end. -/
theorem setDiagCompletes : Obligations.SetDiagCompletes := by
  unfold Obligations.SetDiagCompletes
  intro s hr hi ho
  have hcheck := Runs.check (p := setDiagPlan) (w := 0x03#32) hi (if_pos ho)
  rw [exec_command .setDiag rfl]
  exact runCommand_of_runs_finish hr hcheck hi rfl (by omega)

end Sys2Proof.Machine
end

section
/-! SUPPORT. The diagnostics flag (40_handle.md R125): every micro-step leads from states that
differ in `CFG.DIAG` alone to such states, and so does every run of them. -/

namespace Sys2Proof.Machine

-- Proof after proof: within the check's memory bound there is no room for the stacks of more
-- threads beside those that the tests hold. No `variable` stands here: the option does only that.
set_option deprecated.oldSectionVars true

/-- `t` is `s` but for the diagnostics flag. -/
def SameButDiag (s t : State) : Prop := ∃ b, t = s.withDiag b

/-- Two branches taken alike (the two tests read the same registers). -/
theorem sameButDiag_ite {c : Prop} {i j : Decidable c} {s s' t t' : State}
    (hthen : SameButDiag s t) (helse : SameButDiag s' t') :
    SameButDiag (@ite State c i s s') (@ite State c j t t') := by
  by_cases hc : c
  · rwa [if_pos hc, if_pos hc]
  · rwa [if_neg hc, if_neg hc]

/-- A plan none of whose parts reads the diagnostics flag. -/
structure Plan.IgnoresDiag (p : Plan) : Prop where
  check : ∀ s b, SameButDiag (p.check s) (p.check (s.withDiag b))
  afterPoll : ∀ s b, SameButDiag (p.afterPoll s) (p.afterPoll (s.withDiag b))
  word : ∀ s b, p.word (s.withDiag b) = p.word s
  done : ∀ s b, SameButDiag (p.done s) (p.done (s.withDiag b))

/-! ### A command's own part -/

theorem checkOpen_withDiag (s : State) (b : Bool) :
    SameButDiag (checkOpen s) (checkOpen (s.withDiag b)) :=
  sameButDiag_ite ⟨b, rfl⟩ (sameButDiag_ite ⟨b, rfl⟩ ⟨b, rfl⟩)

/-- SETDIAG writes the flag and does not read it (R124). -/
theorem checkSetDiag_withDiag (s : State) (b : Bool) :
    SameButDiag (checkSetDiag s) (checkSetDiag (s.withDiag b)) :=
  sameButDiag_ite ⟨opnDiag s.lat.opn, rfl⟩ ⟨b, rfl⟩

theorem checkAddr_withDiag (first : Phase) (s : State) (b : Bool) :
    SameButDiag (checkAddr first s) (checkAddr first (s.withDiag b)) :=
  sameButDiag_ite (sameButDiag_ite ⟨b, rfl⟩ ⟨b, rfl⟩) ⟨b, rfl⟩

theorem startElement_withDiag (s : State) (b : Bool) :
    SameButDiag (startElement s) (startElement (s.withDiag b)) :=
  sameButDiag_ite ⟨b, rfl⟩ ⟨b, rfl⟩

theorem checkRdRegs_withDiag (s : State) (b : Bool) :
    SameButDiag (checkRdRegs s) (checkRdRegs (s.withDiag b)) := by
  refine sameButDiag_ite (sameButDiag_ite ⟨b, rfl⟩ (sameButDiag_ite ⟨b, rfl⟩ ?_)) ⟨b, rfl⟩
  exact sameButDiag_ite ⟨b, rfl⟩ (startElement_withDiag { s with wordIdx := 0#32 } b)

theorem checkRdConv_withDiag (s : State) (b : Bool) :
    SameButDiag (checkRdConv s) (checkRdConv (s.withDiag b)) :=
  sameButDiag_ite (sameButDiag_ite ⟨b, rfl⟩ ⟨b, rfl⟩) ⟨b, rfl⟩

theorem doneRdRegs_withDiag (s : State) (b : Bool) :
    SameButDiag (doneRdRegs s) (doneRdRegs (s.withDiag b)) := by
  refine sameButDiag_ite ⟨b, rfl⟩ (sameButDiag_ite ⟨b, rfl⟩ ?_)
  exact startElement_withDiag
    { s.deliver (capture16 s.sh.accA) 0#32 with wordIdx := s.wordIdx + 1#32 } b

theorem deliverConversion_withDiag (c : Word) (s : State) (b : Bool) :
    SameButDiag (deliverConversion c s) (deliverConversion c (s.withDiag b)) :=
  sameButDiag_ite ⟨b, rfl⟩ ⟨b, rfl⟩

theorem planOf_check_withDiag (c : Instr) (s : State) (b : Bool) :
    SameButDiag ((planOf c).check s) ((planOf c).check (s.withDiag b)) := by
  cases c with
  | openHandle => exact checkOpen_withDiag s b
  | setDiag => exact checkSetDiag_withDiag s b
  | closeHandle | shift16 | shift32 => exact sameButDiag_ite ⟨b, rfl⟩ ⟨b, rfl⟩
  | wrReg | rdReg => exact checkAddr_withDiag _ s b
  | rdRegs => exact checkRdRegs_withDiag s b
  | rdConv => exact checkRdConv_withDiag s b
  | _ => exact ⟨b, rfl⟩

theorem planOf_done_withDiag (c : Instr) (s : State) (b : Bool) :
    SameButDiag ((planOf c).done s) ((planOf c).done (s.withDiag b)) := by
  cases c with
  | rdReg => exact sameButDiag_ite ⟨b, rfl⟩ ⟨b, rfl⟩
  | rdRegs => exact doneRdRegs_withDiag s b
  | rdConv => exact deliverConversion_withDiag _ s b
  | _ => exact ⟨b, rfl⟩

/-- No command's own part reads the flag. -/
theorem planOf_ignoresDiag (c : Instr) : (planOf c).IgnoresDiag where
  check := planOf_check_withDiag c
  afterPoll s b := by
    cases c with
    | rdConv => exact sameButDiag_ite ⟨b, rfl⟩ ⟨b, rfl⟩
    | _ => exact ⟨b, rfl⟩
  word s b := by cases c <;> rfl
  done := planOf_done_withDiag c

/-- A word of the wire is the same whatever the flag. -/
theorem wordPlan_ignoresDiag (wide : Bool) (w : Word) :
    { Plan.none with word := fun _ => (wide, w) }.IgnoresDiag where
  check _ b := ⟨b, rfl⟩
  afterPoll _ b := ⟨b, rfl⟩
  word _ _ := rfl
  done _ b := ⟨b, rfl⟩

theorem takeIn_ignoresDiag (c : Word) :
    { Plan.none with done := deliverConversion c }.IgnoresDiag where
  check _ b := ⟨b, rfl⟩
  afterPoll _ b := ⟨b, rfl⟩
  word _ _ := rfl
  done := deliverConversion_withDiag c

/-! ### One micro-step -/

theorem setupEvent_withDiag (k : Nat) (d : Bool) (s : State) (b : Bool) :
    setupEvent k d (s.withDiag b) = (setupEvent k d s).withDiag b := by
  unfold setupEvent
  split <;> (try split) <;> rfl

/-- OPEN overwrites the flag with its operand at the commit, and does not read it (R120). -/
theorem phaseSetup_withDiag (s : State) (b : Bool) :
    SameButDiag (phaseSetup s) (phaseSetup (s.withDiag b)) := by
  have hevent : ∀ k, setupEvent k (opnDual s.lat.opn) (s.withDiag b) =
      (setupEvent k (opnDual s.lat.opn) s).withDiag b :=
    fun k => setupEvent_withDiag k _ s b
  refine sameButDiag_ite ⟨opnDiag s.lat.opn, ?_⟩ ⟨b, ?_⟩
  · exact congrArg (fun t : State =>
      { t with cfg := openedCfg s.lat.opn, phase := .finish }) (hevent 10)
  · exact congrArg (fun t : State => { t with ostep := s.ostep + 1 }) (hevent s.ostep.val)

/-- Every phase leads from states that differ in the flag alone to such states (R125). -/
theorem phaseStep_withDiag {p : Plan} (hp : p.IgnoresDiag) (s : State) (b : Bool) :
    SameButDiag (phaseStep p s) (phaseStep p (s.withDiag b)) := by
  unfold phaseStep
  rw [show (s.withDiag b).phase = s.phase from rfl]
  cases s.phase with
  | check => exact hp.check s b
  | oInit => exact sameButDiag_ite ⟨b, rfl⟩ ⟨b, rfl⟩
  | oSetup => exact phaseSetup_withDiag s b
  | hPoll => exact sameButDiag_ite (hp.afterPoll (s.pinRead .busy) b) ⟨b, rfl⟩
  | sLoad =>
    dsimp only
    rw [hp.word s b]
    exact ⟨b, rfl⟩
  | sClkHi => exact sameButDiag_ite ⟨b, rfl⟩ ⟨b, rfl⟩
  | wDone => exact hp.done s b
  | _ => exact ⟨b, rfl⟩

theorem takeTurn_withDiag (s : State) (b : Bool) :
    (s.withDiag b).takeTurn = s.takeTurn.withDiag b := by
  unfold State.takeTurn
  rw [show (s.withDiag b).inputs = s.inputs from rfl]
  split <;> rfl

/-! ### A whole instruction -/

/-- Runs from states that differ in the flag alone end in such states. -/
theorem runEngine_sameButDiag {p : Plan} (hp : p.IgnoresDiag) {stop : State → Bool}
    (hstop : ∀ s b, stop (s.withDiag b) = stop s) (n : Nat) {s t : State} (h : SameButDiag s t) :
    SameButDiag (runEngine stop p n s) (runEngine stop p n t) := by
  induction n generalizing s t with
  | zero => exact h
  | succ n ih =>
    obtain ⟨b, rfl⟩ := h
    have hstep : SameButDiag (microStep p s) (microStep p (s.withDiag b)) := by
      unfold microStep
      rw [takeTurn_withDiag]
      exact phaseStep_withDiag hp s.takeTurn b
    have hphase : (microStep p (s.withDiag b)).phase = (microStep p s).phase := by
      obtain ⟨c, hc⟩ := hstep
      rw [hc]
      rfl
    unfold runEngine
    rw [hstop, hphase]
    exact sameButDiag_ite ⟨b, rfl⟩ (sameButDiag_ite hstep (ih hstep))

/-- A command goes on alike, or is issued alike, whatever the flag. -/
theorem exec_command_sameButDiag {c : Instr} (hspace : c.space = .hostCmd) (s : State) (b : Bool) :
    ∃ t u, exec c s = .next t ∧ exec c (s.withDiag b) = .next u ∧ SameButDiag t u := by
  have hbegin : SameButDiag (s.begin c.encode) ((s.withDiag b).begin c.encode) :=
    sameButDiag_ite ⟨b, rfl⟩ ⟨b, rfl⟩
  have hfuel : commandFuel ((s.withDiag b).begin c.encode) = commandFuel (s.begin c.encode) := by
    obtain ⟨d, hd⟩ := hbegin
    rw [hd]
    rfl
  refine ⟨_, _, exec_command c hspace s, exec_command c hspace _, ?_⟩
  rw [hfuel]
  exact runEngine_sameButDiag (planOf_ignoresDiag c) (fun _ _ => rfl) _ hbegin

/-- An instruction answers states that differ in the flag alone, each from its own. -/
theorem exec_sameButDiag (i : Instr) (s : State) (b : Bool) :
    ∃ t u, exec i s = .next t ∧ exec i (s.withDiag b) = .next u ∧ SameButDiag t u := by
  cases i with
  | frame16Write | frame16Read | word32Out | raw16 | raw32 =>
    exact ⟨_, _, rfl, rfl,
      runEngine_sameButDiag (wordPlan_ignoresDiag _ _) (fun _ _ => rfl) _ ⟨b, rfl⟩⟩
  | word32In =>
    exact ⟨_, _, rfl, rfl,
      runEngine_sameButDiag (takeIn_ignoresDiag _) (fun _ _ => rfl) _ ⟨b, rfl⟩⟩
  | _ => exact exec_command_sameButDiag rfl s b

/-- Settles O58: no phase of any instruction reads the flag, so the two runs stay the same but for
it. -/
theorem diagnosticsFlagAffectsNothing : Obligations.DiagnosticsFlagAffectsNothing := by
  unfold Obligations.DiagnosticsFlagAffectsNothing
  intro s t u i b ht hu
  obtain ⟨t', u', ht', hu', d, hd⟩ := exec_sameButDiag i s b
  obtain rfl := Host.Outcome.next.inj (ht'.symm.trans ht)
  obtain rfl := Host.Outcome.next.inj (hu'.symm.trans hu)
  rw [hd]
  rfl

end Sys2Proof.Machine
end

section
/-! SUPPORT. The transport (41_transport.md): a word of the wire put through `ShiftWord`, the pin
events it costs, and the commands SHIFT16 and SHIFT32, which shift one word and deliver its
captures. -/

namespace Sys2Proof.Machine

-- Proof after proof: within the check's memory bound there is no room for the stacks of more
-- threads beside those that the tests hold. No `variable` stands here: the option does only that.
set_option deprecated.oldSectionVars true

/-! ### A word of the wire (R131) -/

/-- The transport of a word ends at `W_DONE` with the word shifted: its bound is more than the
micro-steps of a word, and the engine stands still once it is there. -/
theorem transmit_eq {s : State} (hi : s.inputs = []) (wide : Bool) (w : Word) :
    transmit wide w s = .next ((afterWord wide w s).goto .wDone) := by
  have hfuel : wordFuel = wordFuel - wordSteps wide s.cfg.dual + wordSteps wide s.cfg.dual := by
    have hle := wordSteps_le wide s.cfg.dual
    unfold wordFuel
    omega
  have hword := runEngine_word atWordDone_stopsOutsideWords
    { Plan.none with word := fun _ => (wide, w) } (s.goto .sLoad)
    (wordFuel - wordSteps wide s.cfg.dual) hi rfl
  rw [transmit, hfuel]
  refine congrArg Host.Outcome.next (hword.trans ?_)
  rw [runEngine_stopped _ rfl, shiftWord_eq]
  rfl

/-- Settles O21: each word of the wire is its own bits put through the transport. -/
theorem wireWordsAreShiftedOut : Obligations.WireWordsAreShiftedOut := by
  unfold Obligations.WireWordsAreShiftedOut
  exact fun s hi =>
    ⟨fun _ _ => transmit_eq hi false _, fun _ => transmit_eq hi false _, transmit_eq hi true _,
      fun _ => transmit_eq hi false _, fun _ => transmit_eq hi true _⟩

/-! ### What a word costs (R132) -/

/-- A bit has as many pin events as micro-steps: each of its phases performs one. -/
theorem length_bitEvents (dual d a b : Bool) : (bitEvents dual d a b).length = bitSteps dual := by
  cases dual <;> rfl

/-- The bits of a word, and the two edges of chip select around them. -/
theorem length_wordEvents (wide dual : Bool) (w : Word) (fa fb : Nat → Level) :
    (wordEvents wide dual w fa fb).length = bitCount wide * bitSteps dual + 2 := by
  simp [wordEvents, length_bitEvents]

theorem length_trace_of_transmit {s t : State} {wide : Bool} {w : Word} (hi : s.inputs = [])
    (h : transmit wide w s = .next t) :
    t.trace.length = s.trace.length + (bitCount wide * bitSteps s.cfg.dual + 2) := by
  obtain rfl := Host.Outcome.next.inj ((transmit_eq hi wide w).symm.trans h)
  simp [afterWord, length_wordEvents]

/-- The words of 16 bits that the block sends: the two frames and the raw word (R90, R91, R93). -/
theorem exec_of_space_16 {i : Instr} (h : i.space = .frameOut ∨ i.space = .raw16Out) (s : State) :
    exec i s = transmit false i.encode s := by
  cases i with
  | frame16Write | frame16Read | raw16 => rfl
  | _ => simp [Instr.space] at h

/-- The words of 32 bits that the block sends: the conversion word and the raw word (R92, R93). -/
theorem exec_of_space_32 {i : Instr} (h : i.space = .convOut ∨ i.space = .raw32Out) (s : State) :
    exec i s = transmit true i.encode s := by
  cases i with
  | word32Out | raw32 => rfl
  | _ => simp [Instr.space] at h

/-- Settles O22: `N` bits of four or five events each, and the two edges of chip select. -/
theorem wordCostsItsPinEvents : Obligations.WordCostsItsPinEvents := by
  unfold Obligations.WordCostsItsPinEvents
  refine fun s t i hi ht => ⟨fun hspace => ?_, fun hspace => ?_⟩
  · rw [length_trace_of_transmit hi ((exec_of_space_16 hspace s).symm.trans ht)]
    cases s.cfg.dual <;> rfl
  · rw [length_trace_of_transmit hi ((exec_of_space_32 hspace s).symm.trans ht)]
    cases s.cfg.dual <;> rfl

/-! ### SHIFT16 and SHIFT32 (R139, R140, R141) -/

theorem checkShift_of_open {s : State} (ho : s.cfg.isOpen = true) : checkShift s = s.atWord 0#32 :=
  if_pos ho

/-- A command of the transport in an open, idle block: its check leads to its one word, whose
captures it delivers in one record, each widened by `widen`. -/
theorem runCommand_shift {p : Plan} {c w : Word} {s : State} {wide : Bool} {widen : Word → Word}
    (hr : s.run = false) (hi : s.inputs = []) (ho : s.cfg.isOpen = true)
    (hcheck : p.check = checkShift) (hword : p.word ((s.issue c).atWord 0#32) = (wide, w))
    (hdone : ∀ u, p.done u = (u.deliver (widen u.sh.accA) (widen u.sh.accB)).goto .finish) :
    runCommand p c s = .next
      { afterWord wide w s with
        run := false, phase := .idle, err := 0#3, wordIdx := 0#32
        lat := latched c s.args
        res := [⟨widen (s.wordA wide), widen (s.wordB wide)⟩] } := by
  have hsteps := wordSteps_le wide s.cfg.dual
  have htoWord : Runs p 1 (s.issue c) ((s.issue c).atWord 0#32) :=
    Runs.check hi (by rw [hcheck]; exact checkShift_of_open ho)
  have hshift : Runs p (1 + (wordSteps wide s.cfg.dual + 1)) (s.issue c) _ :=
    htoWord.trans (Runs.wordDone hi rfl hword (hdone _))
  exact runCommand_of_runs_finish hr hshift hi rfl (by omega)

/-- A 16-bit capture of `DINA` has nothing above its low half (R98). -/
theorem capture16_wordA (s : State) : capture16 (s.wordA false) = s.wordA false :=
  capture16_captured _

/-- A 16-bit capture of `DINB`, or the 0 that stands for it in one-wire mode, has nothing above its
low half (R98). -/
theorem capture16_wordB (s : State) : capture16 (s.wordB false) = s.wordB false := by
  unfold State.wordB
  split
  · exact capture16_captured _
  · rfl

/-- Settles O23: the command's own part is the low half of `TXW` and two captures of 16 bits. -/
theorem shift16Completes : Obligations.Shift16Completes := by
  unfold Obligations.Shift16Completes
  intro s hr hi ho
  have hrun := runCommand_shift (p := shift16Plan) (c := 0x10#32) (widen := capture16)
    hr hi ho rfl rfl fun _ => rfl
  rw [capture16_wordA, capture16_wordB] at hrun
  exact (exec_command .shift16 rfl s).trans hrun

/-- Settles O24: the command's own part is the whole of `TXW` and both captures as they are. -/
theorem shift32Completes : Obligations.Shift32Completes := by
  unfold Obligations.Shift32Completes
  intro s hr hi ho
  exact (exec_command .shift32 rfl s).trans
    (runCommand_shift (p := shift32Plan) (c := 0x11#32) (widen := id) hr hi ho rfl rfl fun _ => rfl)

end Sys2Proof.Machine
end

section
/-! SUPPORT. The single registers of the register protocol (42_register_protocol.md): RDREG, the
handshake with any number of busy polls in it, and WRREG, which sends its frame past it. -/

namespace Sys2Proof.Machine

-- Proof after proof: within the check's memory bound there is no room for the stacks of more
-- threads beside those that the tests hold. No `variable` stands here: the option does only that.
set_option deprecated.oldSectionVars true

/-! ### RDREG (R157, R158, R159) -/

/-- Settles O27: the first capture is discarded, the second delivered. -/
theorem rdRegCompletes : Obligations.RdRegCompletes := by
  unfold Obligations.RdRegCompletes
  intro s hr hi ho ha
  exact exec_rdReg_of_valid hr hi ho ha

/-- A read frame ends in its zero `DATA` field (30 R91). -/
theorem getLsbD_readFrame_zero (a : Word) : ((readFrame a).setWidth 32).getLsbD 0 = false := by
  simp [readFrame, Config.addrShift]

/-- Settles O28: each word returns chip select and clock to 1 and leaves its last bit on `DOUT`,
which is 0 in a read frame. -/
theorem rdRegReturnsToIdlePins : Obligations.RdRegReturnsToIdlePins := by
  unfold Obligations.RdRegReturnsToIdlePins
  intro s hr hi ho ha htrig
  refine ⟨_, exec_rdReg_of_valid hr hi ho ha, ?_⟩
  simp only [afterWord, idlePins, htrig, getLsbD_readFrame_zero]

/-! ### Polls (R150, R151, R152) -/

/-- The state after `n` polls that read busy: the answers used up and the events (R151). -/
def State.busyPolls (s : State) (n : Nat) : State :=
  { s with
    env := { s.env with busy := s.env.busy.dropMany n }
    trace := s.trace ++ List.replicate n (.read .busy (!s.params.busyIdle)) }

theorem State.busyPolls_zero (s : State) : s.busyPolls 0 = s := by
  simp [State.busyPolls, Answers.dropMany]

theorem State.busyPolls_succ (s : State) (n : Nat) :
    s.busyPolls (n + 1) = (s.busyPolls 1).busyPolls n := by
  simp [State.busyPolls, Answers.dropMany, List.replicate_succ]

/-- After `n` polls the coming answers of `BUSY` are those past the ones read. -/
theorem State.comingLevel_busyPolls (s : State) (n k : Nat) :
    (s.busyPolls n).comingLevel .busy k = s.comingLevel .busy (n + k) := by
  simp [State.busyPolls, State.comingLevel]

/-- A poll of a busy chip is one busy poll. -/
theorem State.pinRead_busy {s : State} (hb : s.comingLevel .busy 0 ≠ s.params.busyIdle) :
    s.pinRead .busy = s.busyPolls 1 := by
  have hlevel : s.nextLevel .busy = !s.params.busyIdle := Bool.eq_not.mpr hb
  simp [State.pinRead, hlevel, State.busyPolls, Answers.dropMany, Env.afterRead]

/-- A command in the poll of a busy chip: its step is that poll (R151, R152). -/
theorem runCommand_busyPoll (p : Plan) (w : Word) {s : State} (hr : s.run = true)
    (hi : s.inputs = []) (hp : s.phase = .hPoll)
    (hb : s.comingLevel .busy 0 ≠ s.params.busyIdle) :
    runCommand p w s = .next (s.busyPolls 1) := by
  obtain ⟨n, hn⟩ := runCommand_goes_on_running p w hr
  rw [hn, runEngine_poll_busy hi (by simp [atIdle, hp]) hp hb, State.pinRead_busy hb]

/-- Settles O39: WRREG and RDCONV poll alike. -/
theorem busyPollStays : Obligations.BusyPollStays := by
  unfold Obligations.BusyPollStays
  intro s i hcommand hr hi hp hb
  have hspace : i.space = .hostCmd := by rcases hcommand with rfl | rfl <;> rfl
  rw [exec_command i hspace]
  exact runCommand_busyPoll _ _ hr hi hp hb

/-- A step in the poll goes on with the latched command. -/
theorem step_at_poll {s : State} {c : Instr} (hd : decodeCmd s.lat.cmdWord = .ok c)
    (hr : s.run = true) (hi : s.inputs = []) (hp : s.phase = .hPoll) :
    step s = runCommand (planOf c) c.encode s := by
  have hspace := (decodeCmd_eq_ok hd).1
  rw [stepRunsTheFetchedWord s c hr (.inl hi), exec_command c hspace]
  rw [decodeIn_fetch hd, if_neg (by simp [hp]), if_neg (by simp [hp])]

/-- A running command whose run to its end is known answers the state it ends in. -/
theorem runCommand_of_runs_running {p : Plan} {w : Word} {s t : State} {m : Nat}
    (hr : s.run = true) (h : Runs p m s t) (ht : t.phase = .idle)
    (hm : m ≤ 400 * (s.lat.cnt.toNat + 1)) : runCommand p w s = .next t := by
  have hf : commandFuel s = commandFuel s - m + m := by
    unfold commandFuel
    omega
  rw [runCommand, show s.begin w = s by simp [State.begin, hr], hf, h,
    runEngine_stopped _ (by simp [atIdle, ht])]

/-- A command in the poll ends in `n + 1` steps, when its chip is busy for `n` polls and the run
from the next poll to its end is known (R150, R152). -/
theorem core_run_from_poll {c : Instr} {m n : Nat} {s t : State}
    (hd : decodeCmd s.lat.cmdWord = .ok c) (hr : s.run = true) (hi : s.inputs = [])
    (hp : s.phase = .hPoll) (hbusy : ∀ k, k < n → s.comingLevel .busy k ≠ s.params.busyIdle)
    (hend : Runs (planOf c) m (s.busyPolls n) t) (ht : t.phase = .idle)
    (hm : m ≤ 400 * (s.lat.cnt.toNat + 1)) : Sys2Proof.core.run (n + 1) s = .next t := by
  induction n generalizing s with
  | zero =>
    rw [State.busyPolls_zero] at hend
    rw [core_run_succ ((step_at_poll hd hr hi hp).trans
      (runCommand_of_runs_running hr hend ht hm))]
    rfl
  | succ n ih =>
    rw [core_run_succ ((step_at_poll hd hr hi hp).trans
      (runCommand_busyPoll _ _ hr hi hp (hbusy 0 (by omega))))]
    rw [State.busyPolls_succ] at hend
    refine ih (s := s.busyPolls 1) hd hr hi hp (fun k hk => ?_) hend hm
    rw [State.comingLevel_busyPolls, Nat.add_comm]
    exact hbusy (k + 1) (by omega)

/-! ### The handshake of a command (R150) -/

/-- Where a command `w` issued in `s` stands at its first poll: past the trigger pulse (R150). -/
def State.atPoll (s : State) (w : Word) : State :=
  { ((s.pinWrite .trig true).pinWrite .trig false).issue w with
    wordIdx := 0#32, phase := .hPoll }

/-- A check that leads to the handshake. -/
def LeadsToHandshake (p : Plan) (s : State) : Prop :=
  p.check s = { s with wordIdx := 0#32, phase := .hTrigHi }

/-- A command that its check leads to the handshake comes to the poll in three micro-steps. -/
theorem Runs.toPoll {p : Plan} {w : Word} {s : State} (hi : s.inputs = [])
    (hc : LeadsToHandshake p (s.issue w)) : Runs p 3 (s.issue w) (s.atPoll w) := by
  have hhigh : Runs p 1 { s.issue w with wordIdx := 0#32, phase := .hTrigHi }
      { (s.pinWrite .trig true).issue w with wordIdx := 0#32, phase := .hTrigLo } :=
    Runs.phase hi nofun nofun rfl
  have hlow : Runs p 1 { (s.pinWrite .trig true).issue w with wordIdx := 0#32, phase := .hTrigLo }
      (s.atPoll w) :=
    Runs.phase hi nofun nofun rfl
  exact ((Runs.check hi hc).trans hhigh).trans hlow

/-- Where the handshake of a command `w` issued in `s` is over: `n` busy polls and the idle one
(R150). -/
def State.shakeHands (s : State) (w : Word) (n : Nat) : State :=
  ((s.atPoll w).busyPolls n).pinRead .busy

/-- With no busy poll it is the handshake of the spec's pseudocode (R150). -/
theorem State.shakeHands_zero (s : State) (w : Word) :
    s.shakeHands w 0 = { (handshakeOnce s).issue w with wordIdx := 0#32, phase := .hPoll } := by
  rw [State.shakeHands, State.busyPolls_zero]
  rfl

/-- The pin events of a handshake: the trigger pulse, the busy polls, the idle poll (R150). -/
theorem State.shakeHands_trace {s : State} {w : Word} {n : Nat}
    (hidle : s.comingLevel .busy n = s.params.busyIdle) :
    (s.shakeHands w n).trace = s.trace ++ [.write .trig true, .write .trig false] ++
      List.replicate n (.read .busy (!s.params.busyIdle)) ++
        [.read .busy s.params.busyIdle] := by
  have hlast : ((s.atPoll w).busyPolls n).nextLevel .busy = s.params.busyIdle :=
    (State.comingLevel_busyPolls _ n 0).trans hidle
  rw [State.shakeHands, State.pinRead_trace, hlast]
  simp [State.busyPolls, State.atPoll]

theorem planOf_afterPoll_leaves (c : Instr) (s : State) :
    ((planOf c).afterPoll s).phase ≠ .hPoll := by
  cases c with
  | rdConv =>
    show (if s.lat.cnt = 0#32 then s.goto .finish else s.goto .sLoad).phase ≠ .hPoll
    split <;> nofun
  | _ => nofun

/-- The poll that reads idle after `n` busy ones is one micro-step, and the handshake is over. -/
theorem Runs.lastPoll (c : Instr) {w : Word} {s : State} {n : Nat} (hi : s.inputs = [])
    (hidle : s.comingLevel .busy n = s.params.busyIdle) :
    Runs (planOf c) 1 ((s.atPoll w).busyPolls n) ((planOf c).afterPoll (s.shakeHands w n)) :=
  Runs.poll hi rfl ((State.comingLevel_busyPolls _ n 0).trans hidle) rfl
    (planOf_afterPoll_leaves c _)

/-- A command in an idle block ends in its step, when the chip is idle at the first poll and the run
from its handshake to its end is known. -/
theorem exec_of_idle_poll {c : Instr} {m : Nat} {s t : State} (hspace : c.space = .hostCmd)
    (hr : s.run = false) (hi : s.inputs = []) (hc : LeadsToHandshake (planOf c) (s.issue c.encode))
    (hidle : s.comingLevel .busy 0 = s.params.busyIdle)
    (hend : Runs (planOf c) m ((planOf c).afterPoll (s.shakeHands c.encode 0)) t)
    (ht : t.phase = .idle) (hm : 3 + (1 + m) ≤ 400 * (s.args.count.toNat + 1)) :
    exec c s = .next t := by
  have hpoll := Runs.lastPoll c (w := c.encode) hi hidle
  rw [State.busyPolls_zero] at hpoll
  rw [exec_command c hspace]
  exact runCommand_of_runs hr ((Runs.toPoll hi hc).trans (hpoll.trans hend)) ht hm

/-- A command in an idle block whose chip is busy comes to the poll and polls once (R151, R152). -/
theorem exec_of_busy_poll {c : Instr} {s : State} (hspace : c.space = .hostCmd)
    (hr : s.run = false) (hi : s.inputs = []) (hc : LeadsToHandshake (planOf c) (s.issue c.encode))
    (hb : s.comingLevel .busy 0 ≠ s.params.busyIdle) :
    exec c s = .next ((s.atPoll c.encode).busyPolls 1) := by
  have hf : commandFuel (s.issue c.encode) = commandFuel (s.issue c.encode) - 4 + 1 + 3 := by
    unfold commandFuel
    omega
  have hread : (s.atPoll c.encode).pinRead .busy = (s.atPoll c.encode).busyPolls 1 :=
    State.pinRead_busy hb
  rw [exec_command c hspace, runCommand, show s.begin c.encode = s.issue c.encode by
    simp [State.begin, hr], hf, Runs.toPoll hi hc,
    runEngine_poll_busy (s := s.atPoll c.encode) hi rfl rfl hb, hread]

/-- The state with nothing pending: the command just issued runs on undisturbed (log entry 1). -/
def State.undisturbed (s : State) : State := { s with inputs := [] }

/-- A command issued by a host write ends in `n + 1` steps, when its chip is busy for `n` polls and
the run from its handshake to its end is known (R150, R152). -/
theorem core_run_after_busyPolls {c : Instr} {m n : Nat} {s t : State}
    (hd : decodeCmd c.encode = .ok c) (hr : s.run = false)
    (hi : s.inputs = [.write 0#32 c.encode])
    (hc : LeadsToHandshake (planOf c) (s.undisturbed.issue c.encode))
    (hbusy : ∀ k, k < n → s.comingLevel .busy k ≠ s.params.busyIdle)
    (hidle : s.comingLevel .busy n = s.params.busyIdle)
    (hend : Runs (planOf c) m ((planOf c).afterPoll (s.undisturbed.shakeHands c.encode n)) t)
    (ht : t.phase = .idle) (hm : 3 + (1 + m) ≤ 400 * (s.args.count.toNat + 1)) :
    Sys2Proof.core.run (n + 1) s = .next t := by
  have hspace := (decodeCmd_eq_ok hd).1
  have hissue : step s = exec c s.undisturbed := step_issues hr hi hd
  cases n with
  | zero =>
    rw [core_run_succ (hissue.trans (exec_of_idle_poll hspace hr rfl hc hidle hend ht hm))]
    rfl
  | succ n =>
    rw [core_run_succ (hissue.trans (exec_of_busy_poll hspace hr rfl hc (hbusy 0 (by omega))))]
    have hrest := (Runs.lastPoll c (s := s.undisturbed) (w := c.encode) rfl hidle).trans hend
    rw [State.busyPolls_succ] at hrest
    refine core_run_from_poll (c := c) (by simpa [State.busyPolls, State.atPoll] using hd)
      rfl rfl rfl (fun k hk => ?_) hrest ht (Nat.le_trans (Nat.le_add_left _ _) hm)
    rw [State.comingLevel_busyPolls, Nat.add_comm]
    exact hbusy (k + 1) (by omega)

/-! ### WRREG (R155) -/

theorem wrReg_leadsToHandshake {s : State} (ho : s.cfg.isOpen = true)
    (ha : validAddr s.lat.a = true) : LeadsToHandshake wrRegPlan s := by
  simp [LeadsToHandshake, wrRegPlan, checkAddr, ho, ha]

/-- WRREG past its handshake: the write frame, its capture discarded, and the end (R155). -/
theorem wrReg_runs_to_end {s : State} (hi : s.inputs = []) :
    Runs wrRegPlan (wordSteps false s.cfg.dual + 1 + 1) (s.goto .sLoad)
      (afterWord false ((writeFrame s.lat.a s.lat.v).setWidth 32) s).finish := by
  have hword : Runs wrRegPlan (wordSteps false s.cfg.dual + 1) (s.goto .sLoad)
      ((afterWord false ((writeFrame s.lat.a s.lat.v).setWidth 32) s).goto .finish) :=
    Runs.wordDone hi rfl rfl rfl
  exact hword.trans (Runs.phase hi nofun nofun rfl)

/-- The micro-steps of WRREG around its busy polls are within its bound. -/
theorem wrReg_steps_le (d : Bool) (n : Nat) :
    3 + (1 + (wordSteps false d + 1 + 1)) ≤ 400 * (n + 1) := by
  have hsteps := wordSteps_le false d
  omega

/-- Settles O25: the check, the handshake and the frame, one after another. -/
theorem wrRegCompletes : Obligations.WrRegCompletes := by
  unfold Obligations.WrRegCompletes
  intro s hr hi ho ha hidle
  rw [exec_of_idle_poll (c := .wrReg) rfl hr hi (wrReg_leadsToHandshake ho ha) hidle
    (wrReg_runs_to_end hi) rfl (wrReg_steps_le _ _), State.shakeHands_zero]
  rfl

/-- Settles O26: the steps before the last are one busy poll each. -/
theorem wrRegCompletesAfterBusyPolls : Obligations.WrRegCompletesAfterBusyPolls := by
  unfold Obligations.WrRegCompletesAfterBusyPolls
  intro s p hr hi ho ha hbusy hidle
  refine ⟨_, core_run_after_busyPolls (c := .wrReg) rfl hr hi (wrReg_leadsToHandshake ho ha) hbusy
    hidle (wrReg_runs_to_end rfl) rfl (wrReg_steps_le _ _), rfl, rfl, rfl, ?_⟩
  exact congrArg (· ++ wordEvents false s.cfg.dual _ (s.comingLevel .dina) (s.comingLevel .dinb))
    (State.shakeHands_trace (s := s.undisturbed) hidle)

end Sys2Proof.Machine
end

section
/-! SUPPORT. RDREGS (42_register_protocol.md R160): the elements of the list one after another, up
to the end of the list or its first invalid address, and the same reads as separate commands. -/

namespace Sys2Proof.Machine

-- Proof after proof: within the check's memory bound there is no room for the stacks of more
-- threads beside those that the tests hold. No `variable` stands here: the option does only that.
set_option deprecated.oldSectionVars true

/-! ### One element (R157, R160) -/

/-- The first capture of an element is discarded and its second delivered, in all else the element
is its two words. -/
theorem readElement_eq (a : Word) (s : State) :
    readElement a s =
      { afterWord false ((readFrame a).setWidth 32)
          (afterWord false ((readFrame a).setWidth 32) s) with
        res := s.res ++ [⟨captured (fun k => s.comingLevel .dina (16 + k)) 16, 0#32⟩]
        wordIdx := s.wordIdx + 2#32 } := by
  have hsecond : (afterWord false ((readFrame a).setWidth 32) s).comingLevel .dina =
      fun k => s.comingLevel .dina (16 + k) := comingLevel_dina_afterWord false _ s
  rw [← hsecond, ← capture16_captured]
  unfold readElement
  rw [shiftWord_eq, shiftWord_eq]
  rfl

/-- Where RDREGS goes on with `k` elements read: to its end, or to element `k` (R160, R165). -/
def nextElement (k : Nat) (s : State) : State :=
  if k = s.lat.cnt.toNat then s.goto .finish else startElement s

/-- The phase takes no part in where RDREGS goes on. -/
theorem nextElement_goto (k : Nat) (s : State) (p : Phase) :
    nextElement k (s.goto p) = nextElement k s :=
  rfl

theorem add_one_add_one (w : Word) : w + 1#32 + 1#32 = w + 2#32 := by
  rw [BitVec.add_assoc]
  rfl

theorem nextElement_end {k : Nat} {s : State} (h : k = s.lat.cnt.toNat) :
    nextElement k s = s.goto .finish :=
  if_pos h

theorem nextElement_valid {k : Nat} {s : State} (hk : k < s.lat.cnt.toNat)
    (ha : validAddr (currentAddr s) = true) : nextElement k s = s.goto .sLoad := by
  simp [nextElement, Nat.ne_of_lt hk, startElement, ha]

theorem nextElement_invalid {k : Nat} {s : State} (hk : k < s.lat.cnt.toNat)
    (hpre : s.params.rdregsPrecheck = false) (ha : validAddr (currentAddr s) = false) :
    nextElement k s = s.reject .config := by
  simp [nextElement, Nat.ne_of_lt hk, startElement, hpre, ha]

/-- `WORDIDX` at the first word of element `k` (R165). -/
def State.AtElement (s : State) (k : Nat) : Prop := s.wordIdx = BitVec.ofNat 32 (2 * k)

/-- `WORDIDX` at the second word of element `k` (R165). -/
def State.AtSecondWord (s : State) (k : Nat) : Prop := s.wordIdx = BitVec.ofNat 32 (2 * k) + 1#32

theorem currentAddr_of_atElement {k : Nat} {s : State} (hk : s.AtElement k) (hlt : k < 2 ^ 31) :
    currentAddr s = listAt s.list k := by
  unfold State.AtElement at hk
  rw [currentAddr, hk, (wordIdx_shiftRight hlt).1]

theorem currentAddr_of_atSecondWord {k : Nat} {s : State} (hk : s.AtSecondWord k)
    (hlt : k < 2 ^ 31) : currentAddr s = listAt s.list k := by
  unfold State.AtSecondWord at hk
  rw [currentAddr, hk, (wordIdx_shiftRight hlt).2]

/-- After the first word of an element its second one is due. -/
theorem doneRdRegs_first {k : Nat} {s : State} (hk : s.AtElement k) :
    doneRdRegs s = s.atWord (s.wordIdx + 1#32) := by
  have heven : s.wordIdx.getLsbD 0 = false := hk ▸ (wordIdx_getLsbD_zero k).1
  rw [doneRdRegs, if_pos heven]
  rfl

/-- After the second word of an element its capture is delivered, and the next element is due. -/
theorem doneRdRegs_second {k : Nat} {s : State} (hk : s.AtSecondWord k)
    (hlt : k < s.lat.cnt.toNat) (hc : s.lat.cnt.toNat ≤ 2 ^ 31) :
    doneRdRegs s = nextElement (k + 1)
      { s.deliver (capture16 s.sh.accA) 0#32 with wordIdx := s.wordIdx + 1#32 } := by
  have hodd : ¬ s.wordIdx.getLsbD 0 = false :=
    ne_false_of_eq_true (hk ▸ (wordIdx_getLsbD_zero k).2)
  have hend : s.wordIdx + 1#32 = 2#32 * s.lat.cnt ↔ k + 1 = s.lat.cnt.toNat :=
    hk ▸ wordIdx_end hc hlt
  rw [doneRdRegs, if_neg hodd, nextElement]
  simp only [hend]
  rfl

theorem rdRegs_word {s : State} {a : Word} (h : currentAddr s = a) :
    rdRegsPlan.word s = (false, (readFrame a).setWidth 32) :=
  congrArg (fun x => (false, (readFrame x).setWidth 32)) h

/-- No micro-step leads nowhere else. -/
theorem Runs.refl (p : Plan) (s : State) : Runs p 0 s s := fun _ => rfl

/-- The micro-steps of an element: two words and their disposals. -/
def elementSteps (dual : Bool) : Nat := wordSteps false dual + 1 + (wordSteps false dual + 1)

/-- The first word of an element is shifted, and its capture discarded (R157). -/
theorem Runs.firstWord {k : Nat} {s : State} {w : Word} (hi : s.inputs = []) (hp : s.phase = .sLoad)
    (hk : s.AtElement k) (hlt : k < 2 ^ 31) (hw : (readFrame (listAt s.list k)).setWidth 32 = w) :
    Runs rdRegsPlan (wordSteps false s.cfg.dual + 1) s
      ((afterWord false w s).atWord (s.wordIdx + 1#32)) :=
  Runs.wordDone hi hp (hw ▸ rdRegs_word (currentAddr_of_atElement hk hlt)) (doneRdRegs_first hk)

/-- The second word of an element is shifted, and its capture delivered (R157). -/
theorem Runs.secondWord {k : Nat} {s : State} {w : Word} (hi : s.inputs = [])
    (hp : s.phase = .sLoad) (hk : s.AtSecondWord k) (hlt : k < s.lat.cnt.toNat)
    (hc : s.lat.cnt.toNat ≤ 2 ^ 31) (hw : (readFrame (listAt s.list k)).setWidth 32 = w) :
    Runs rdRegsPlan (wordSteps false s.cfg.dual + 1) s
      (nextElement (k + 1)
        { (afterWord false w s).deliver (capture16 (s.wordA false)) 0#32 with
          wordIdx := s.wordIdx + 1#32 }) :=
  Runs.wordDone hi hp (hw ▸ rdRegs_word (currentAddr_of_atSecondWord hk (by omega)))
    (doneRdRegs_second (s := (afterWord false w s).goto .wDone) hk hlt hc)

/-- From the first word of an element the engine reads it and comes to the next (R160). -/
theorem Runs.element {k : Nat} {s : State} (hi : s.inputs = []) (hp : s.phase = .sLoad)
    (hk : s.AtElement k) (hlt : k < s.lat.cnt.toNat) (hc : s.lat.cnt.toNat ≤ 2 ^ 31) :
    Runs rdRegsPlan (elementSteps s.cfg.dual) s
      (nextElement (k + 1) (readElement (listAt s.list k) s)) := by
  generalize hw : (readFrame (listAt s.list k)).setWidth 32 = w
  have hfirst := Runs.firstWord hi hp hk (by omega) hw
  have hsecond := Runs.secondWord (s := (afterWord false w s).atWord (s.wordIdx + 1#32)) hi rfl
    (congrArg (· + 1#32) hk) hlt hc hw
  rw [readElement, hw, shiftWord_eq, shiftWord_eq, ← add_one_add_one]
  exact hfirst.trans hsecond

/-! ### The elements of the list (R160) -/

/-- An element read leaves alone what RDREGS is controlled by. -/
theorem readElement_keeps (a : Word) (s : State) :
    (readElement a s).inputs = s.inputs ∧ (readElement a s).cfg = s.cfg ∧
      (readElement a s).lat = s.lat ∧ (readElement a s).list = s.list ∧
      (readElement a s).params = s.params := by
  rw [readElement_eq]
  exact ⟨rfl, rfl, rfl, rfl, rfl⟩

/-- With an element read, `WORDIDX` is at the first word of the next. -/
theorem readElement_atElement {k : Nat} {s : State} (a : Word) (hk : s.AtElement k) :
    (readElement a s).AtElement (k + 1) := by
  unfold State.AtElement at hk ⊢
  rw [readElement_eq, ← wordIdx_next, ← hk]

/-- What the elements read leave alone. -/
theorem readElements_keeps (k n : Nat) (s : State) :
    (readElements k n s).inputs = s.inputs ∧ (readElements k n s).cfg = s.cfg ∧
      (readElements k n s).lat = s.lat ∧ (readElements k n s).list = s.list ∧
      (readElements k n s).params = s.params := by
  induction n generalizing k s with
  | zero => exact ⟨rfl, rfl, rfl, rfl, rfl⟩
  | succ n ih =>
    obtain ⟨hinputs, hcfg, hlat, hlist, hparams⟩ := readElement_keeps (listAt s.list k) s
    obtain ⟨ginputs, gcfg, glat, glist, gparams⟩ := ih (k + 1) (readElement (listAt s.list k) s)
    exact ⟨ginputs.trans hinputs, gcfg.trans hcfg, glat.trans hlat, glist.trans hlist,
      gparams.trans hparams⟩

/-- With `n` elements read, `WORDIDX` is `n` elements further. -/
theorem readElements_atElement {k : Nat} {s : State} (n : Nat) (hk : s.AtElement k) :
    (readElements k n s).AtElement (k + n) := by
  induction n generalizing k s with
  | zero => exact hk
  | succ n ih =>
    rw [show k + (n + 1) = k + 1 + n by omega]
    exact ih (readElement_atElement _ hk)

/-- The phase takes no part in an element. -/
theorem readElement_goto (a : Word) (s : State) (p : Phase) :
    readElement a (s.goto p) = (readElement a s).goto p := by
  rw [readElement_eq, readElement_eq]
  rfl

/-- The state with other values in what a command is controlled by. -/
def State.controlled (s : State) (l : Latches) (r : Bool) (e : BitVec 3) (p : Phase) : State :=
  { s with lat := l, run := r, err := e, phase := p }

/-- The state with no result delivered and no word counted. -/
def State.cleared (s : State) : State := { s with res := [], wordIdx := 0#32 }

/-- What a command is controlled by takes no part in an element. -/
theorem readElement_controlled (a : Word) (s : State) (l : Latches) (r : Bool) (e : BitVec 3)
    (p : Phase) :
    readElement a (s.controlled l r e p) = (readElement a s).controlled l r e p := by
  rw [readElement_eq, readElement_eq]
  rfl

theorem readElements_controlled (k n : Nat) (s : State) (l : Latches) (r : Bool) (e : BitVec 3)
    (p : Phase) :
    readElements k n (s.controlled l r e p) = (readElements k n s).controlled l r e p := by
  induction n generalizing k s with
  | zero => rfl
  | succ n ih =>
    rw [readElements, readElements, readElement_controlled, ih]
    rfl

/-- From element `k` on the engine reads `n` valid elements and comes to the one after (R160). -/
theorem Runs.elements {n k : Nat} {s : State} (hi : s.inputs = []) (hk : s.AtElement k)
    (hc : s.lat.cnt.toNat ≤ 2 ^ 31) (hn : k + n ≤ s.lat.cnt.toNat)
    (ha : ∀ j, j < n → validAddr (listAt s.list (k + j)) = true) :
    Runs rdRegsPlan (n * elementSteps s.cfg.dual) (nextElement k s)
      (nextElement (k + n) (readElements k n s)) := by
  induction n generalizing k s with
  | zero =>
    rw [Nat.zero_mul]
    exact Runs.refl _ _
  | succ n ih =>
    have hlt : k < s.lat.cnt.toNat := by omega
    have hvalid : validAddr (currentAddr s) = true := by
      rw [currentAddr_of_atElement hk (by omega)]
      exact ha 0 (by omega)
    have hfirst := Runs.element (s := s.goto .sLoad) hi rfl hk hlt hc
    rw [State.goto_list, readElement_goto, nextElement_goto] at hfirst
    obtain ⟨hinputs, hcfg, hlat, hlist, _⟩ := readElement_keeps (listAt s.list k) s
    have hrest := ih (k := k + 1) (s := readElement (listAt s.list k) s) (hinputs.trans hi)
      (readElement_atElement _ hk) (by rwa [hlat]) (by rw [hlat]; omega) fun j hj => by
        rw [hlist, show k + 1 + j = k + (j + 1) by omega]
        exact ha (j + 1) (by omega)
    rw [hcfg] at hrest
    rw [nextElement_valid hlt hvalid, Nat.succ_mul, Nat.add_comm (n * _),
      show k + (n + 1) = k + 1 + n by omega]
    exact hfirst.trans hrest

/-! ### The check of RDREGS (R160, R192, R193) -/

theorem allValid_iff {l : List Word} {n : Nat} :
    allValid l n = true ↔ ∀ k, k < n → validAddr (listAt l k) = true := by
  simp [allValid]

/-- A list that is not too long and, under the pre-check, valid leads to its first element. -/
theorem checkRdRegs_accepts {s : State} (ho : s.cfg.isOpen = true)
    (hmax : s.lat.cnt.toNat ≤ s.params.listMax)
    (hpre : s.params.rdregsPrecheck = true → allValid s.list s.lat.cnt.toNat = true) :
    checkRdRegs s = nextElement 0 { s with wordIdx := 0#32 } := by
  have hvalid : (s.params.rdregsPrecheck && !allValid s.list s.lat.cnt.toNat) ≠ true := by
    simpa using hpre
  have hempty : s.lat.cnt = 0#32 ↔ 0 = s.lat.cnt.toNat :=
    (BitVec.toNat_inj.symm.trans eq_comm)
  rw [checkRdRegs, if_pos ho, if_neg (by omega), if_neg hvalid, nextElement]
  simp only [hempty]
  rfl

/-- Settles O32: both are rejected in the check. -/
theorem rdRegsRejects : Obligations.RdRegsRejects := by
  unfold Obligations.RdRegsRejects
  intro s hr hi ho hbad
  refine (exec_command .rdRegs rfl s).trans (runCommand_rejected hr hi ?_)
  show checkRdRegs (s.issue 0x22#32) = _
  rw [checkRdRegs, if_pos (by exact ho)]
  rcases hbad with hlong | ⟨hpre, hinvalid⟩
  · exact if_pos hlong
  · split
    · rfl
    · exact if_pos (by simp [hpre, hinvalid, latched])

/-! ### A whole RDREGS (R160, R190) -/

/-- An element takes at most 328 micro-steps. -/
theorem mul_elementSteps_le (n : Nat) (dual : Bool) : n * elementSteps dual ≤ n * 328 := by
  have hsteps := wordSteps_le false dual
  refine Nat.mul_le_mul_left n ?_
  unfold elementSteps
  omega

/-- An accepted RDREGS reads the first `n` elements of its list, if valid, and comes to the next. -/
theorem rdRegs_runs {n : Nat} {s : State} (hi : s.inputs = []) (ho : s.cfg.isOpen = true)
    (hmax : s.args.count.toNat ≤ s.params.listMax) (hc : s.args.count.toNat ≤ 2 ^ 31)
    (hpre : s.params.rdregsPrecheck = true → allValid s.list s.args.count.toNat = true)
    (hn : n ≤ s.args.count.toNat) (ha : allValid s.list n = true) :
    Runs rdRegsPlan (1 + n * elementSteps s.cfg.dual) (s.issue 0x22#32)
      (nextElement n (readElements 0 n { s.issue 0x22#32 with wordIdx := 0#32 })) := by
  have helements := Runs.elements (n := n) (k := 0) (s := { s.issue 0x22#32 with wordIdx := 0#32 })
    hi rfl hc (by rwa [Nat.zero_add]) fun j hj => by
      rw [Nat.zero_add]
      exact allValid_iff.mp ha j hj
  rw [Nat.zero_add] at helements
  have hcheck := checkRdRegs_accepts (s := s.issue 0x22#32) ho hmax hpre
  exact (Runs.check hi hcheck).trans helements

/-- The elements of an issued RDREGS are those read with no result yet and no word counted. -/
theorem readElements_issue (n : Nat) (s : State) :
    readElements 0 n { s.issue 0x22#32 with wordIdx := 0#32 } =
      (readElements 0 n s.cleared).controlled (latched 0x22#32 s.args) true 0#3 .check :=
  readElements_controlled 0 n s.cleared (latched 0x22#32 s.args) true 0#3 .check

/-- A command that stands at its `FINISH` within its bound has one micro-step to go (30 R102). -/
theorem runCommand_finishes {p : Plan} {w : Word} {s t : State} {m : Nat} (hr : s.run = false)
    (h : Runs p m (s.issue w) t) (hi : t.inputs = []) (ht : t.phase = .finish)
    (hm : m < 400 * (s.args.count.toNat + 1)) : runCommand p w s = .next t.finish :=
  have hend : Runs p 1 t t.finish :=
    Runs.phase hi (by simp [ht]) (by simp [ht]) (by simp [phaseStep, ht])
  runCommand_of_runs hr (h.trans hend) rfl hm

/-- RDREGS of an accepted list of valid addresses: what it leaves, written out. -/
theorem exec_rdRegs_of_valid {s : State} (hr : s.run = false) (hi : s.inputs = [])
    (ho : s.cfg.isOpen = true) (hmax : s.args.count.toNat ≤ s.params.listMax)
    (hc : s.args.count.toNat ≤ 2 ^ 31) (ha : allValid s.list s.args.count.toNat = true) :
    exec .rdRegs s = .next
      ((readElements 0 s.args.count.toNat s.cleared).controlled (latched 0x22#32 s.args) false 0#3
        .idle) := by
  have hsteps := mul_elementSteps_le s.args.count.toNat s.cfg.dual
  have hruns := rdRegs_runs hi ho hmax hc (fun _ => ha) le_rfl ha
  rw [readElements_issue, nextElement_end (by rfl)] at hruns
  obtain ⟨hinputs, _⟩ := readElements_keeps 0 s.args.count.toNat s.cleared
  exact (exec_command .rdRegs rfl s).trans
    (runCommand_finishes hr hruns (hinputs.trans hi) rfl (by omega))

/-- Settles O30: the list is read up to its end. -/
theorem rdRegsCompletes : Obligations.RdRegsCompletes := by
  unfold Obligations.RdRegsCompletes
  intro s hr hi ho hmax hc ha
  exact exec_rdRegs_of_valid hr hi ho hmax hc ha

/-- Settles O33: the list is read up to its first invalid address, which the start of its element
rejects. -/
theorem rdRegsWithoutPrecheckStopsAtTheFirstInvalid :
    Obligations.RdRegsWithoutPrecheckStopsAtTheFirstInvalid := by
  unfold Obligations.RdRegsWithoutPrecheckStopsAtTheFirstInvalid
  intro s j hr hi ho hpre hmax hc hj ha hbad
  have hsteps := mul_elementSteps_le j s.cfg.dual
  have hruns := rdRegs_runs hi ho hmax hc (fun h => absurd h (by simp [hpre])) hj.le ha
  obtain ⟨hinputs, _, _, hlist, hparams⟩ := readElements_keeps 0 j s.cleared
  have hat : (readElements 0 j s.cleared).AtElement (0 + j) :=
    readElements_atElement j rfl
  have hinvalid : validAddr (currentAddr (readElements 0 j s.cleared)) = false := by
    rw [currentAddr_of_atElement hat (by omega), hlist, Nat.zero_add]
    exact hbad
  have hstop : nextElement j ((readElements 0 j s.cleared).controlled (latched 0x22#32 s.args) true
      0#3 .check) = ((readElements 0 j s.cleared).controlled (latched 0x22#32 s.args) true 0#3
        .check).reject .config :=
    nextElement_invalid hj ((congrArg Config.Params.rdregsPrecheck hparams).trans hpre) hinvalid
  rw [readElements_issue, hstop] at hruns
  exact (exec_command .rdRegs rfl s).trans
    (runCommand_finishes hr hruns (hinputs.trans hi) rfl (by omega))

/-! ### RDREGS beside separate RDREG commands (R160, R108) -/

/-- The pin side of the block: handle, output latches, coming answers and pin events. -/
def State.pinSide (s : State) : Cfg × OutLatches × Env × List PinEvent :=
  (s.cfg, s.out, s.env, s.trace)

theorem pinSide_eq_iff {s t : State} : s.pinSide = t.pinSide ↔
    s.cfg = t.cfg ∧ s.out = t.out ∧ s.env = t.env ∧ s.trace = t.trace := by
  simp [State.pinSide]

/-- A word depends on the pin side alone. -/
theorem afterWord_pinSide {s t : State} (wide : Bool) (w : Word) (h : s.pinSide = t.pinSide) :
    (afterWord wide w s).pinSide = (afterWord wide w t).pinSide := by
  obtain ⟨hcfg, hout, henv, htrace⟩ := pinSide_eq_iff.mp h
  simp only [State.pinSide, afterWord, State.comingLevel_eq, hcfg, hout, henv, htrace]

/-- A separate RDREG of a valid address does on the pins what an element of RDREGS does, and returns
its record. -/
theorem exec_rdReg_readElement {a : Word} {s t : State} (hr : s.run = false) (hi : s.inputs = [])
    (ho : s.cfg.isOpen = true) (ha : validAddr a = true) (h : s.pinSide = t.pinSide) :
    ∃ u, exec .rdReg { s with args := { s.args with addr := a } } = .next u ∧ u.run = false ∧
      u.inputs = [] ∧ u.cfg = s.cfg ∧ u.pinSide = (readElement a t).pinSide ∧
      (readElement a t).res = t.res ++ u.res := by
  obtain ⟨_, _, henv, _⟩ := pinSide_eq_iff.mp h
  refine ⟨_, exec_rdReg_of_valid (by exact hr) (by exact hi) (by exact ho) ha, rfl, hi, rfl, ?_,
    ?_⟩
  · rw [readElement_eq]
    exact afterWord_pinSide false _ (afterWord_pinSide false _ h)
  · rw [readElement_eq]
    simp only [State.comingLevel_eq, henv]

/-- The elements `k, …, k+n-1` of a list. -/
def elementsFrom (l : List Word) (k n : Nat) : List Word :=
  (List.range n).map fun j => listAt l (k + j)

theorem elementsFrom_succ (l : List Word) (k n : Nat) :
    elementsFrom l k (n + 1) = listAt l k :: elementsFrom l (k + 1) n := by
  simp [elementsFrom, List.range_succ_eq_map, Nat.add_assoc, Nat.add_comm 1]

/-- Separate RDREG commands of valid list elements do on the pins what RDREGS does, and return its
records. -/
theorem readOneByOne_readElements {n k : Nat} {s t : State} (hr : s.run = false)
    (hi : s.inputs = []) (ho : s.cfg.isOpen = true) (h : s.pinSide = t.pinSide)
    (ha : ∀ a ∈ elementsFrom t.list k n, validAddr a = true) :
    (readElements k n t).pinSide =
        (readOneByOne (exec .rdReg) (elementsFrom t.list k n) s).1.pinSide ∧
      (readElements k n t).res =
        t.res ++ (readOneByOne (exec .rdReg) (elementsFrom t.list k n) s).2 := by
  induction n generalizing k s t with
  | zero => exact ⟨h.symm, (List.append_nil _).symm⟩
  | succ n ih =>
    rw [elementsFrom_succ] at ha ⊢
    obtain ⟨hhead, htail⟩ := List.forall_mem_cons.mp ha
    obtain ⟨u, hu, hur, hui, hucfg, hpins, hres⟩ := exec_rdReg_readElement hr hi ho hhead h
    obtain ⟨_, _, _, hlist, _⟩ := readElement_keeps (listAt t.list k) t
    rw [← hlist] at htail
    obtain ⟨hrestPins, hrestRes⟩ := ih (t := readElement (listAt t.list k) t) hur hui
      (by rw [hucfg, ho]) hpins htail
    rw [hlist] at hrestPins hrestRes
    rw [readOneByOne, hu, readElements]
    exact ⟨hrestPins, by rw [hrestRes, hres, List.append_assoc]⟩

/-- Settles O31: element by element, RDREGS does on the pins what a separate RDREG does. -/
theorem rdRegsEqualsSeparateReads : Obligations.RdRegsEqualsSeparateReads := by
  unfold Obligations.RdRegsEqualsSeparateReads
  intro s t hr hi ho hmax hc ha ht
  obtain rfl := Host.Outcome.next.inj ((exec_rdRegs_of_valid hr hi ho hmax hc ha).symm.trans ht)
  have haddrs : elementsFrom s.cleared.list 0 s.args.count.toNat =
      (List.range s.args.count.toNat).map (listAt s.list) := by
    simp [elementsFrom, State.cleared]
  obtain ⟨hpins, hres⟩ := readOneByOne_readElements (n := s.args.count.toNat) (k := 0)
    (t := s.cleared) hr hi ho rfl fun a hmem => by
      rw [haddrs] at hmem
      obtain ⟨j, hj, rfl⟩ := List.mem_map.mp hmem
      exact allValid_iff.mp ha j (List.mem_range.mp hj)
  rw [haddrs] at hpins hres
  obtain ⟨_, hout, henv, htrace⟩ := pinSide_eq_iff.mp hpins
  exact ⟨htrace, henv, hout, hres⟩

end Sys2Proof.Machine
end

section
/-! SUPPORT. RDCONV (42_register_protocol.md R162): the conversion words one after another past the
handshake, and what they leave, with any number of busy polls on the way. -/

namespace Sys2Proof.Machine

-- Proof after proof: within the check's memory bound there is no room for the stacks of more
-- threads beside those that the tests hold. No `variable` stands here: the option does only that.
set_option deprecated.oldSectionVars true

/-! ### One conversion word (R162, R163) -/

/-- A conversion word is its shift, both captures delivered and the word counted. -/
theorem convWord_eq (s : State) :
    convWord s =
      { afterWord true 0#32 s with
        res := s.res ++ [⟨s.wordA true, s.wordB true⟩]
        wordIdx := s.wordIdx + 1#32 } := by
  unfold convWord
  rw [shiftWord_eq]
  rfl

/-- What a command is controlled by takes no part in a conversion word. -/
theorem convWord_controlled (s : State) (l : Latches) (r : Bool) (e : BitVec 3) (p : Phase) :
    convWord (s.controlled l r e p) = (convWord s).controlled l r e p := by
  rw [convWord_eq, convWord_eq]
  rfl

theorem convWords_controlled (n : Nat) (s : State) (l : Latches) (r : Bool) (e : BitVec 3)
    (p : Phase) :
    convWords n (s.controlled l r e p) = (convWords n s).controlled l r e p := by
  induction n generalizing s with
  | zero => rfl
  | succ n ih => rw [convWords, convWords, convWord_controlled, ih]

/-- A conversion word leaves alone what RDCONV is controlled by. -/
theorem convWord_keeps (s : State) :
    (convWord s).inputs = s.inputs ∧ (convWord s).cfg = s.cfg ∧ (convWord s).lat = s.lat ∧
      (convWord s).err = s.err := by
  rw [convWord_eq]
  exact ⟨rfl, rfl, rfl, rfl⟩

/-- What the words one after another leave alone. -/
theorem convWords_keeps (n : Nat) (s : State) :
    (convWords n s).inputs = s.inputs ∧ (convWords n s).err = s.err := by
  induction n generalizing s with
  | zero => exact ⟨rfl, rfl⟩
  | succ n ih =>
    obtain ⟨hinputs, _, _, herr⟩ := convWord_keeps s
    obtain ⟨ginputs, gerr⟩ := ih (convWord s)
    exact ⟨ginputs.trans hinputs, gerr.trans herr⟩

/-! ### The words of a command (R162, R165) -/

/-- Where RDCONV goes on: to its end when every word is counted, else to the next word (R165). -/
def nextWord (s : State) : State :=
  s.goto (if s.wordIdx = s.lat.cnt then .finish else .sLoad)

/-- After its handshake RDCONV comes to its first word, if there is one (R162). -/
theorem rdConv_afterPoll {s : State} (h : s.wordIdx = 0#32) :
    rdConvPlan.afterPoll s = nextWord s := by
  rw [nextWord, h]
  simp only [eq_comm (a := 0#32)]
  show (if s.lat.cnt = 0#32 then s.goto .finish else s.goto .sLoad) = _
  split <;> rfl

/-- From a word's start the engine shifts it, delivers it and comes to the next (R162, R165). -/
theorem Runs.conversion {s : State} (hi : s.inputs = []) :
    Runs rdConvPlan (wordSteps true s.cfg.dual + 1) (s.goto .sLoad) (nextWord (convWord s)) := by
  refine Runs.wordDone hi rfl rfl ?_
  rw [convWord_eq]
  exact deliverConversion_eq _ _

/-- With `n` words to go the engine shifts them all and comes to the end (R162). -/
theorem Runs.conversions {n : Nat} {s : State} (hi : s.inputs = [])
    (hn : s.wordIdx.toNat + n = s.lat.cnt.toNat) :
    Runs rdConvPlan (n * (wordSteps true s.cfg.dual + 1)) (nextWord s)
      ((convWords n s).goto .finish) := by
  induction n generalizing s with
  | zero =>
    rw [Nat.zero_mul, nextWord, if_pos (BitVec.eq_of_toNat_eq hn)]
    exact Runs.refl _ _
  | succ n ih =>
    have hmore : s.wordIdx ≠ s.lat.cnt := fun h => by
      rw [h] at hn
      omega
    obtain ⟨hinputs, hcfg, hlat, _⟩ := convWord_keeps s
    have hcount : (convWord s).wordIdx.toNat = s.wordIdx.toNat + 1 := by
      rw [convWord_eq]
      show (s.wordIdx + 1#32).toNat = _
      have hlt := s.lat.cnt.isLt
      rw [BitVec.toNat_add_of_lt (by simp; omega)]
      rfl
    have hrest := ih (s := convWord s) (hinputs.trans hi) (by rw [hlat, hcount]; omega)
    rw [hcfg] at hrest
    rw [nextWord, if_neg hmore, Nat.succ_mul, Nat.add_comm (n * _)]
    exact (Runs.conversion hi).trans hrest

/-! ### A whole RDCONV (R162, R150) -/

theorem rdConv_leadsToHandshake {s : State} (ho : s.cfg.isOpen = true)
    (hmax : s.lat.cnt.toNat ≤ s.params.countMax) : LeadsToHandshake rdConvPlan s := by
  simp [LeadsToHandshake, rdConvPlan, checkRdConv, ho, hmax]

/-- RDCONV past its handshake: all its words, and the end (R162). -/
theorem rdConv_runs_to_end {s : State} (hi : s.inputs = []) (h0 : s.wordIdx = 0#32) :
    Runs rdConvPlan (s.lat.cnt.toNat * (wordSteps true s.cfg.dual + 1) + 1)
      (rdConvPlan.afterPoll s) (convWords s.lat.cnt.toNat s).finish := by
  have hwords := Runs.conversions (n := s.lat.cnt.toNat) hi (by simp [h0])
  obtain ⟨hinputs, _⟩ := convWords_keeps s.lat.cnt.toNat s
  have hend : Runs rdConvPlan 1 ((convWords s.lat.cnt.toNat s).goto .finish)
      (convWords s.lat.cnt.toNat s).finish :=
    Runs.phase (hinputs.trans hi) nofun nofun rfl
  rw [rdConv_afterPoll h0]
  exact hwords.trans hend

/-- The micro-steps of RDCONV around its busy polls are within its bound. -/
theorem rdConv_steps_le (d : Bool) (n : Nat) :
    3 + (1 + (n * (wordSteps true d + 1) + 1)) ≤ 400 * (n + 1) := by
  have hword := wordSteps_le true d
  have hwords : n * (wordSteps true d + 1) ≤ n * 164 := Nat.mul_le_mul_left n (by omega)
  omega

/-- Settles O35: the check, the handshake and the words, one after another. -/
theorem rdConvCompletes : Obligations.RdConvCompletes := by
  unfold Obligations.RdConvCompletes
  intro s hr hi ho hmax hidle
  rw [exec_of_idle_poll (c := .rdConv) rfl hr hi (rdConv_leadsToHandshake ho hmax) hidle
    (rdConv_runs_to_end hi rfl) rfl (rdConv_steps_le _ _), State.shakeHands_zero]
  have hcontrol := convWords_controlled s.args.count.toNat (handshakeOnce s).cleared
    (latched 0x23#32 s.args) true 0#3 .hPoll
  exact congrArg (fun t => Host.Outcome.next t.finish) hcontrol

/-! ### What the words leave (R163, R70) -/

/-- The coming answers of `DINA` after a conversion word: those past the ones it sampled. -/
theorem comingLevel_dina_convWord (s : State) (j : Nat) :
    (convWord s).comingLevel .dina j = s.comingLevel .dina (32 + j) := by
  rw [convWord_eq]
  exact congrFun (comingLevel_dina_afterWord true 0#32 s) j

/-- In two-wire mode the coming answers of `DINB` move on alike (41 R135). -/
theorem comingLevel_dinb_convWord {s : State} (hd : s.cfg.dual = true) (j : Nat) :
    (convWord s).comingLevel .dinb j = s.comingLevel .dinb (32 + j) := by
  rw [convWord_eq]
  simp [State.comingLevel, afterWord, Env.afterWord, hd, bitCount]

/-- The record of the `k`-th conversion word to come (R163). -/
def State.convRecord (s : State) (k : Nat) : ResRec :=
  ⟨captured (fun j => s.comingLevel .dina (32 * k + j)) 32,
   if s.cfg.dual then captured (fun j => s.comingLevel .dinb (32 * k + j)) 32 else 0#32⟩

/-- The pin events of the `k`-th conversion word to come (41 R131). -/
def State.convEvents (s : State) (k : Nat) : List PinEvent :=
  wordEvents true s.cfg.dual 0#32 (fun j => s.comingLevel .dina (32 * k + j))
    (fun j => s.comingLevel .dinb (32 * k + j))

/-- In one-wire mode the answers of `DINB` take no part in a word (41 R135). -/
theorem wordEvents_oneWire (wide : Bool) (w : Word) (fa fb fc : Nat → Level) :
    wordEvents wide false w fa fb = wordEvents wide false w fa fc :=
  rfl

/-- After a conversion word the `k`-th one to come is the one that was the `k+1`-th. -/
theorem convRecord_convEvents_convWord (s : State) (k : Nat) :
    (convWord s).convRecord k = s.convRecord (k + 1) ∧
      (convWord s).convEvents k = s.convEvents (k + 1) := by
  obtain ⟨_, hcfg, _, _⟩ := convWord_keeps s
  have hindex : ∀ j, 32 + (32 * k + j) = 32 * (k + 1) + j := fun j => by omega
  unfold State.convRecord State.convEvents
  simp only [hcfg, comingLevel_dina_convWord, hindex]
  cases hd : s.cfg.dual with
  | false =>
    simp only [Bool.false_eq_true, if_false, true_and]
    exact wordEvents_oneWire ..
  | true => simp only [comingLevel_dinb_convWord hd, hindex, and_self]

/-- A conversion word delivers its record and performs its pin events. -/
theorem convWord_res_trace (s : State) :
    (convWord s).res = s.res ++ [s.convRecord 0] ∧
      (convWord s).trace = s.trace ++ s.convEvents 0 := by
  rw [convWord_eq]
  simp [State.convRecord, State.convEvents, State.wordA, State.wordB, afterWord, bitCount]

/-- So do the words one after another (R162). -/
theorem convWords_res_trace (n : Nat) (s : State) :
    (convWords n s).res = s.res ++ (List.range n).map s.convRecord ∧
      (convWords n s).trace = s.trace ++ (List.range n).flatMap s.convEvents := by
  induction n generalizing s with
  | zero => exact ⟨(List.append_nil _).symm, (List.append_nil _).symm⟩
  | succ n ih =>
    obtain ⟨hres, htrace⟩ := ih (convWord s)
    obtain ⟨hres0, htrace0⟩ := convWord_res_trace s
    have hrecord : (convWord s).convRecord = fun k => s.convRecord (k + 1) :=
      funext fun k => (convRecord_convEvents_convWord s k).1
    have hevents : (convWord s).convEvents = fun k => s.convEvents (k + 1) :=
      funext fun k => (convRecord_convEvents_convWord s k).2
    rw [convWords, hres, htrace, hres0, htrace0, hrecord, hevents]
    simp [List.range_succ_eq_map, List.flatMap_map, Function.comp_def]

/-- Settles O36: the steps before the last are one busy poll each. -/
theorem rdConvCompletesAfterBusyPolls : Obligations.RdConvCompletesAfterBusyPolls := by
  unfold Obligations.RdConvCompletesAfterBusyPolls
  intro s p hr hi ho hmax hbusy hidle
  obtain ⟨hres, htrace⟩ :=
    convWords_res_trace s.args.count.toNat (s.undisturbed.shakeHands 0x23#32 p)
  obtain ⟨_, herr⟩ := convWords_keeps s.args.count.toNat (s.undisturbed.shakeHands 0x23#32 p)
  rw [State.shakeHands_trace (s := s.undisturbed) hidle] at htrace
  refine ⟨_, core_run_after_busyPolls (c := .rdConv) rfl hr hi (rdConv_leadsToHandshake ho hmax)
    hbusy hidle (rdConv_runs_to_end rfl rfl) rfl (rdConv_steps_le _ _), rfl, herr, hres, htrace⟩

end Sys2Proof.Machine
end

section
/-! SUPPORT. What a running command leaves alone: `ERR` once it is past its check, the trigger pin
outside OPEN and the handshake, and every output in CLOSE and SETDIAG. -/

namespace Sys2Proof.Machine

-- Proof after proof: within the check's memory bound there is no room for the stacks of more
-- threads beside those that the tests hold. No `variable` stands here: the option does only that.
set_option deprecated.oldSectionVars true

/-! ### No error past the check (R166) -/

/-- Settles O43: the command goes on with its own plan, and past the checks no micro-step of it
touches `ERR`. -/
theorem noErrorOncePastTheCheck : Obligations.NoErrorOncePastTheCheck := by
  unfold Obligations.NoErrorOncePastTheCheck
  intro s t i hr hexec hcheck hinit hpre ht
  obtain ⟨hd, _⟩ := hexec hr
  obtain ⟨hspace, _⟩ := decodeCmd_eq_ok hd
  have hpast : s.phase.pastCheck = true := by simp [Phase.pastCheck, hcheck, hinit]
  obtain ⟨n, hn⟩ := runCommand_goes_on_running (planOf i) i.encode hr
  rw [exec_command i hspace, hn] at ht
  obtain rfl := Host.Outcome.next.inj ht
  obtain ⟨herr, _⟩ := runEngine_keepsError atIdle i (n + 1) (fun _ => hpre) hpast
  exact herr

/-! ### Who writes the outputs (R156, R159, R122, R124) -/

/-- What the command `c` may have done to the output latches between `s` and `t`. -/
def OutputsKept (c : Instr) (s t : State) : Prop :=
  (c ≠ .openHandle → c ≠ .wrReg → c ≠ .rdConv → t.out.trig = s.out.trig) ∧
    (c = .closeHandle ∨ c = .setDiag → t.out = s.out)

theorem outputsKept_of_eq {c : Instr} {s t : State} (h : t.out = s.out) : OutputsKept c s t :=
  ⟨fun _ _ _ => by rw [h], fun _ => h⟩

theorem outputsKept_trans {c : Instr} {s t u : State} (h : OutputsKept c s t)
    (g : OutputsKept c t u) : OutputsKept c s u := by
  obtain ⟨htrig, hout⟩ := h
  obtain ⟨gtrig, gout⟩ := g
  exact ⟨fun h1 h2 h3 => (gtrig h1 h2 h3).trans (htrig h1 h2 h3),
    fun h1 => (gout h1).trans (hout h1)⟩

theorem outputsKept_of_ownChange {c : Instr} {s t : State} (h : OwnChange s t) :
    OutputsKept c s t := by
  unfold OwnChange at h
  rw [h]
  exact outputsKept_of_eq rfl

/-- OPEN, WRREG and RDCONV may write all of them (40 R120, 42 R150). -/
theorem outputsKept_of_pulses {c : Instr} (h : c = .openHandle ∨ c = .wrReg ∨ c = .rdConv)
    (s t : State) : OutputsKept c s t := by
  rcases h with rfl | rfl | rfl <;> simp [OutputsKept]

/-- A command that shifts words writes any output but the trigger (41 R131). -/
theorem outputsKept_of_shifts {c : Instr} (h : phaseFits (.ok c) .sLoad = true) {s t : State}
    (htrig : t.out.trig = s.out.trig) : OutputsKept c s t := by
  refine ⟨fun _ _ _ => htrig, ?_⟩
  rintro (rfl | rfl) <;> cases h

theorem planOf_check_outputsKept (c : Instr) (s : State) :
    OutputsKept c s ((planOf c).check s) := by
  obtain ⟨⟨d, hcheck⟩, _⟩ := planOf_quiet c s
  have hdiag : OutputsKept c s (s.withDiag d) := outputsKept_of_eq rfl
  exact outputsKept_trans hdiag (outputsKept_of_ownChange hcheck)

theorem phaseClkHi_trig (s : State) : (phaseClkHi s).out.trig = s.out.trig := by
  unfold phaseClkHi
  split <;> rfl

/-- At a phase of its own a command writes the outputs only as it may. -/
theorem phaseStep_outputsKept {c : Instr} {s : State} (h : phaseFits (.ok c) s.phase = true) :
    OutputsKept c s (phaseStep (planOf c) s) := by
  unfold phaseStep
  cases hp : s.phase <;> rw [hp] at h
  case check => exact planOf_check_outputsKept c s
  case oInit | oSetup =>
    obtain rfl : c = .openHandle := by simpa [phaseFits] using h
    exact outputsKept_of_pulses (.inl rfl) _ _
  case hTrigHi | hTrigLo | hPoll =>
    exact outputsKept_of_pulses (.inr (by simpa [phaseFits] using h)) _ _
  case sClkHi => exact outputsKept_of_shifts h (phaseClkHi_trig s)
  case sCsLo | sDout | sClkLo | sCsHi => exact outputsKept_of_shifts h rfl
  case wDone => exact outputsKept_of_ownChange (planOf_done_own c s)
  case idle | cTerm | sLoad | sSampleA | sSampleB | finish => exact outputsKept_of_eq rfl

/-- What holds where a command begins, and each phase of its own and each turn keep, holds where it
ends. -/
theorem exec_command_keeps {c : Instr} {K : State → Prop} {s t : State}
    (hspace : c.space = .hostCmd) (hexec : s.Executes c) (hissue : K (s.issue c.encode)) (hs : K s)
    (hturn : ∀ u, K u → K u.takeTurn)
    (hphase : ∀ u, phaseFits (.ok c) u.phase = true → K u → K (phaseStep (planOf c) u))
    (ht : exec c s = .next t) : K t := by
  rw [exec_command c hspace, runCommand] at ht
  obtain rfl := Host.Outcome.next.inj ht
  have hbegin : phaseFits (.ok c) (s.begin c.encode).phase = true ∧ K (s.begin c.encode) := by
    unfold State.begin
    split
    · rename_i hr
      obtain ⟨hd, hfits⟩ := hexec hr
      exact ⟨hd ▸ hfits, hs⟩
    · exact ⟨rfl, hissue⟩
  refine (runEngine_keeps (K := fun u => phaseFits (.ok c) u.phase = true ∧ K u)
    (fun u hu _ => ?_) _ _ hbegin).2
  obtain ⟨hfits, hkept⟩ := hu
  have hfitsTurn : phaseFits (.ok c) u.takeTurn.phase = true := by simpa using hfits
  exact ⟨phaseStep_fits hfitsTurn, hphase _ hfitsTurn (hturn u hkept)⟩

/-- Settles O46: the trigger is written in the set-up of OPEN and in the handshake alone, and the
phases of CLOSE and SETDIAG write no output. -/
theorem onlyHandshakesPulseTheTrigger : Obligations.OnlyHandshakesPulseTheTrigger := by
  unfold Obligations.OnlyHandshakesPulseTheTrigger
  intro s t c hspace hexec ht
  exact exec_command_keeps (K := OutputsKept c s) hspace hexec (outputsKept_of_eq rfl)
    (outputsKept_of_eq rfl)
    (fun u hu => outputsKept_trans hu (outputsKept_of_eq u.takeTurn_out))
    (fun u hfits hu => outputsKept_trans hu (phaseStep_outputsKept hfits)) ht

end Sys2Proof.Machine
end

section
/-! SUPPORT. The client sequences (43_client_sequences.md): the lines that a call sends, what each
of them leaves, and how many answers of the chip the lines before it have used up. -/

namespace Sys2Proof.Machine

-- Proof after proof: within the check's memory bound there is no room for the stacks of more
-- threads beside those that the tests hold. No `variable` stands here: the option does only that.
set_option deprecated.oldSectionVars true

/-! ### Calls in parts -/

theorem bind_eq_ok_iff {ε α β : Type} {x : Except ε α} {f : α → Except ε β} {b : β} :
    x.bind f = .ok b ↔ ∃ a, x = .ok a ∧ f a = .ok b := by
  cases x with
  | error e => exact ⟨nofun, nofun⟩
  | ok a => simp [Except.bind]

theorem callLines_singleton (patience : Nat) (l : Line) (s : State) :
    callLines patience [l] s = callLine patience l s := by
  rw [callLines_cons]
  cases callLine patience l s <;> rfl

theorem callLines_cons_of_ok {patience : Nat} {l : Line} {s t : State} (ls : List Line)
    (h : callLine patience l s = .ok t) :
    callLines patience (l :: ls) s = callLines patience ls t := by
  rw [callLines_cons, h]
  rfl

theorem firstResult_eq_ok_iff {s : State} {w : Word} :
    firstResult s = .ok w ↔ ∃ r, s.res.head? = some r ∧ r.a = w := by
  unfold firstResult
  cases s.res <;> simp

/-- The configuration update returns when both its lines do, the second made of what the first has
returned (43 R172). -/
theorem configUpdate_eq_ok_iff {patience : Nat} {c : ClientParams} {s t : State} :
    configUpdate patience c s = .ok t ↔ ∃ u r, callLine patience (.rdReg c.configReg) s = .ok u ∧
      u.res.head? = some r ∧ callLine patience (configUpdateLine c r.a) u = .ok t := by
  simp only [configUpdate, bind_eq_ok_iff, firstResult_eq_ok_iff]
  constructor
  · rintro ⟨u, hread, _, ⟨r, hr, rfl⟩, hwrite⟩
    exact ⟨u, r, hread, hr, hwrite⟩
  · rintro ⟨u, r, hread, hr, hwrite⟩
    exact ⟨u, hread, r.a, ⟨r, hr, rfl⟩, hwrite⟩

/-! ### The stack entries of a sequence (43 R171) -/

/-- The address and the value that each pair of a sequence writes, the first pair at entry `i`. -/
def stackEntries (c : ClientParams) (i : Nat) (pairs : List ChannelPair) : List (Word × Word) :=
  pairs.mapIdx fun k q =>
    (c.stackBase + BitVec.ofNat 32 (i + k),
      if k + 1 = pairs.length then c.chsel q.chA q.chB ||| c.ssren else c.chsel q.chA q.chB)

theorem length_stackEntries (c : ClientParams) (i : Nat) (pairs : List ChannelPair) :
    (stackEntries c i pairs).length = pairs.length :=
  List.length_mapIdx

/-- The line that writes an entry. -/
def entryLine (w : Word × Word) : Line := .wrReg w.1 w.2

/-- The stack lines write the entries, one after another. -/
theorem stackLines_eq (c : ClientParams) (i : Nat) (pairs : List ChannelPair) :
    stackLines c i pairs = (stackEntries c i pairs).map entryLine := by
  induction pairs generalizing i with
  | nil => rfl
  | cons q rest ih =>
    cases rest with
    | nil => rfl
    | cons q' rest =>
      rw [stackLines, ih]
      · simp [stackEntries, entryLine, List.mapIdx_cons, Nat.add_assoc, Nat.add_comm 1]
      · nofun

theorem defineSequenceLines_eq (c : ClientParams) (pairs : List ChannelPair) (conf : Word) :
    defineSequenceLines c pairs conf = (stackEntries c 0 pairs).map entryLine ++
      [.rdReg c.configReg, configUpdateLine c conf] := by
  rw [defineSequenceLines, stackLines_eq]

/-- A sequence the client accepts has its entries written and then the configuration updated. -/
theorem defineSequence_of_accepted (patience : Nat) (c : ClientParams) {pairs : List ChannelPair}
    (s : State) (hsome : 1 ≤ pairs.length) (hmax : pairs.length ≤ 32) :
    defineSequence patience c pairs s =
      (callLines patience ((stackEntries c 0 pairs).map entryLine) s).bind
        (configUpdate patience c) := by
  have hlong : ¬ Config.seqMax < pairs.length := Nat.not_lt.mpr hmax
  rw [defineSequence, if_neg (by omega), if_neg hlong, stackLines_eq]

/-- A call that returns has sent its lines, the last one made of what the read before it has
returned. -/
theorem defineSequence_sends_lines {patience : Nat} {c : ClientParams} {pairs : List ChannelPair}
    {s t : State} (hsome : 1 ≤ pairs.length) (hmax : pairs.length ≤ 32)
    (h : defineSequence patience c pairs s = .ok t) :
    ∃ u r, callLines patience
        ((stackEntries c 0 pairs).map entryLine ++ [.rdReg c.configReg]) s = .ok u ∧
      u.res.head? = some r ∧ callLines patience (defineSequenceLines c pairs r.a) s = .ok t := by
  rw [defineSequence_of_accepted patience c s hsome hmax, bind_eq_ok_iff] at h
  obtain ⟨v, hstack, hupdate⟩ := h
  obtain ⟨u, r, hread, hr, hwrite⟩ := configUpdate_eq_ok_iff.mp hupdate
  refine ⟨u, r, ?_, hr, ?_⟩
  · rw [callLines_append, hstack]
    exact (callLines_singleton ..).trans hread
  · rw [defineSequenceLines_eq, callLines_append, hstack]
    exact (callLines_cons_of_ok _ hread).trans ((callLines_singleton ..).trans hwrite)

/-! ### Handshakes and words counted -/

/-- `t` comes after `s` by `polls` handshakes, each one trigger pulse and one poll, and words of
`samples` bits in all: the answers are used up, the handle and the parameters as they were. -/
structure WireUse (polls samples : Nat) (s t : State) : Prop where
  cfg : t.cfg = s.cfg
  params : t.params = s.params
  busy : ∀ k, t.comingLevel .busy k = s.comingLevel .busy (polls + k)
  dina : ∀ k, t.comingLevel .dina k = s.comingLevel .dina (samples + k)
  pulses : t.trace.count (.write .trig true) = s.trace.count (.write .trig true) + polls

theorem WireUse.refl (s : State) : WireUse 0 0 s s where
  cfg := rfl
  params := rfl
  busy k := by rw [Nat.zero_add]
  dina k := by rw [Nat.zero_add]
  pulses := rfl

theorem WireUse.trans {p q m n : Nat} {s t u : State} (h : WireUse p m s t) (g : WireUse q n t u) :
    WireUse (p + q) (m + n) s u where
  cfg := g.cfg.trans h.cfg
  params := g.params.trans h.params
  busy k := by rw [g.busy, h.busy, Nat.add_assoc]
  dina k := by rw [g.dina, h.dina, Nat.add_assoc]
  pulses := by rw [g.pulses, h.pulses, Nat.add_assoc]

/-- Registers, latches and results take no part in it. -/
theorem WireUse.of_sameWire {p n : Nat} {s t u : State} (h : WireUse p n s t) (hcfg : u.cfg = t.cfg)
    (hparams : u.params = t.params) (henv : u.env = t.env) (htrace : u.trace = t.trace) :
    WireUse p n s u where
  cfg := hcfg.trans h.cfg
  params := hparams.trans h.params
  busy k := by rw [← h.busy, State.comingLevel_eq, State.comingLevel_eq, henv]
  dina k := by rw [← h.dina, State.comingLevel_eq, State.comingLevel_eq, henv]
  pulses := by rw [htrace, h.pulses]

/-- A chip idle at a poll to come is idle at it also when the polls before it are counted off. -/
theorem WireUse.idle_poll {p n k : Nat} {s t : State} (h : WireUse p n s t)
    (hidle : s.comingLevel .busy (p + k) = s.params.busyIdle) :
    t.comingLevel .busy k = t.params.busyIdle := by
  rw [h.busy, h.params, hidle]

/-- No word on the wire raises the trigger (41 R131). -/
theorem count_trig_wordEvents (wide dual : Bool) (w : Word) (fa fb : Nat → Level) :
    (wordEvents wide dual w fa fb).count (.write .trig true) = 0 := by
  cases dual <;> simp [List.count_eq_zero, wordEvents, bitEvents]

/-- A word samples as many bits as it has (41 R131). -/
theorem WireUse.word (wide : Bool) (w : Word) (s : State) :
    WireUse 0 (bitCount wide) s (afterWord wide w s) where
  cfg := rfl
  params := rfl
  busy k := by
    rw [Nat.zero_add]
    rfl
  dina := congrFun (comingLevel_dina_afterWord wide w s)
  pulses := by simp [afterWord, count_trig_wordEvents]

/-- A handshake is one pulse and one poll (42 R150). -/
theorem WireUse.handshake (s : State) : WireUse 1 0 s (handshakeOnce s) where
  cfg := rfl
  params := rfl
  busy k := by
    rw [handshakeOnce, State.comingLevel_pinRead, if_pos rfl, Nat.add_comm]
    rfl
  dina k := by
    rw [Nat.zero_add]
    rfl
  pulses := by simp [handshakeOnce]

/-! ### The lines one by one -/

/-- A WRREG line to a valid address completes when the chip is idle at its poll (42 R155). -/
theorem callLine_wrReg (patience : Nat) {a : Word} (v : Word) {s : State} (hr : s.run = false)
    (ho : s.cfg.isOpen = true) (ha : validAddr a = true)
    (hidle : s.comingLevel .busy 0 = s.params.busyIdle) :
    ∃ t, callLine patience (.wrReg a v) s = .ok t ∧ t.run = false ∧ t.err = 0#3 ∧
      t.args.addr = a ∧ t.args.value = v ∧ WireUse 1 16 s t := by
  obtain ⟨-, -, -, -, -, hline, -, -⟩ :=
    commandLinesIssueTheirCommands { s with inputs := (Line.wrReg a v).writes } hr
  have hexec := (hline a v rfl).trans (wrRegCompletes _ hr rfl ho ha hidle)
  refine ⟨_, callLine_returns hexec rfl rfl rfl, rfl, rfl, rfl, rfl, ?_⟩
  have huse := (WireUse.handshake s).trans
    (WireUse.word false ((writeFrame a v).setWidth 32) (handshakeOnce s))
  exact huse.of_sameWire rfl rfl rfl rfl

/-- A RDREG line to a valid address completes and returns its second capture (42 R157, R163). -/
theorem callLine_rdReg (patience : Nat) {a : Word} {s : State} (hr : s.run = false)
    (ho : s.cfg.isOpen = true) (ha : validAddr a = true) :
    ∃ t r, callLine patience (.rdReg a) s = .ok t ∧ t.run = false ∧ t.res.head? = some r ∧
      r.a = captured (fun k => s.comingLevel .dina (16 + k)) 16 ∧ WireUse 0 32 s t := by
  obtain ⟨-, -, -, -, -, -, hline, -⟩ :=
    commandLinesIssueTheirCommands { s with inputs := (Line.rdReg a).writes } hr
  have hexec := (hline a rfl).trans (rdRegCompletes _ hr rfl ho ha)
  refine ⟨_, _, callLine_returns hexec rfl rfl rfl, rfl, rfl, rfl, ?_⟩
  have huse := (WireUse.word false ((readFrame a).setWidth 32) s).trans
    (WireUse.word false ((readFrame a).setWidth 32) _)
  exact huse.of_sameWire rfl rfl rfl rfl

/-- A RDCONV line within `COUNT_MAX` completes when the chip is idle at its poll, and returns a
record for each conversion (42 R162, R163). -/
theorem callLine_rdConv (patience : Nat) {n : Word} {s : State} (hr : s.run = false)
    (ho : s.cfg.isOpen = true) (hmax : n.toNat ≤ s.params.countMax)
    (hidle : s.comingLevel .busy 0 = s.params.busyIdle) :
    ∃ t, callLine patience (.rdConv n) s = .ok t ∧ t.run = false ∧ t.err = 0#3 ∧
      t.res = (List.range n.toNat).map s.convRecord := by
  obtain ⟨-, -, -, -, -, -, -, hline⟩ :=
    commandLinesIssueTheirCommands { s with inputs := (Line.rdConv n).writes } hr
  have hexec := (hline n rfl).trans (rdConvCompletes
    { s with inputs := [], args := { s.args with count := n } } hr rfl ho hmax hidle)
  exact ⟨_, callLine_returns hexec rfl (convWords_keeps n.toNat _).1 rfl, rfl, rfl,
    (convWords_res_trace n.toNat _).1⟩

/-- The entries of a sequence are written one after another, one handshake each. -/
theorem callLines_entries (patience : Nat) (ws : List (Word × Word)) {s : State}
    (hr : s.run = false) (ho : s.cfg.isOpen = true) (ha : ∀ w ∈ ws, validAddr w.1 = true)
    (hidle : ∀ k, k < ws.length → s.comingLevel .busy k = s.params.busyIdle) :
    ∃ t, callLines patience (ws.map entryLine) s = .ok t ∧ t.run = false ∧
      WireUse ws.length (16 * ws.length) s t := by
  induction ws generalizing s with
  | nil => exact ⟨s, rfl, hr, WireUse.refl s⟩
  | cons w ws ih =>
    rw [List.length_cons] at hidle
    obtain ⟨haw, haws⟩ := List.forall_mem_cons.mp ha
    obtain ⟨u, hfirst, hru, -, -, -, huse⟩ :=
      callLine_wrReg patience w.2 hr ho haw (hidle 0 (by omega))
    obtain ⟨t, hrest, hrt, huseRest⟩ := ih hru (huse.cfg ▸ ho) haws fun k hk =>
      huse.idle_poll (hidle (1 + k) (by omega))
    refine ⟨t, (callLines_cons_of_ok _ hfirst).trans hrest, hrt, ?_⟩
    rw [List.length_cons, Nat.mul_succ, Nat.add_comm, Nat.add_comm (16 * ws.length)]
    exact huse.trans huseRest

/-! ### The calls -/

/-- The configuration update completes when the chip is idle at its one poll: it writes back the
second capture of its read, with the two enable bits set (43 R172). -/
theorem configUpdate_completes (patience : Nat) {c : ClientParams} {s : State} (hr : s.run = false)
    (ho : s.cfg.isOpen = true) (ha : validAddr c.configReg = true)
    (hidle : s.comingLevel .busy 0 = s.params.busyIdle) :
    ∃ t, configUpdate patience c s = .ok t ∧ t.run = false ∧ t.err = 0#3 ∧
      t.args.addr = c.configReg ∧
      t.args.value =
        captured (fun k => s.comingLevel .dina (16 + k)) 16 ||| c.burstEn ||| c.seqEn ∧
      t.trace.count (.write .trig true) = s.trace.count (.write .trig true) + 1 := by
  obtain ⟨u, r, hread, hru, hhead, hconf, huse⟩ := callLine_rdReg patience hr ho ha
  have hpoll : u.comingLevel .busy 0 = u.params.busyIdle := huse.idle_poll hidle
  obtain ⟨t, hwrite, hrt, het, haddr, hvalue, huseWrite⟩ :=
    callLine_wrReg patience (r.a ||| c.burstEn ||| c.seqEn) hru (huse.cfg ▸ ho) ha hpoll
  rw [hconf] at hvalue
  exact ⟨t, configUpdate_eq_ok_iff.mpr ⟨u, r, hread, hhead, hwrite⟩, hrt, het, haddr, hvalue,
    (huse.trans huseWrite).pulses⟩

/-- `defineSequence` of an accepted sequence completes when the chip is idle at each poll
(43 R171). -/
theorem defineSequence_completes (patience : Nat) {c : ClientParams} {pairs : List ChannelPair}
    {s : State} (hsome : 1 ≤ pairs.length) (hmax : pairs.length ≤ 32) (hr : s.run = false)
    (ho : s.cfg.isOpen = true) (hconf : validAddr c.configReg = true)
    (hentries : ∀ w ∈ stackEntries c 0 pairs, validAddr w.1 = true)
    (hidle : ∀ k, k ≤ pairs.length → s.comingLevel .busy k = s.params.busyIdle) :
    ∃ t, defineSequence patience c pairs s = .ok t ∧ t.run = false ∧ t.err = 0#3 ∧
      t.args.addr = c.configReg ∧
      t.args.value =
        captured (fun k => s.comingLevel .dina (16 * pairs.length + 16 + k)) 16 |||
          c.burstEn ||| c.seqEn ∧
      t.trace.count (.write .trig true) =
        s.trace.count (.write .trig true) + pairs.length + 1 := by
  have hlen := length_stackEntries c 0 pairs
  obtain ⟨u, hstack, hru, huse⟩ := callLines_entries patience _ hr ho hentries fun k hk =>
    hidle k (by omega)
  rw [hlen] at huse
  have hpoll : u.comingLevel .busy 0 = u.params.busyIdle := huse.idle_poll (hidle _ (Nat.le_refl _))
  obtain ⟨t, hupdate, hrt, het, haddr, hvalue, hpulse⟩ :=
    configUpdate_completes patience hru (huse.cfg ▸ ho) hconf hpoll
  simp only [huse.dina, ← Nat.add_assoc] at hvalue
  rw [huse.pulses] at hpulse
  refine ⟨t, ?_, hrt, het, haddr, hvalue, hpulse⟩
  rw [defineSequence_of_accepted patience c s hsome hmax, bind_eq_ok_iff]
  exact ⟨u, hstack, hupdate⟩

/-- The record of the next conversion holds its whole `DINA` capture (42 R163). -/
theorem convRecord_zero_a (s : State) :
    (s.convRecord 0).a = captured (s.comingLevel .dina) 32 := by
  simp [State.convRecord]

/-- `convertPair` completes when the chip is idle at both polls, and returns the conversion
(43 R174). -/
theorem convertPair_completes (patience : Nat) {c : ClientParams} (q : ChannelPair) {s : State}
    (hr : s.run = false) (ho : s.cfg.isOpen = true) (ha : validAddr c.channelReg = true)
    (hmax : 1 ≤ s.params.countMax) (hidle : s.comingLevel .busy 0 = s.params.busyIdle)
    (hidleNext : s.comingLevel .busy 1 = s.params.busyIdle) :
    ∃ t, convertPair patience c q s =
        .ok (t, captured (fun k => s.comingLevel .dina (16 + k)) 32) ∧
      t.run = false ∧ t.err = 0#3 := by
  obtain ⟨u, hselect, hru, -, -, -, huse⟩ :=
    callLine_wrReg patience (c.chsel q.chA q.chB) hr ho ha hidle
  have hpoll : u.comingLevel .busy 0 = u.params.busyIdle := huse.idle_poll hidleNext
  obtain ⟨t, hconvert, hrt, het, hres⟩ :=
    callLine_rdConv patience hru (huse.cfg ▸ ho) (n := 1#32) (huse.params ▸ hmax) hpoll
  have hlines : callLines patience (convertPairLines c q) s = .ok t :=
    (callLines_cons_of_ok _ hselect).trans ((callLines_singleton ..).trans hconvert)
  have hsample : firstResult t = .ok (captured (fun k => s.comingLevel .dina (16 + k)) 32) := by
    rw [firstResult_eq_ok_iff, hres, ← funext huse.dina]
    exact ⟨_, rfl, convRecord_zero_a u⟩
  refine ⟨t, ?_, hrt, het⟩
  rw [convertPair, hlines]
  exact congrArg (Except.map fun sample => (t, sample)) hsample

/-- Settles O60: each call is its lines one after another, and each line finds the answers that the
lines before it have left. -/
theorem clientSequencesSendTheirLines : Obligations.ClientSequencesSendTheirLines := by
  unfold Obligations.ClientSequencesSendTheirLines
  intro patience c pairs s
  refine ⟨fun hlong => ?_, fun hnone => ?_, fun hsome hmax => ?_, fun q => ⟨rfl, ?_⟩, rfl,
    fun n hn => ?_, fun res => ⟨rfl, rfl⟩⟩
  · have hlimit : Config.seqMax < pairs.length := hlong
    rw [defineSequence, if_neg (by omega), if_pos hlimit]
  · rw [defineSequence, if_pos (by rw [hnone]; rfl)]
  · refine ⟨stackEntries c 0 pairs, length_stackEntries c 0 pairs, fun k => ?_,
      defineSequenceLines_eq c pairs, fun t ht => defineSequence_sends_lines hsome hmax ht,
      defineSequence_completes patience hsome hmax⟩
    simp [stackEntries]
  · exact convertPair_completes patience q
  · exact if_neg (by omega)

end Sys2Proof.Machine
end

section
/-! SUPPORT. The exceptions (60_exceptions.md): what each check rejects, the rejection of a word that
is no command, the block that waits in `IDLE`, and the hang of a command whose chip stays busy. -/

namespace Sys2Proof.Machine

-- Proof after proof: within the check's memory bound there is no room for the stacks of more
-- threads beside those that the tests hold. No `variable` stands here: the option does only that.
set_option deprecated.oldSectionVars true

/-! ### The hang (R198, R152) -/

/-- A command in the poll whose chip is busy for `n` polls has done these, and nothing else, after
`n` steps (R151, R152). -/
theorem core_run_busyPolls {c : Instr} {s : State} {n : Nat} (hd : decodeCmd s.lat.cmdWord = .ok c)
    (hr : s.run = true) (hi : s.inputs = []) (hp : s.phase = .hPoll)
    (hbusy : ∀ k, k < n → s.comingLevel .busy k ≠ s.params.busyIdle) :
    Sys2Proof.core.run n s = .next (s.busyPolls n) := by
  induction n generalizing s with
  | zero =>
    rw [State.busyPolls_zero]
    rfl
  | succ n ih =>
    have hpoll : step s = .next (s.busyPolls 1) :=
      (step_at_poll hd hr hi hp).trans (runCommand_busyPoll _ _ hr hi hp (hbusy 0 (by omega)))
    rw [core_run_succ hpoll, State.busyPolls_succ s n]
    refine ih (s := s.busyPolls 1) hd hr hi hp fun k hk => ?_
    rw [State.comingLevel_busyPolls, Nat.add_comm]
    exact hbusy (k + 1) (by omega)

/-- Settles O40: busy polls change the answers and the trace only. -/
theorem busyChipHangsTheCommand : Obligations.BusyChipHangsTheCommand := by
  unfold Obligations.BusyChipHangsTheCommand
  intro s n hd hr hi hp hbusy
  have hpolls : Sys2Proof.core.run n s = .next (s.busyPolls n) := by
    rcases hd with hd | hd <;> exact core_run_busyPolls hd hr hi hp hbusy
  exact ⟨s.busyPolls n, hpolls, hr, hp, rfl, rfl, rfl, rfl, rfl⟩

/-! ### The wait (R209) -/

/-- Where no input is due, the step of an idle block is its engine's turn, which only waits. -/
theorem step_of_idle {s : State} (hr : s.run = false)
    (hi : s.inputs = [] ∨ ∃ rest, s.inputs = .turn :: rest) : step s = .next s.takeTurn := by
  have hwait : engineTurn s = .next s.takeTurn := by simp [engineTurn, hr]
  rcases hi with hi | ⟨rest, hi⟩ <;> simpa only [step, hi] using hwait

/-- Settles O12: the turn uses up a `turn` that stands first in the schedule, and nothing else. -/
theorem idleBlockWaits : Obligations.IdleBlockWaits := by
  unfold Obligations.IdleBlockWaits
  refine fun s hr => ⟨fun hi => ?_, fun rest hi => ?_⟩
  · rw [step_of_idle hr (.inl hi), State.takeTurn_of_no_input hi]
  · rw [step_of_idle hr (.inr ⟨rest, hi⟩)]
    simp only [State.takeTurn, hi]

/-! ### What the checks reject (R192, R193, R194) -/

theorem checkAddr_of_invalid {first : Phase} {s : State} (ho : s.cfg.isOpen = true)
    (ha : validAddr s.lat.a = false) : checkAddr first s = s.reject .config := by
  simp [checkAddr, ho, ha]

theorem checkRdConv_of_large {s : State} (ho : s.cfg.isOpen = true)
    (hmax : s.params.countMax < s.lat.cnt.toNat) : checkRdConv s = s.reject .config := by
  simp [checkRdConv, ho, hmax]

/-- Every check looks at the handle first: OPEN wants none open, every other command wants one
(R194, R196). -/
theorem planOf_check_of_wrongHandle {i : Instr} {s : State} (hspace : i.space = .hostCmd)
    (ho : s.cfg.isOpen = decide (i = .openHandle)) : (planOf i).check s = s.reject .state := by
  cases i with
  | openHandle => exact if_pos ho
  | closeHandle | setDiag | shift16 | shift32 | wrReg | rdReg | rdRegs | rdConv =>
    exact if_neg (by simp [ho])
  | frame16Write | frame16Read | word32Out | word32In | raw16 | raw32 => cases hspace

/-- Settles O18: the check of the handle rejects every command, before its operands are looked
at. -/
theorem wrongHandleStateIsRejected : Obligations.WrongHandleStateIsRejected := by
  unfold Obligations.WrongHandleStateIsRejected
  intro s i hspace hr hi ho
  rw [exec_command i hspace]
  exact runCommand_rejected hr hi (planOf_check_of_wrongHandle hspace ho)

/-- Settles O34: both commands check their address alike, whatever phase the check leads to. -/
theorem invalidAddressIsRejected : Obligations.InvalidAddressIsRejected := by
  unfold Obligations.InvalidAddressIsRejected
  intro s hr hi ho ha
  rw [exec_command .wrReg rfl, exec_command .rdReg rfl]
  exact ⟨runCommand_rejected hr hi (checkAddr_of_invalid ho ha),
    runCommand_rejected hr hi (checkAddr_of_invalid ho ha)⟩

/-- Settles O37: the check of the count rejects it. -/
theorem rdConvRejectsLargeCounts : Obligations.RdConvRejectsLargeCounts := by
  unfold Obligations.RdConvRejectsLargeCounts
  intro s hr hi ho hmax
  rw [exec_command .rdConv rfl]
  exact runCommand_rejected hr hi (checkRdConv_of_large ho hmax)

/-! ### Words that are no command (R104, R195) -/

/-- A word that stands in no row is no command. -/
theorem decodeCmd_of_no_row {w : Word} (h : w ∉ cmdRows.map CmdRow.pattern) :
    decodeCmd w = .error .illegalCommand := by
  have hnone : cmdRows.find? (fun r => decide (w = r.pattern)) = none := by
    rw [List.find?_eq_none]
    intro r hr hw
    exact h (List.mem_map.mpr ⟨r, hr, (of_decide_eq_true hw).symm⟩)
  rw [decodeCmd, hnone]

/-- A write to `CMD` at the head of the schedule of an idle block issues a word that is no command
too (R195). -/
theorem step_issues_illegal {s : State} {w : Word} {e : DecodeError} {rest : List Input}
    (hr : s.run = false) (hi : s.inputs = .write 0#32 w :: rest) (hd : decodeCmd w = .error e) :
    step s = execIllegal w { s with inputs := rest } := by
  simp [step, hi, issues, hr, hostReg, runIssued, hd]

/-- Settles O41: such a word is issued with a check that rejects it in any state of the handle. -/
theorem undefinedCodesAreRejected : Obligations.UndefinedCodesAreRejected := by
  unfold Obligations.UndefinedCodesAreRejected
  intro s w hr hi hw
  rw [step_issues_illegal hr hi (decodeCmd_of_no_row hw)]
  exact runCommand_rejected hr rfl rfl

end Sys2Proof.Machine
end

section
/-! SUPPORT. Reset (70_reset_and_hazards.md R220, R221): the state after it meets the invariant for
every choice of well-formed parameters, and no running command stands in its way. -/

namespace Sys2Proof.Machine

-- Proof after proof: within the check's memory bound there is no room for the stacks of more
-- threads beside those that the tests hold. No `variable` stands here: the option does only that.
set_option deprecated.oldSectionVars true

/-- R44's state is closed and idle with nothing delivered, so that the invariant asks nothing more
of it than of the parameters, which reset does not choose (10_state.md R44; log entry 4). -/
theorem resetWith_inv {p : Config.Params} (hp : p.wf = true) : (State.resetWith p).Inv where
  pins := rfl
  running := rfl
  errors := rfl
  results := decide_eq_true (Nat.zero_le (maxRecords (State.resetWith p)))
  phases := rfl
  listLength := List.length_replicate
  paramsFit := hp

/-- Settles O47: R7's defaults are well-formed. -/
theorem resetMeetsTheInvariant : Obligations.ResetMeetsTheInvariant := by
  unfold Obligations.ResetMeetsTheInvariant
  have hdefault : Config.Params.default.wf = true := by decide
  exact resetWith_inv hdefault

/-- RESET at the head of the schedule is taken before any turn of the engine, whatever the block is
doing (R221). -/
theorem step_of_reset {s : State} {rest : List Input} (hi : s.inputs = .reset :: rest) :
    step s = .next { s with inputs := rest }.resetBlock := by
  simp only [step, hi]

/-- What is not the block's own outlives its reset (log entry 9). -/
theorem resetBlock_keeps (s : State) :
    s.resetBlock.inputs = s.inputs ∧ s.resetBlock.trace = s.trace :=
  ⟨rfl, rfl⟩

/-- Settles O56: the step is the reset of the block, which keeps the schedule and the trace and
leaves every register at R44's value. -/
theorem resetWinsOverEverything : Obligations.ResetWinsOverEverything := by
  unfold Obligations.ResetWinsOverEverything
  intro s rest hi
  obtain ⟨hinputs, htrace⟩ := resetBlock_keeps { s with inputs := rest }
  exact ⟨_, step_of_reset hi, hinputs, htrace,
    rfl, rfl, rfl, rfl, rfl, rfl, rfl, rfl, rfl, rfl, rfl⟩

end Sys2Proof.Machine
end
